-- ==== Sys2Proof/Word.lean ====
section
/-! DEFINITION. The machine word: 16 bits, the only width of memory and of registers (R4, R50). -/

namespace Sys2Proof

/-- A 16-bit word. Arithmetic on it wraps modulo 2^16 (R7). -/
abbrev Word := BitVec 16

end Sys2Proof
end

