-- ==== Sys2Proof/Syntax.lean ====
section
/-! DEFINITION. The instructions as syntax: one constructor for each mnemonic of spec/opcode_table.json (24 real
instructions, 3 reserved classes, 9 pseudo-instructions). A table row's format (W1 or W2) is an operand. A field that
an instruction ignores (R84, R89) is not part of it. -/

namespace Sys2Proof

/-- The 8 registers in the order of their field values 0 to 7 (R21). -/
inductive Reg where
  | rZ
  | pc
  | sp
  | rA
  | rB
  | rC
  | rD
  | rE
  deriving DecidableEq, Repr

/-- The two instruction formats (R82): W1 is one word (T = 1), W2 is two (T = 0). -/
inductive Format where
  | w1
  | w2
  deriving DecidableEq, Repr

/-- The immediate as the format holds it (R85): the 4-bit field of a W1 instruction or the second word of a W2 one. -/
inductive Immed where
  | teeny (imm4 : BitVec 4)
  | wide (imm16 : Word)
  deriving DecidableEq, Repr

/-- The condition mask of opcode 21: bits 2, 1, 0 of the first word (R184). -/
structure Mask where
  e : Bool
  l : Bool
  g : Bool
  deriving DecidableEq, Repr

/-- An instruction. `r1` and `r2` are the registers of the fields reg1 and reg2. -/
inductive Instr where
  /-- SET, R110. -/
  | set (r1 r2 : Reg) (imm : Immed)
  /-- LOD, R112. -/
  | lod (r1 r2 : Reg) (imm : Immed)
  /-- STR, R114: `r1` is the address base, `r2` the data. -/
  | str (r1 r2 : Reg) (imm : Immed)
  /-- PSH, R116. -/
  | psh (r2 : Reg) (imm : Immed)
  /-- POP, R118. -/
  | pop (r1 : Reg) (fmt : Format)
  /-- BTS, R131. -/
  | bts (r1 r2 : Reg) (imm : Immed)
  /-- BTC, R132. -/
  | btc (r1 r2 : Reg) (imm : Immed)
  /-- BTF, R133. -/
  | btf (r1 r2 : Reg) (imm : Immed)
  /-- CAL, R180. -/
  | cal (r2 : Reg) (imm : Immed)
  /-- ADD, R141. -/
  | add (r1 r2 : Reg) (imm : Immed)
  /-- SUB, R142. -/
  | sub (r1 r2 : Reg) (imm : Immed)
  /-- MPY, R143. -/
  | mpy (r1 r2 : Reg) (imm : Immed)
  /-- DIV, R144. -/
  | div (r1 r2 : Reg) (imm : Immed)
  /-- MOD, R145. -/
  | mod (r1 r2 : Reg) (imm : Immed)
  /-- AND, R160. -/
  | and (r1 r2 : Reg) (imm : Immed)
  /-- OR, R161. -/
  | or (r1 r2 : Reg) (imm : Immed)
  /-- XOR, R162. -/
  | xor (r1 r2 : Reg) (imm : Immed)
  /-- SHF, R166. -/
  | shf (r1 r2 : Reg) (imm : Immed)
  /-- ROT, R168. -/
  | rot (r1 r2 : Reg) (imm : Immed)
  /-- NEG, R146. -/
  | neg (r1 : Reg) (fmt : Format)
  /-- CMP, R147. -/
  | cmp (r1 r2 : Reg) (imm : Immed)
  /-- JMP, R184: any mask; two words always (R91). -/
  | jmp (r1 : Reg) (mask : Mask) (imm16 : Word)
  /-- DLY, R188. -/
  | dly (r2 : Reg) (imm : Immed)
  /-- LUP, R190. -/
  | lup (r1 r2 : Reg) (imm : Immed)
  /-- A reserved encoding, R91: opcode 21 with T = 1. It carries its word. -/
  | reservedJmpOneWord (w1 : Word)
  /-- A reserved encoding, R92: opcode 21 with T = 0 and bit 3 set. It carries its words. -/
  | reservedJmpBit3 (w1 imm16 : Word)
  /-- Opcodes 24 to 31, R93. It carries its first word. -/
  | undefinedOpcode (w1 : Word)
  /-- INC, R200: a spelling of ADD. -/
  | inc (r1 : Reg)
  /-- DEC, R201: a spelling of SUB. -/
  | dec (r1 : Reg)
  /-- RET, R202: a spelling of POP PC. -/
  | ret
  /-- JE, R203: a spelling of JMP with mask 0b0100. -/
  | je (r1 : Reg) (imm16 : Word)
  /-- JNE, R204: mask 0b0011. -/
  | jne (r1 : Reg) (imm16 : Word)
  /-- JL, R205: mask 0b0010. -/
  | jl (r1 : Reg) (imm16 : Word)
  /-- JLE, R206: mask 0b0110. -/
  | jle (r1 : Reg) (imm16 : Word)
  /-- JG, R207: mask 0b0001. -/
  | jg (r1 : Reg) (imm16 : Word)
  /-- JGE, R208: mask 0b0101. -/
  | jge (r1 : Reg) (imm16 : Word)
  deriving DecidableEq, Repr

end Sys2Proof
end

