-- ==== Sys2Proof/WellFormed.lean ====
section
/-! DEFINITION. Which terms of `Instr` are instructions. Two kinds of check: the word that a reserved constructor
carries belongs to its class (R91, R92, R93), and an instruction whose words have a name of their own among the
pseudo-instructions is written under that name (R200 to R208), so that every word has one reading. -/

namespace Sys2Proof

/-- The masks that have one of the mnemonics JE, JNE, JL, JLE, JG, JGE (R185). -/
def Mask.hasMnemonic : Mask → Bool
  | ⟨true, false, false⟩ => true
  | ⟨false, true, true⟩ => true
  | ⟨false, true, false⟩ => true
  | ⟨true, true, false⟩ => true
  | ⟨false, false, true⟩ => true
  | ⟨true, false, true⟩ => true
  | ⟨false, false, false⟩ => false
  | ⟨true, true, true⟩ => false

/-- A term of `Instr` that stands for words of the machine, in the one spelling those words decode to. -/
def WellFormed : Instr → Bool
  | .add _ r2 imm => !(r2 == .rZ && imm == .teeny 1)
  | .sub _ r2 imm => !(r2 == .rZ && imm == .teeny 1)
  | .pop r1 fmt => !(r1 == .pc && fmt == .w1)
  | .jmp _ mask _ => !mask.hasMnemonic
  | .reservedJmpOneWord w1 => w1.extractLsb' 10 6 == 0b101011#6
  | .reservedJmpBit3 w1 _ => w1.extractLsb' 10 6 == 0b101010#6 && w1.getLsbD 3
  | .undefinedOpcode w1 => 24 ≤ (w1.extractLsb' 11 5).toNat
  | .set .. | .lod .. | .str .. | .psh .. | .bts .. | .btc .. | .btf .. | .cal .. | .mpy .. | .div .. | .mod ..
  | .and .. | .or .. | .xor .. | .shf .. | .rot .. | .neg .. | .cmp .. | .dly .. | .lup .. => true
  | .inc .. | .dec .. | .ret | .je .. | .jne .. | .jl .. | .jle .. | .jg .. | .jge .. => true

end Sys2Proof
end

