-- ==== Sys2Proof/Decode.lean ====
section
/-! DEFINITION. The decoder and the encoder (spec/30_encoding.md). Decoding is total on any list of words: it names an
instruction, a reserved class, or why there are too few words. -/

namespace Sys2Proof

/-- The register a 3-bit field names (R21). -/
def Reg.ofField (f : BitVec 3) : Reg :=
  match f.toNat with
  | 0 => .rZ
  | 1 => .pc
  | 2 => .sp
  | 3 => .rA
  | 4 => .rB
  | 5 => .rC
  | 6 => .rD
  | _ => .rE

/-- The 3-bit field of a register (R21). -/
def Reg.field : Reg → BitVec 3
  | .rZ => 0
  | .pc => 1
  | .sp => 2
  | .rA => 3
  | .rB => 4
  | .rC => 5
  | .rD => 6
  | .rE => 7

/-- Bits 15:11 of a first word (R80). -/
def opcodeField (w : Word) : Nat := (w.extractLsb' 11 5).toNat

/-- The teeny bit T, bit 10 of a first word (R80, R82). -/
def teenyBit (w : Word) : Bool := w.getLsbD 10

/-- Bits 9:7 of a first word (R80). -/
def reg1Field (w : Word) : Reg := Reg.ofField (w.extractLsb' 7 3)

/-- Bits 6:4 of a first word (R80). -/
def reg2Field (w : Word) : Reg := Reg.ofField (w.extractLsb' 4 3)

/-- Bits 3:0 of a first word (R80). -/
def imm4Field (w : Word) : BitVec 4 := w.extractLsb' 0 4

/-- Bit 3 of a first word, the reserved bit of opcode 21 (R80, R92). -/
def reservedBit (w : Word) : Bool := w.getLsbD 3

/-- Bits 2:0 of a first word of opcode 21: the mask (R184). -/
def maskField (w : Word) : Mask := ⟨w.getLsbD 2, w.getLsbD 1, w.getLsbD 0⟩

/-- The format the teeny bit gives (R82). -/
def formatOf (w : Word) : Format := if teenyBit w then .w1 else .w2

/-- The immediate of an instruction with first word `w1` and second word `w2` (R85). -/
def immedOf (w1 w2 : Word) : Immed := if teenyBit w1 then .teeny (imm4Field w1) else .wide w2

/-- The instruction that the opcode field selects, among the 24 instructions and the reserved classes: the decode
lines of R88, with R84 for the fields, R91 and R92 for opcode 21, R93 for opcodes 24 to 31. `w2` plays no part when
T = 1. -/
def decodeReal (w1 w2 : Word) : Instr :=
  match opcodeField w1 with
  | 0 => .set (reg1Field w1) (reg2Field w1) (immedOf w1 w2)
  | 1 => .lod (reg1Field w1) (reg2Field w1) (immedOf w1 w2)
  | 2 => .str (reg1Field w1) (reg2Field w1) (immedOf w1 w2)
  | 3 => .psh (reg2Field w1) (immedOf w1 w2)
  | 4 => .pop (reg1Field w1) (formatOf w1)
  | 5 => .bts (reg1Field w1) (reg2Field w1) (immedOf w1 w2)
  | 6 => .btc (reg1Field w1) (reg2Field w1) (immedOf w1 w2)
  | 7 => .btf (reg1Field w1) (reg2Field w1) (immedOf w1 w2)
  | 8 => .cal (reg2Field w1) (immedOf w1 w2)
  | 9 => .add (reg1Field w1) (reg2Field w1) (immedOf w1 w2)
  | 10 => .sub (reg1Field w1) (reg2Field w1) (immedOf w1 w2)
  | 11 => .mpy (reg1Field w1) (reg2Field w1) (immedOf w1 w2)
  | 12 => .div (reg1Field w1) (reg2Field w1) (immedOf w1 w2)
  | 13 => .mod (reg1Field w1) (reg2Field w1) (immedOf w1 w2)
  | 14 => .and (reg1Field w1) (reg2Field w1) (immedOf w1 w2)
  | 15 => .or (reg1Field w1) (reg2Field w1) (immedOf w1 w2)
  | 16 => .xor (reg1Field w1) (reg2Field w1) (immedOf w1 w2)
  | 17 => .shf (reg1Field w1) (reg2Field w1) (immedOf w1 w2)
  | 18 => .rot (reg1Field w1) (reg2Field w1) (immedOf w1 w2)
  | 19 => .neg (reg1Field w1) (formatOf w1)
  | 20 => .cmp (reg1Field w1) (reg2Field w1) (immedOf w1 w2)
  | 21 =>
    if teenyBit w1 then .reservedJmpOneWord w1
    else if reservedBit w1 then .reservedJmpBit3 w1 w2
    else .jmp (reg1Field w1) (maskField w1) w2
  | 22 => .dly (reg2Field w1) (immedOf w1 w2)
  | 23 => .lup (reg1Field w1) (reg2Field w1) (immedOf w1 w2)
  | _ => .undefinedOpcode w1

/-- The instruction under the most particular mnemonic the opcode table has for it: a pseudo-instruction where one
stands for exactly this instruction (R200 to R208; log entry 23). It changes the spelling only (R210). -/
def respell : Instr → Instr
  | .add r1 r2 imm => if r2 = .rZ ∧ imm = .teeny 1 then .inc r1 else .add r1 r2 imm
  | .sub r1 r2 imm => if r2 = .rZ ∧ imm = .teeny 1 then .dec r1 else .sub r1 r2 imm
  | .pop r1 fmt => if r1 = .pc ∧ fmt = .w1 then .ret else .pop r1 fmt
  | .jmp r1 mask imm16 =>
    match mask with
    | ⟨true, false, false⟩ => .je r1 imm16
    | ⟨false, true, true⟩ => .jne r1 imm16
    | ⟨false, true, false⟩ => .jl r1 imm16
    | ⟨true, true, false⟩ => .jle r1 imm16
    | ⟨false, false, true⟩ => .jg r1 imm16
    | ⟨true, false, true⟩ => .jge r1 imm16
    | ⟨false, false, false⟩ => .jmp r1 ⟨false, false, false⟩ imm16
    | ⟨true, true, true⟩ => .jmp r1 ⟨true, true, true⟩ imm16
  | i => i

/-- The instruction of a first word and a second word; the second plays no part when T = 1. -/
def decodeWords (w1 w2 : Word) : Instr := respell (decodeReal w1 w2)

/-- Why a list of words holds no instruction. -/
inductive DecodeError where
  /-- There is no word at all. -/
  | noFirstWord
  /-- T = 0 in the first word and no second word follows (R82). -/
  | noSecondWord
  deriving DecidableEq, Repr

/-- The instruction at the head of a list of words, and the words after it (R80 to R82). -/
def decode : List Word → Except DecodeError (Instr × List Word)
  | [] => .error .noFirstWord
  | [w1] => if teenyBit w1 then .ok (decodeWords w1 0, []) else .error .noSecondWord
  | w1 :: w2 :: rest =>
    if teenyBit w1 then .ok (decodeWords w1 w2, w2 :: rest) else .ok (decodeWords w1 w2, rest)

/-- A first word from its fields: `ooooo T aaa bbb iiii` (R80). -/
def firstWord (opcode : Nat) (teeny : Bool) (r1 r2 : BitVec 3) (low : BitVec 4) : Word :=
  BitVec.ofNat 5 opcode ++ BitVec.ofBool teeny ++ r1 ++ r2 ++ low

/-- The words of an instruction with an immediate (R80, R81). Unused bits are 0 (R89). -/
def encodeImmed (opcode : Nat) (r1 r2 : BitVec 3) : Immed → List Word
  | .teeny imm4 => [firstWord opcode true r1 r2 imm4]
  | .wide imm16 => [firstWord opcode false r1 r2 0, imm16]

/-- The words of an instruction that uses no immediate. -/
def encodeBare (opcode : Nat) (r1 : BitVec 3) : Format → List Word
  | .w1 => [firstWord opcode true r1 0 0]
  | .w2 => [firstWord opcode false r1 0 0, 0]

/-- The words of a jump with a mask (R184). -/
def encodeJump (r1 : Reg) (mask : Mask) (imm16 : Word) : List Word :=
  [firstWord 21 false r1.field 0
    (BitVec.ofBool false ++ BitVec.ofBool mask.e ++ BitVec.ofBool mask.l ++ BitVec.ofBool mask.g), imm16]

/-- The words of an instruction (R80, R81, R87, and R200 to R208 for the pseudo-instructions). -/
def encode : Instr → List Word
  | .set r1 r2 imm => encodeImmed 0 r1.field r2.field imm
  | .lod r1 r2 imm => encodeImmed 1 r1.field r2.field imm
  | .str r1 r2 imm => encodeImmed 2 r1.field r2.field imm
  | .psh r2 imm => encodeImmed 3 0 r2.field imm
  | .pop r1 fmt => encodeBare 4 r1.field fmt
  | .bts r1 r2 imm => encodeImmed 5 r1.field r2.field imm
  | .btc r1 r2 imm => encodeImmed 6 r1.field r2.field imm
  | .btf r1 r2 imm => encodeImmed 7 r1.field r2.field imm
  | .cal r2 imm => encodeImmed 8 0 r2.field imm
  | .add r1 r2 imm => encodeImmed 9 r1.field r2.field imm
  | .sub r1 r2 imm => encodeImmed 10 r1.field r2.field imm
  | .mpy r1 r2 imm => encodeImmed 11 r1.field r2.field imm
  | .div r1 r2 imm => encodeImmed 12 r1.field r2.field imm
  | .mod r1 r2 imm => encodeImmed 13 r1.field r2.field imm
  | .and r1 r2 imm => encodeImmed 14 r1.field r2.field imm
  | .or r1 r2 imm => encodeImmed 15 r1.field r2.field imm
  | .xor r1 r2 imm => encodeImmed 16 r1.field r2.field imm
  | .shf r1 r2 imm => encodeImmed 17 r1.field r2.field imm
  | .rot r1 r2 imm => encodeImmed 18 r1.field r2.field imm
  | .neg r1 fmt => encodeBare 19 r1.field fmt
  | .cmp r1 r2 imm => encodeImmed 20 r1.field r2.field imm
  | .jmp r1 mask imm16 => encodeJump r1 mask imm16
  | .dly r2 imm => encodeImmed 22 0 r2.field imm
  | .lup r1 r2 imm => encodeImmed 23 r1.field r2.field imm
  | .reservedJmpOneWord w1 => [w1]
  | .reservedJmpBit3 w1 imm16 => [w1, imm16]
  | .undefinedOpcode w1 => if teenyBit w1 then [w1] else [w1, 0]
  | .inc r1 => encodeImmed 9 r1.field 0 (.teeny 1)
  | .dec r1 => encodeImmed 10 r1.field 0 (.teeny 1)
  | .ret => encodeBare 4 (Reg.field .pc) .w1
  | .je r1 imm16 => encodeJump r1 ⟨true, false, false⟩ imm16
  | .jne r1 imm16 => encodeJump r1 ⟨false, true, true⟩ imm16
  | .jl r1 imm16 => encodeJump r1 ⟨false, true, false⟩ imm16
  | .jle r1 imm16 => encodeJump r1 ⟨true, true, false⟩ imm16
  | .jg r1 imm16 => encodeJump r1 ⟨false, false, true⟩ imm16
  | .jge r1 imm16 => encodeJump r1 ⟨true, false, true⟩ imm16

/-- The two words of an instruction whose bits are `w`, bit 0 the least significant bit of the first word; bits from
`nbits` on count as 0. -/
def tableWords (nbits w : Nat) : Word × Word :=
  (BitVec.ofNat 16 (w % 2 ^ nbits), BitVec.ofNat 16 (w % 2 ^ nbits / 2 ^ 16))

/-- The instruction the decoder reads from the bits `w` of an opcode-table row of `nbits` bits. -/
def decodeTableWord (nbits w : Nat) : Option Instr :=
  match decode [(tableWords nbits w).1, (tableWords nbits w).2] with
  | .ok (i, _) => some i
  | .error _ => none

end Sys2Proof
end

