-- ==== Sys2Proof/Config.lean ====
section
/-! DEFINITION. What the manual leaves open. The parameters of R5, one field each, with the values the spec names
for them; and the free values: constants without a body, about which nothing can be proved except what holds of
every value. A state carries its parameters (`Machine.State.config`), so that a claim can name or quantify over them;
the defaults are in Sys2Proof/Machine/Parameters.lean. -/

namespace Sys2Proof

/-- TEENY_IMM_EXT (D1): how the 4-bit immediate of a one-word instruction widens. -/
inductive TeenyImmExt where
  | sext
  | zext
  deriving DecidableEq, Repr

/-- JMP_TEENY (D2): opcode 21 with T = 1. `immed0` and `immed4` are the two other readings R91 names. -/
inductive JmpTeeny where
  | refuse
  | immed0
  | immed4
  deriving DecidableEq, Repr

/-- JMP_BIT3 (D4): opcode 21 with bit 3 set. -/
inductive JmpBit3 where
  | refuse
  | ignore
  deriving DecidableEq, Repr

/-- ALU_FLAG_RULE (D5): how the flag writers other than CMP set E, L, G. The spec names one value. -/
inductive AluFlagRule where
  | signedResultVsZero
  deriving DecidableEq, Repr

/-- CMP_RULE (D6): what CMP compares. -/
inductive CmpRule where
  | signedExact
  | signedWrappedDiff
  | unsigned
  deriving DecidableEq, Repr

/-- DIV_RULE (D8): how DIV and MOD read their operands and round. -/
inductive DivRule where
  | signedTrunc
  | unsigned
  deriving DecidableEq, Repr

/-- DIV_ZERO (D9, R149): a divisor of 0. `nop` is the instance R149 gives of another treatment. -/
inductive DivZero where
  | refuse
  | nop
  deriving DecidableEq, Repr

/-- SHF_FILL (D11): what enters bit 15 on a right shift. -/
inductive ShfFill where
  | logical
  | arithmetic
  deriving DecidableEq, Repr

/-- SHF_BIG (D11): shift counts of magnitude 16 or more. -/
inductive ShfBig where
  | zero
  | mod16
  | refuse
  deriving DecidableEq, Repr

/-- ROT_BIG (D12): rotate counts of magnitude 16 or more. -/
inductive RotBig where
  | mod16
  | refuse
  deriving DecidableEq, Repr

/-- ILLEGAL_OPCODE (D13): opcodes 24 to 31. -/
inductive IllegalOpcode where
  | refuse
  | nop
  deriving DecidableEq, Repr

/-- FETCH_STRADDLE (D15): a two-word instruction whose first word is at 0x7FFF. -/
inductive FetchStraddle where
  | refuse
  | resetPc
  deriving DecidableEq, Repr

/-- STACK_OUTSIDE_RAM (D16): a stack access at an address above 0x7FFF. -/
inductive StackOutsideRam where
  | refuse
  | bus
  deriving DecidableEq, Repr

/-- RESET_GPR (D17): rA to rE at reset. `any`: the values a run starts with are its arguments; `fault`: reading one
before a write raises UninitialisedRead (R222); `zero`. -/
inductive ResetGpr where
  | any
  | fault
  | zero
  deriving DecidableEq, Repr

/-- RESET_FLAGS (D17): E, L, G at reset, as for RESET_GPR. -/
inductive ResetFlags where
  | any
  | fault
  | zero
  deriving DecidableEq, Repr

/-- RAM_FILL (D18): what a RAM word holds that neither the image nor a store has written. `any`: the free value
`Config.ramContents`; `fault`: reading it raises UninitialisedRead (R222); `fixed w`: the word `w` (the spec names
0x0480 and 0x0000). -/
inductive RamFill where
  | any
  | fault
  | fixed (w : Word)
  deriving DecidableEq, Repr

/-- IMAGE_BYTE_ORDER (D19): which byte of a word comes first in the image file. -/
inductive ImageByteOrder where
  | little
  | big
  deriving DecidableEq, Repr

/-- ALU_RZ_FLAGS (D25): a flag writer with destination rZ takes the flags from the computed result or from the 0 that
rZ holds, or is refused. -/
inductive AluRzFlags where
  | computed
  | stored
  | refuse
  deriving DecidableEq, Repr

/-- The parameters of R5, one field each. -/
structure Config where
  teenyImmExt : TeenyImmExt
  jmpTeeny : JmpTeeny
  jmpBit3 : JmpBit3
  aluFlagRule : AluFlagRule
  cmpRule : CmpRule
  divRule : DivRule
  divZero : DivZero
  shfFill : ShfFill
  shfBig : ShfBig
  rotBig : RotBig
  illegalOpcode : IllegalOpcode
  fetchStraddle : FetchStraddle
  stackOutsideRam : StackOutsideRam
  resetGpr : ResetGpr
  resetFlags : ResetFlags
  ramFill : RamFill
  imageByteOrder : ImageByteOrder
  aluRzFlags : AluRzFlags
  deriving DecidableEq, Repr

/-- FREE VALUE (log entry 18; R34, D18): the word RAM holds at an address before anything has written it. -/
opaque Config.ramContents : Word → Word

/-- FREE VALUE (log entry 20; R231, U19): the host's answer to a bus read that no answer was supplied for, by the
number of bus events before it and its address. -/
opaque Config.busAnswer : Nat → Word → Word

end Sys2Proof
end

