-- ==== Sys2Proof/Machine/Parameters.lean ====
section
/-! DEFINITION. The default of each parameter of R5, which `State.reset` carries. -/

namespace Sys2Proof.Machine

/-- The default of every parameter of R5 (log entries 1 to 13, 16 to 18). -/
def parameters : Config where
  teenyImmExt := .sext
  jmpTeeny := .refuse
  jmpBit3 := .refuse
  aluFlagRule := .signedResultVsZero
  cmpRule := .signedExact
  divRule := .signedTrunc
  divZero := .refuse
  shfFill := .logical
  shfBig := .zero
  rotBig := .mod16
  illegalOpcode := .refuse
  fetchStraddle := .refuse
  stackOutsideRam := .refuse
  resetGpr := .any
  resetFlags := .any
  ramFill := .any
  imageByteOrder := .little
  aluRzFlags := .computed

end Sys2Proof.Machine
end

