-- ==== Sys2Proof/Machine/State.lean ====
section
/-! DEFINITION. The state of one TeenyAT instance (R20), the reasons a step can stop (R222), and reset (R34, R250). -/

namespace Sys2Proof.Machine

/-- The comparison flags (R28). -/
structure Flags where
  /-- Equal. -/
  e : Bool
  /-- Less. -/
  l : Bool
  /-- Greater. -/
  g : Bool
  deriving DecidableEq, Repr

/-- One RAM word at a word address. The machine has no bytes (R53), so a cell holds a word (log entry 19). -/
abbrev Cell := Nat × Word

/-- RAM as the words written so far, by strictly rising address (R50; `Memory.wf`). -/
abbrev Memory := List Cell

/-- One call of a host callback (R231, R232). -/
inductive BusEvent where
  /-- BusRead at `addr`, answered `answer`. -/
  | read (addr answer : Word)
  /-- BusWrite of `value` at `addr`. -/
  | write (addr value : Word)
  deriving DecidableEq, Repr

/-- The state of one instance. rZ has no storage (R20, R22). -/
structure State where
  /-- x[1] (R24). -/
  pc : Word
  /-- x[2] (R23). -/
  sp : Word
  /-- x[3]. -/
  rA : Word
  /-- x[4]. -/
  rB : Word
  /-- x[5]. -/
  rC : Word
  /-- x[6]. -/
  rD : Word
  /-- x[7]. -/
  rE : Word
  /-- E, L, G (R28). -/
  flags : Flags
  /-- The RAM words written so far (R50). -/
  ram : Memory
  /-- The bus callbacks made so far, oldest first (R232: the observable behaviour). -/
  busLog : List BusEvent
  /-- THE MODEL'S OWN: answers the host holds ready for the next bus reads, in order. When it is empty a bus read is
  answered by the free value `Config.busAnswer` (log entry 20). -/
  hostAnswers : List Word
  /-- THE MODEL'S OWN: those of rA to rE that nothing has written since reset. Only RESET_GPR = fault looks at it
  (log entry 35). -/
  unwritten : List Reg
  /-- THE MODEL'S OWN: nothing has written the flags since reset. Only RESET_FLAGS = fault looks at it (log entry 35). -/
  flagsUnwritten : Bool
  /-- THE MODEL'S OWN: the parameters of R5 that this machine runs with. No instruction changes them (log entry 15). -/
  config : Config
  deriving DecidableEq, Repr

/-- Something an instruction reads whose reset value is unspecified (R34). -/
inductive ReadSource where
  /-- One of rA to rE. -/
  | reg (r : Reg)
  /-- E, L, G. -/
  | flags
  /-- A RAM word. -/
  | ram (a : Word)
  deriving DecidableEq, Repr

/-- The model faults (R222). Each is the outcome of the model, not an event of the hardware. `before` is the state the
fault leaves (R223): the one before the step with PC at the instruction, the PC reset of R221 having happened.
Stopping is safe: nothing is claimed of a run that goes on. -/
inductive Fault where
  /-- Raised by the fetch (R90): the first word at `a` = 0x7FFF has T = 0. Safe. -/
  | fetchStraddle (a : Word) (before : State)
  /-- Raised by opcodes 24 to 31 (R93): the instruction's address and first word. Safe. -/
  | illegalOpcode (a w1 : Word) (before : State)
  /-- Raised by opcode 21 with T = 1 or bit 3 set (R91, R92): the instruction's address and first word. Safe. -/
  | reservedEncoding (a w1 : Word) (before : State)
  /-- Raised by PSH, CAL, POP, RET (R58): the stack address, above 0x7FFF. Safe. -/
  | stackOutOfRam (addr : Word) (before : State)
  /-- Raised by DIV and MOD with divisor 0 (R149): the instruction's address. Safe. -/
  | divideByZero (a : Word) (before : State)
  /-- The sixth fault that R222 lets a model add: what was read before anything had written it. Raised only where
  RESET_GPR, RESET_FLAGS or RAM_FILL is `fault`, which no default is (log entry 35). Safe. -/
  | uninitialisedRead (source : ReadSource) (before : State)
  deriving DecidableEq, Repr

/-- Why the model declines to run an instruction; `before` as in `Fault`. -/
inductive Refusal where
  /-- Raised by a Dispatch arm that has no meaning yet (none is left). Safe. -/
  | notModelled (mnemonic : String)
  /-- Raised by SHF with a count of magnitude 16 or more where SHF_BIG = refuse (D11), which is no default. Safe. -/
  | shiftCount (before : State)
  /-- Raised by ROT with a count of magnitude 16 or more where ROT_BIG = refuse (D12), which is no default. Safe. -/
  | rotateCount (before : State)
  /-- Raised by a flag writer other than CMP with destination rZ where ALU_RZ_FLAGS = refuse (D25, U10), which is no
  default. Safe. -/
  | zeroDestination (before : State)
  deriving DecidableEq, Repr

/-- A register's value at reset: 0 where RESET_GPR = zero, else the one given (R34, D17). -/
def resetWord : ResetGpr → Word → Word
  | .any, v => v
  | .fault, v => v
  | .zero, _ => 0

/-- The flags at reset: clear where RESET_FLAGS = zero, else those given (R34, D17). -/
def resetFlags : ResetFlags → Flags → Flags
  | .any, f => f
  | .fault, f => f
  | .zero, _ => ⟨false, false, false⟩

/-- The machine right after reset with parameters `c`, for any values of the state the spec leaves unspecified there
(R34: rA to rE and the flags). Nothing is written in RAM, no callback has been made. -/
def State.initial (c : Config) (rA rB rC rD rE : Word) (flags : Flags) : State :=
  { pc := 0x0000, sp := 0x7FFF, rA := resetWord c.resetGpr rA, rB := resetWord c.resetGpr rB,
    rC := resetWord c.resetGpr rC, rD := resetWord c.resetGpr rD, rE := resetWord c.resetGpr rE,
    flags := resetFlags c.resetFlags flags, ram := [], busLog := [], hostAnswers := [],
    unwritten := [.rA, .rB, .rC, .rD, .rE], flagsUnwritten := true, config := c }

/-- The machine right after reset with the default parameters: rA to rE are 0 and the flags are clear, which the spec
leaves open (log entry 17). -/
def State.reset : State :=
  State.initial parameters 0 0 0 0 0 ⟨false, false, false⟩

end Sys2Proof.Machine
end

