-- ==== Sys2Proof/Machine/Flags.lean ====
section
/-! DEFINITION. Every flag computation the spec gives: SetFlags (R30) and the comparison of CMP (R147). -/

namespace Sys2Proof.Machine

/-- SetFlags(r): the 16-bit result compared with zero as a signed number (R30). -/
def Flags.ofResult : AluFlagRule → Word → Flags
  | .signedResultVsZero, r => ⟨r == 0, decide (r.toInt < 0), decide (0 < r.toInt)⟩

/-- CMP's flags (R147): the exact signed comparison, or one of the two other readings of CMP_RULE (R5, D6). -/
def Flags.ofCompare : CmpRule → AluFlagRule → Word → Word → Flags
  | .signedExact, _, a, b => ⟨a == b, decide (a.toInt < b.toInt), decide (b.toInt < a.toInt)⟩
  | .signedWrappedDiff, rule, a, b => Flags.ofResult rule (a - b)
  | .unsigned, _, a, b => ⟨a == b, decide (a.toNat < b.toNat), decide (b.toNat < a.toNat)⟩

/-- The value the flags are set from when an instruction computes `r` for destination `r1` (R32, ALU_RZ_FLAGS). Where
the parameter is `refuse` only a destination other than rZ comes here. -/
def flagSource : AluRzFlags → Reg → Word → Word
  | .computed, _, r => r
  | .refuse, _, r => r
  | .stored, r1, r => if r1 = .rZ then 0 else r

/-- Whether a jump with mask `m` is taken (R184): no mask bit set, or a flag set whose mask bit is set. -/
def Mask.taken (m : Mask) (f : Flags) : Bool :=
  (!m.e && !m.l && !m.g) || (m.e && f.e) || (m.l && f.l) || (m.g && f.g)

end Sys2Proof.Machine
end

