-- ==== Sys2Proof/Machine/Ops.lean ====
section
/-! DEFINITION. The named operations over registers, RAM, the bus, the stack and the fetch. The TeenyAT takes no
exception and has no return from one (R220, R226, R227): its one recovery action is the PC reset of a fetch outside
RAM (R27, R221), which is `fetchAddress`. -/

namespace Sys2Proof.Machine

/-! ### Registers -/

/-- x[i]: rZ reads 0 (R22). -/
def State.reg (s : State) : Reg → Word
  | .rZ => 0
  | .pc => s.pc
  | .sp => s.sp
  | .rA => s.rA
  | .rB => s.rB
  | .rC => s.rC
  | .rD => s.rD
  | .rE => s.rE

/-- The registers of a list other than `r`. -/
def without (r : Reg) (l : List Reg) : List Reg := l.filter (fun q => q != r)

/-- x[i] <- v: a write to rZ is ignored (R22), a write to PC is a jump (R26). rA to rE then count as written. -/
def State.setReg (s : State) (r : Reg) (v : Word) : State :=
  match r with
  | .rZ => s
  | .pc => { s with pc := v }
  | .sp => { s with sp := v }
  | .rA => { s with rA := v, unwritten := without .rA s.unwritten }
  | .rB => { s with rB := v, unwritten := without .rB s.unwritten }
  | .rC => { s with rC := v, unwritten := without .rC s.unwritten }
  | .rD => { s with rD := v, unwritten := without .rD s.unwritten }
  | .rE => { s with rE := v, unwritten := without .rE s.unwritten }

/-- Write E, L and G, which then count as written. -/
def State.setFlags (s : State) (f : Flags) : State := { s with flags := f, flagsUnwritten := false }

/-- The write-back of a flag-writing instruction: x[r1] <- r, then SetFlags (R30, R32). -/
def State.writeResult (s : State) (r1 : Reg) (r : Word) : State :=
  (s.setReg r1 r).setFlags (Flags.ofResult s.config.aluFlagRule (flagSource s.config.aluRzFlags r1 r))

/-! ### RAM -/

/-- The addresses of RAM, 0x0000 to 0x7FFF (R50). -/
abbrev InRam (a : Word) : Prop := a.toNat ≤ 0x7FFF

/-- The word written at a key, if one was. -/
def Memory.read : Memory → Nat → Option Word
  | [], _ => none
  | (k, w) :: m, a => if k = a then some w else Memory.read m a

/-- Write a word at a key, keeping the keys strictly rising. -/
def Memory.write : Memory → Nat → Word → Memory
  | [], a, v => [(a, v)]
  | (k, w) :: m, a, v =>
    if a < k then (a, v) :: (k, w) :: m
    else if a = k then (a, v) :: m
    else (k, w) :: Memory.write m a v

/-- Strictly rising keys, each at least `lo` and below the size of RAM. -/
def Memory.wfFrom (lo : Nat) : Memory → Bool
  | [] => true
  | (k, _) :: m => decide (lo ≤ k) && decide (k < 0x8000) && Memory.wfFrom (k + 1) m

/-- The canonical form: addresses strictly rising, all in RAM. An unlisted address holds no word here, so no entry
repeats it. -/
def Memory.wf (m : Memory) : Bool := Memory.wfFrom 0 m

/-- What a RAM word reads as that nothing has written (R34, RAM_FILL). Where the parameter is `fault` a step stops
before it reads such a word (Machine/Initialised.lean). -/
def unwrittenWord : RamFill → Word → Word
  | .any, a => Config.ramContents a
  | .fault, a => Config.ramContents a
  | .fixed w, _ => w

/-- RAM[a] (R7, R50). -/
def State.ramWord (s : State) (a : Word) : Word :=
  (s.ram.read a.toNat).getD (unwrittenWord s.config.ramFill a)

/-- RAM[a] <- v. -/
def State.setRamWord (s : State) (a v : Word) : State := { s with ram := s.ram.write a.toNat v }

/-! ### The bus -/

/-- The host's answer to a bus read now (R231): the next one it holds ready, else a free value. -/
def State.busAnswer (s : State) (addr : Word) : Word :=
  match s.hostAnswers with
  | [] => Config.busAnswer s.busLog.length addr
  | v :: _ => v

/-- The state after BusRead(addr): one callback, its answer recorded (R231). -/
def State.afterBusRead (s : State) (addr : Word) : State :=
  { s with hostAnswers := s.hostAnswers.tail, busLog := s.busLog ++ [.read addr (s.busAnswer addr)] }

/-- BusWrite(addr, v): one callback (R232). -/
def State.busWrite (s : State) (addr v : Word) : State :=
  { s with busLog := s.busLog ++ [.write addr v] }

/-! ### Data accesses -/

/-- MemRead(addr, 1): the word read and the state after (R56). -/
def State.memRead (s : State) (addr : Word) : Word × State :=
  if InRam addr then (s.ramWord addr, s) else (s.busAnswer addr, s.afterBusRead addr)

/-- MemWrite(addr, 1, v) (R57). -/
def State.memWrite (s : State) (addr v : Word) : State :=
  if InRam addr then s.setRamWord addr v else s.busWrite addr v

/-- StackRead(addr): RAM only (R58); above 0x7FFF STACK_OUTSIDE_RAM decides. A fault leaves `before`. -/
def State.stackRead (s : State) (addr : Word) (before : State) : Except Fault (Word × State) :=
  if InRam addr then .ok (s.ramWord addr, s)
  else match s.config.stackOutsideRam with
    | .refuse => .error (.stackOutOfRam addr before)
    | .bus => .ok (s.busAnswer addr, s.afterBusRead addr)

/-- StackWrite(addr, v): RAM only (R58); above 0x7FFF STACK_OUTSIDE_RAM decides. A fault leaves `before`. -/
def State.stackWrite (s : State) (addr v : Word) (before : State) : Except Fault State :=
  if InRam addr then .ok (s.setRamWord addr v)
  else match s.config.stackOutsideRam with
    | .refuse => .error (.stackOutOfRam addr before)
    | .bus => .ok (s.busWrite addr v)

/-- A push: write at SP, then decrement SP (R116, R180). -/
def State.push (s : State) (v : Word) (before : State) : Except Fault State :=
  match s.stackWrite s.sp v before with
  | .error f => .error f
  | .ok s' => .ok (s'.setReg .sp (s'.sp - 1))

/-- A pop into a register: increment SP, read at SP, then write the register (R118). -/
def State.popInto (s : State) (r1 : Reg) (before : State) : Except Fault State :=
  match (s.setReg .sp (s.sp + 1)).stackRead (s.sp + 1) before with
  | .error f => .error f
  | .ok (v, s') => .ok (s'.setReg r1 v)

/-! ### Outcomes -/

/-- The outcome of an operation that completes or raises a model fault. -/
def outcomeOf : Except Fault State → Host.Outcome State Fault Refusal
  | .ok s => .next s
  | .error f => .fault f

/-! ### Fetch -/

/-- The number of words of a format (R82). -/
def Format.words : Format → Word
  | .w1 => 1
  | .w2 => 2

/-- The format of an instruction with this immediate (R85). -/
def Immed.format : Immed → Format
  | .teeny _ => .w1
  | .wide _ => .w2

/-- The address of the instruction being executed: PC is already past its words (R24, R25). -/
def State.instrAddress (s : State) (fmt : Format) : Word := s.pc - Format.words fmt

/-- The state a model fault leaves (R223) when the instruction being executed raises it before it has written
anything: PC back at the instruction, all else as it is. -/
def State.beforeFetch (s : State) (fmt : Format) : State := s.setReg .pc (s.instrAddress fmt)

/-- Where a step fetches: at PC, or at 0x0000 when PC is outside RAM (R27). -/
def State.fetchAddress (s : State) : Word := if InRam s.pc then s.pc else 0x0000

/-- The state a model fault of the fetch leaves (R223): the PC reset has happened, nothing else. -/
def State.atFetch (s : State) : State := s.setReg .pc s.fetchAddress

/-- The first word of the instruction a step fetches (R88). -/
def State.firstFetched (s : State) : Word := s.ramWord s.fetchAddress

/-- The second word, fetched only when T = 0 (R88). -/
def State.secondFetched (s : State) : Word :=
  if teenyBit s.firstFetched then 0 else s.ramWord (s.fetchAddress + 1)

/-- The instruction a step executes (R88). -/
def State.fetched (s : State) : Instr := decodeWords s.firstFetched s.secondFetched

/-- The instruction a step fetches has a second word that lies outside RAM (R90). -/
def State.straddles (s : State) : Bool := !teenyBit s.firstFetched && s.fetchAddress == 0x7FFF

/-- The state after the fetch: PC = a + 2 - T (R25). -/
def State.afterFetch (s : State) : State :=
  s.setReg .pc (s.fetchAddress + Format.words (formatOf s.firstFetched))

/-- The outcome of a fetch whose second word lies outside RAM (R90, FETCH_STRADDLE). That with `resetPc` the step ends
once PC is reset, and the instruction at 0x0000 is the next step's, is a DESIGN CHOICE: D15 says only that the
instruction is abandoned and PC reset (log entry 11). -/
def State.straddleOutcome (s : State) : Host.Outcome State Fault Refusal :=
  match s.config.fetchStraddle with
  | .refuse => .fault (.fetchStraddle s.fetchAddress s.atFetch)
  | .resetPc => .next (s.setReg .pc 0x0000)

/-! ### The image (R251) -/

/-- Place words in RAM from an address on. -/
def State.placeWords (s : State) (a : Nat) : List Word → State
  | [] => s
  | w :: ws => State.placeWords (s.setRamWord (BitVec.ofNat 16 a) w) (a + 1) ws

/-- Load an image at 0x0000; an image longer than RAM has no meaning (R251, U23). -/
def State.loadImage (s : State) (image : List Word) : Option State :=
  if image.length ≤ 0x8000 then some (s.placeWords 0 image) else none

/-- The words of an image file's bytes (R54, IMAGE_BYTE_ORDER); none for an odd number of bytes. -/
def imageWords (order : ImageByteOrder) : List (BitVec 8) → Option (List Word)
  | [] => some []
  | [_] => none
  | b0 :: b1 :: rest =>
    match imageWords order rest with
    | none => none
    | some ws =>
      match order with
      | .little => some ((b1 ++ b0) :: ws)
      | .big => some ((b0 ++ b1) :: ws)

/-- Load an image file: its words in the order IMAGE_BYTE_ORDER gives (R54, R251). -/
def State.loadImageFile (s : State) (bytes : List (BitVec 8)) : Option State :=
  match imageWords s.config.imageByteOrder bytes with
  | none => none
  | some image => s.loadImage image

end Sys2Proof.Machine
end

