-- ==== Sys2Proof/Machine/Operands.lean ====
section
/-! DEFINITION. Operand assembly (R85, R86): every operand form of the instruction set. -/

namespace Sys2Proof.Machine

/-- The 4-bit immediate widened to 16 bits (R85, TEENY_IMM_EXT). -/
def widenImm4 : TeenyImmExt → BitVec 4 → Word
  | .sext, i => i.signExtend 16
  | .zext, i => i.zeroExtend 16

/-- `immed`, the 16-bit immediate (R85). -/
def State.immed (s : State) : Immed → Word
  | .teeny i => widenImm4 s.config.teenyImmExt i
  | .wide w => w

/-- `x[r] + immed` modulo 2^16: `val` with `r` = reg2 (R86); the address of LOD, STR (R59); the target of JMP, CAL,
LUP (R180, R184, R190). -/
def State.operand (s : State) (r : Reg) (imm : Immed) : Word := s.reg r + s.immed imm

/-- A flag writer with destination `r1` that has the outcome `o`, unless ALU_RZ_FLAGS refuses the destination rZ
(R32, U10). The refusal goes by the destination alone, before any fault and after the refusal of a count: DESIGN
CHOICE (log entry 16). -/
def State.unlessRefused (s : State) (r1 : Reg) (fmt : Format) (o : Host.Outcome State Fault Refusal) :
    Host.Outcome State Fault Refusal :=
  if r1 = .rZ ∧ s.config.aluRzFlags = .refuse then .refused (.zeroDestination (s.beforeFetch fmt)) else o

end Sys2Proof.Machine
end

