-- ==== Sys2Proof/Machine/BitOps.lean ====
section
/-! DEFINITION. BTS, BTC, BTF (spec/41_bit_ops.md). -/

namespace Sys2Proof.Machine

/-- The common rule of the three (R130): bit `val` of register1 if it is 0 to 15, else nothing, flags included. -/
def bitOp (f : Word → Word → Word) (r1 r2 : Reg) (imm : Immed) (s : State) : Host.Outcome State Fault Refusal :=
  s.unlessRefused r1 (Immed.format imm)
    (if (s.operand r2 imm).toNat ≤ 15 then
      .next (s.writeResult r1 (f (s.reg r1) (1#16 <<< (s.operand r2 imm).toNat)))
    else .next s)

/-- BTS (R131): `v | (1 << b)`. -/
def execBts (r1 r2 : Reg) (imm : Immed) (s : State) : Host.Outcome State Fault Refusal :=
  bitOp (fun v bit => v ||| bit) r1 r2 imm s

/-- BTC (R132): `v & ~(1 << b)`. -/
def execBtc (r1 r2 : Reg) (imm : Immed) (s : State) : Host.Outcome State Fault Refusal :=
  bitOp (fun v bit => v &&& ~~~bit) r1 r2 imm s

/-- BTF (R133): `v ^ (1 << b)`. -/
def execBtf (r1 r2 : Reg) (imm : Immed) (s : State) : Host.Outcome State Fault Refusal :=
  bitOp (fun v bit => v ^^^ bit) r1 r2 imm s

end Sys2Proof.Machine
end

