-- ==== Sys2Proof/Machine/Arithmetic.lean ====
section
/-! DEFINITION. ADD, SUB, MPY, DIV, MOD, NEG, CMP (spec/42_arithmetic.md). -/

namespace Sys2Proof.Machine

/-- An instruction that computes `f x[reg1] val`, writes it to reg1 and sets the flags from it (R140, R152, R163). -/
def aluOp (f : Word → Word → Word) (r1 r2 : Reg) (imm : Immed) (s : State) : Host.Outcome State Fault Refusal :=
  s.unlessRefused r1 (Immed.format imm) (.next (s.writeResult r1 (f (s.reg r1) (s.operand r2 imm))))

/-- The quotient of DIV for a divisor other than 0, narrowed to 16 bits (R144, R150; DIV_RULE). -/
def quotient : DivRule → Word → Word → Word
  | .signedTrunc, a, b => BitVec.ofInt 16 (a.toInt.tdiv b.toInt)
  | .unsigned, a, b => BitVec.ofNat 16 (a.toNat / b.toNat)

/-- The remainder of MOD for a divisor other than 0: `s(a) - q * s(b)` with DIV's exact quotient (R145; DIV_RULE). -/
def remainder : DivRule → Word → Word → Word
  | .signedTrunc, a, b => BitVec.ofInt 16 (a.toInt - a.toInt.tdiv b.toInt * b.toInt)
  | .unsigned, a, b => BitVec.ofNat 16 (a.toNat % b.toNat)

/-- DIV or MOD: a divisor of 0 raises the model fault with the instruction's address (R149; DIV_ZERO). -/
def divOp (f : Word → Word → Word) (r1 r2 : Reg) (imm : Immed) (s : State) : Host.Outcome State Fault Refusal :=
  if s.operand r2 imm = 0 then
    s.unlessRefused r1 (Immed.format imm)
      (match s.config.divZero with
      | .refuse => .fault (.divideByZero (s.instrAddress (Immed.format imm)) (s.beforeFetch (Immed.format imm)))
      | .nop => .next s)
  else aluOp f r1 r2 imm s

/-- ADD (R141). -/
def execAdd (r1 r2 : Reg) (imm : Immed) (s : State) : Host.Outcome State Fault Refusal :=
  aluOp (fun a b => a + b) r1 r2 imm s

/-- SUB (R142). -/
def execSub (r1 r2 : Reg) (imm : Immed) (s : State) : Host.Outcome State Fault Refusal :=
  aluOp (fun a b => a - b) r1 r2 imm s

/-- MPY (R143): the low 16 bits of the product. -/
def execMpy (r1 r2 : Reg) (imm : Immed) (s : State) : Host.Outcome State Fault Refusal :=
  aluOp (fun a b => a * b) r1 r2 imm s

/-- DIV (R144). -/
def execDiv (r1 r2 : Reg) (imm : Immed) (s : State) : Host.Outcome State Fault Refusal :=
  divOp (quotient s.config.divRule) r1 r2 imm s

/-- MOD (R145). -/
def execMod (r1 r2 : Reg) (imm : Immed) (s : State) : Host.Outcome State Fault Refusal :=
  divOp (remainder s.config.divRule) r1 r2 imm s

/-- NEG (R146): the same in both formats. -/
def execNeg (r1 : Reg) (fmt : Format) (s : State) : Host.Outcome State Fault Refusal :=
  s.unlessRefused r1 fmt (.next (s.writeResult r1 (0 - s.reg r1)))

/-- CMP (R147): writes the flags only. -/
def execCmp (r1 r2 : Reg) (imm : Immed) (s : State) : Host.Outcome State Fault Refusal :=
  .next (s.setFlags (Flags.ofCompare s.config.cmpRule s.config.aluFlagRule (s.reg r1) (s.operand r2 imm)))

end Sys2Proof.Machine
end

