-- ==== Sys2Proof/Machine/LogicShift.lean ====
section
/-! DEFINITION. AND, OR, XOR, SHF, ROT (spec/43_logic_shift.md). -/

namespace Sys2Proof.Machine

/-- The magnitude of a signed count. -/
def magnitude (count : Word) : Nat := count.toInt.natAbs

/-- How far SHF shifts. SHF_BIG = mod16 takes the magnitude modulo 16 and keeps the direction: DESIGN CHOICE, for D11
only names the value (log entry 34). -/
def shiftDistance : ShfBig → Word → Nat
  | .mod16, count => magnitude count % 16
  | .zero, count => magnitude count
  | .refuse, count => magnitude count

/-- SHF's result (R166): right for a count of 0 or more, left for a negative count. SHF_BIG = zero gives 0 for every
count of magnitude 16 or more, whatever SHF_FILL is: with SHF_FILL = arithmetic that is a DESIGN CHOICE, for D11 does
not define the two together (log entry 34). -/
def shifted (fill : ShfFill) (big : ShfBig) (v count : Word) : Word :=
  if big = .zero ∧ 16 ≤ magnitude count then 0
  else if 0 ≤ count.toInt then
    match fill with
    | .logical => v >>> shiftDistance big count
    | .arithmetic => v.sshiftRight (shiftDistance big count)
  else v <<< shiftDistance big count

/-- How far right ROT rotates: the signed count modulo 16 (R168, ROT_BIG). -/
def rotateDistance : RotBig → Word → Nat
  | .mod16, count => (count.toInt % 16).toNat
  | .refuse, count => (count.toInt % 16).toNat

/-- ROT's result (R168): a right rotation. -/
def rotated (big : RotBig) (v count : Word) : Word :=
  v >>> rotateDistance big count ||| v <<< (16 - rotateDistance big count)

/-- AND (R160). -/
def execAnd (r1 r2 : Reg) (imm : Immed) (s : State) : Host.Outcome State Fault Refusal :=
  aluOp (fun a b => a &&& b) r1 r2 imm s

/-- OR (R161). -/
def execOr (r1 r2 : Reg) (imm : Immed) (s : State) : Host.Outcome State Fault Refusal :=
  aluOp (fun a b => a ||| b) r1 r2 imm s

/-- XOR (R162). -/
def execXor (r1 r2 : Reg) (imm : Immed) (s : State) : Host.Outcome State Fault Refusal :=
  aluOp (fun a b => a ^^^ b) r1 r2 imm s

/-- SHF (R166); SHF_BIG may refuse a count of magnitude 16 or more. Where ALU_RZ_FLAGS refuses the destination too, the
refusal of the count is the one given: DESIGN CHOICE (log entry 16). -/
def execShf (r1 r2 : Reg) (imm : Immed) (s : State) : Host.Outcome State Fault Refusal :=
  if s.config.shfBig = .refuse ∧ 16 ≤ magnitude (s.operand r2 imm) then
    .refused (.shiftCount (s.beforeFetch (Immed.format imm)))
  else aluOp (shifted s.config.shfFill s.config.shfBig) r1 r2 imm s

/-- ROT (R168); ROT_BIG may refuse a count of magnitude 16 or more. Where ALU_RZ_FLAGS refuses the destination too, the
refusal of the count is the one given: DESIGN CHOICE (log entry 16). -/
def execRot (r1 r2 : Reg) (imm : Immed) (s : State) : Host.Outcome State Fault Refusal :=
  if s.config.rotBig = .refuse ∧ 16 ≤ magnitude (s.operand r2 imm) then
    .refused (.rotateCount (s.beforeFetch (Immed.format imm)))
  else aluOp (rotated s.config.rotBig) r1 r2 imm s

end Sys2Proof.Machine
end

