-- ==== Sys2Proof/Machine/Control.lean ====
section
/-! DEFINITION. CAL, JMP, DLY, LUP (spec/44_control.md) and the reserved encodings (R91 to R93). -/

namespace Sys2Proof.Machine

/-- The jump of opcode 21 (R184): to x[reg1] + immed when the mask takes it, else to the next instruction. -/
def State.jumpOn (s : State) (mask : Mask) (r1 : Reg) (immed : Word) : State :=
  if Mask.taken mask s.flags then s.setReg .pc (s.reg r1 + immed) else s

/-- CAL (R180): push PC, then jump; the target is read after the push (R181). -/
def execCal (r2 : Reg) (imm : Immed) (s : State) : Host.Outcome State Fault Refusal :=
  match s.push s.pc (s.beforeFetch (Immed.format imm)) with
  | .error f => .fault f
  | .ok s' => .next (s'.setReg .pc (s'.operand r2 imm))

/-- JMP (R184), with any mask. -/
def execJmp (r1 : Reg) (mask : Mask) (imm16 : Word) (s : State) : Host.Outcome State Fault Refusal :=
  .next (s.jumpOn mask r1 imm16)

/-- DLY (R188): time only, so nothing changes. -/
def execDly (_r2 : Reg) (_imm : Immed) (s : State) : Host.Outcome State Fault Refusal :=
  .next s

/-- The state after LUP's decrement of its counter (R190). -/
def State.countDown (s : State) (r1 : Reg) : State := s.setReg r1 (s.reg r1 - 1)

/-- LUP (R190): the register is tested as it then reads, and the target is read after the decrement (R191). -/
def execLup (r1 r2 : Reg) (imm : Immed) (s : State) : Host.Outcome State Fault Refusal :=
  if (s.countDown r1).reg r1 = 0 then .next (s.countDown r1)
  else .next ((s.countDown r1).setReg .pc ((s.countDown r1).operand r2 imm))

/-! ### Reserved encodings -/

/-- The outcome of a jump whose first word is `w1`, given its immediate: bit 3 is reserved (R92, JMP_BIT3). -/
def reservedJump (w1 : Word) (fmt : Format) (immed : Word) (s : State) : Host.Outcome State Fault Refusal :=
  if reservedBit w1 ∧ s.config.jmpBit3 = .refuse then .fault (.reservedEncoding (s.instrAddress fmt) w1 (s.beforeFetch fmt))
  else .next (s.jumpOn (maskField w1) (reg1Field w1) immed)

/-- Opcode 21 with T = 1 (R91, JMP_TEENY). The reading `immed4` widens bits 3:0 like any 4-bit immediate, by
TEENY_IMM_EXT: R91 and D2 write it sext_16(imm4), as R85 does there, and do not say what it is under
TEENY_IMM_EXT = zext, so that combination is a DESIGN CHOICE (log entry 2). -/
def execReservedJmpOneWord (w1 : Word) (s : State) : Host.Outcome State Fault Refusal :=
  match s.config.jmpTeeny with
  | .refuse => .fault (.reservedEncoding (s.instrAddress .w1) w1 (s.beforeFetch .w1))
  | .immed0 => reservedJump w1 .w1 0 s
  | .immed4 => reservedJump w1 .w1 ((s.immed (.teeny (imm4Field w1)))) s

/-- Opcode 21 with T = 0 and bit 3 set (R92, JMP_BIT3). -/
def execReservedJmpBit3 (w1 imm16 : Word) (s : State) : Host.Outcome State Fault Refusal :=
  match s.config.jmpBit3 with
  | .refuse => .fault (.reservedEncoding (s.instrAddress .w2) w1 (s.beforeFetch .w2))
  | .ignore => .next (s.jumpOn (maskField w1) (reg1Field w1) imm16)

/-- Opcodes 24 to 31 (R93, ILLEGAL_OPCODE). -/
def execUndefinedOpcode (w1 : Word) (s : State) : Host.Outcome State Fault Refusal :=
  match s.config.illegalOpcode with
  | .refuse => .fault (.illegalOpcode (s.instrAddress (formatOf w1)) w1 (s.beforeFetch (formatOf w1)))
  | .nop => .next s

end Sys2Proof.Machine
end

