-- ==== Sys2Proof/Machine/DataMovement.lean ====
section
/-! DEFINITION. SET, LOD, STR, PSH, POP (spec/40_data_movement.md). PC is already past the instruction (R24). -/

namespace Sys2Proof.Machine

/-- SET (R110). -/
def execSet (r1 r2 : Reg) (imm : Immed) (s : State) : Host.Outcome State Fault Refusal :=
  .next (s.setReg r1 (s.operand r2 imm))

/-- LOD (R112): the read happens whatever the destination (R113). -/
def execLod (r1 r2 : Reg) (imm : Immed) (s : State) : Host.Outcome State Fault Refusal :=
  .next ((s.memRead (s.operand r2 imm)).2.setReg r1 (s.memRead (s.operand r2 imm)).1)

/-- STR (R114): the address is formed from reg1, the data is reg2. -/
def execStr (r1 r2 : Reg) (imm : Immed) (s : State) : Host.Outcome State Fault Refusal :=
  .next (s.memWrite (s.operand r1 imm) (s.reg r2))

/-- PSH (R116). -/
def execPsh (r2 : Reg) (imm : Immed) (s : State) : Host.Outcome State Fault Refusal :=
  outcomeOf (s.push (s.operand r2 imm) (s.beforeFetch (Immed.format imm)))

/-- POP (R118): the same in both formats (R119). -/
def execPop (r1 : Reg) (fmt : Format) (s : State) : Host.Outcome State Fault Refusal :=
  outcomeOf (s.popInto r1 (s.beforeFetch fmt))

end Sys2Proof.Machine
end

