-- ==== Sys2Proof/Machine/Pseudo.lean ====
section
/-! DEFINITION. The pseudo-instructions (spec/45_pseudo.md): each is the real instruction it stands for. -/

namespace Sys2Proof.Machine

/-- INC (R200): ADD register1, rZ + 1. -/
def execInc (r1 : Reg) (s : State) : Host.Outcome State Fault Refusal :=
  aluOp (fun a b => a + b) r1 .rZ (.teeny 1) s

/-- DEC (R201): SUB register1, rZ + 1. -/
def execDec (r1 : Reg) (s : State) : Host.Outcome State Fault Refusal :=
  aluOp (fun a b => a - b) r1 .rZ (.teeny 1) s

/-- RET (R202): POP PC. -/
def execRet (s : State) : Host.Outcome State Fault Refusal :=
  outcomeOf (s.popInto .pc (s.beforeFetch .w1))

/-- JE (R203). -/
def execJe (r1 : Reg) (imm16 : Word) (s : State) : Host.Outcome State Fault Refusal :=
  .next (s.jumpOn ⟨true, false, false⟩ r1 imm16)

/-- JNE (R204). -/
def execJne (r1 : Reg) (imm16 : Word) (s : State) : Host.Outcome State Fault Refusal :=
  .next (s.jumpOn ⟨false, true, true⟩ r1 imm16)

/-- JL (R205). -/
def execJl (r1 : Reg) (imm16 : Word) (s : State) : Host.Outcome State Fault Refusal :=
  .next (s.jumpOn ⟨false, true, false⟩ r1 imm16)

/-- JLE (R206). -/
def execJle (r1 : Reg) (imm16 : Word) (s : State) : Host.Outcome State Fault Refusal :=
  .next (s.jumpOn ⟨true, true, false⟩ r1 imm16)

/-- JG (R207; the mask of 90_conflicts.md C3). -/
def execJg (r1 : Reg) (imm16 : Word) (s : State) : Host.Outcome State Fault Refusal :=
  .next (s.jumpOn ⟨false, false, true⟩ r1 imm16)

/-- JGE (R208; the mask of 90_conflicts.md C3). -/
def execJge (r1 : Reg) (imm16 : Word) (s : State) : Host.Outcome State Fault Refusal :=
  .next (s.jumpOn ⟨true, false, true⟩ r1 imm16)

end Sys2Proof.Machine
end

