-- ==== Sys2Proof/Machine/Dispatch.lean ====
section
/-! DEFINITION. One arm per constructor of `Instr`: the meaning it calls. -/

namespace Sys2Proof.Machine

/-- The outcome of an instruction on the state after its fetch (R88, last line). -/
def exec (i : Instr) (s : State) : Host.Outcome State Fault Refusal :=
  match i with
  | .set r1 r2 imm => Sys2Proof.Machine.execSet r1 r2 imm s
  | .lod r1 r2 imm => Sys2Proof.Machine.execLod r1 r2 imm s
  | .str r1 r2 imm => Sys2Proof.Machine.execStr r1 r2 imm s
  | .psh r2 imm => Sys2Proof.Machine.execPsh r2 imm s
  | .pop r1 fmt => Sys2Proof.Machine.execPop r1 fmt s
  | .bts r1 r2 imm => Sys2Proof.Machine.execBts r1 r2 imm s
  | .btc r1 r2 imm => Sys2Proof.Machine.execBtc r1 r2 imm s
  | .btf r1 r2 imm => Sys2Proof.Machine.execBtf r1 r2 imm s
  | .cal r2 imm => Sys2Proof.Machine.execCal r2 imm s
  | .add r1 r2 imm => Sys2Proof.Machine.execAdd r1 r2 imm s
  | .sub r1 r2 imm => Sys2Proof.Machine.execSub r1 r2 imm s
  | .mpy r1 r2 imm => Sys2Proof.Machine.execMpy r1 r2 imm s
  | .div r1 r2 imm => Sys2Proof.Machine.execDiv r1 r2 imm s
  | .mod r1 r2 imm => Sys2Proof.Machine.execMod r1 r2 imm s
  | .and r1 r2 imm => Sys2Proof.Machine.execAnd r1 r2 imm s
  | .or r1 r2 imm => Sys2Proof.Machine.execOr r1 r2 imm s
  | .xor r1 r2 imm => Sys2Proof.Machine.execXor r1 r2 imm s
  | .shf r1 r2 imm => Sys2Proof.Machine.execShf r1 r2 imm s
  | .rot r1 r2 imm => Sys2Proof.Machine.execRot r1 r2 imm s
  | .neg r1 fmt => Sys2Proof.Machine.execNeg r1 fmt s
  | .cmp r1 r2 imm => Sys2Proof.Machine.execCmp r1 r2 imm s
  | .jmp r1 mask imm16 => Sys2Proof.Machine.execJmp r1 mask imm16 s
  | .dly r2 imm => Sys2Proof.Machine.execDly r2 imm s
  | .lup r1 r2 imm => Sys2Proof.Machine.execLup r1 r2 imm s
  | .reservedJmpOneWord w1 => Sys2Proof.Machine.execReservedJmpOneWord w1 s
  | .reservedJmpBit3 w1 imm16 => Sys2Proof.Machine.execReservedJmpBit3 w1 imm16 s
  | .undefinedOpcode w1 => Sys2Proof.Machine.execUndefinedOpcode w1 s
  | .inc r1 => Sys2Proof.Machine.execInc r1 s
  | .dec r1 => Sys2Proof.Machine.execDec r1 s
  | .ret => Sys2Proof.Machine.execRet s
  | .je r1 imm16 => Sys2Proof.Machine.execJe r1 imm16 s
  | .jne r1 imm16 => Sys2Proof.Machine.execJne r1 imm16 s
  | .jl r1 imm16 => Sys2Proof.Machine.execJl r1 imm16 s
  | .jle r1 imm16 => Sys2Proof.Machine.execJle r1 imm16 s
  | .jg r1 imm16 => Sys2Proof.Machine.execJg r1 imm16 s
  | .jge r1 imm16 => Sys2Proof.Machine.execJge r1 imm16 s

end Sys2Proof.Machine
end

