-- ==== Sys2Proof/Machine/Initialised.lean ====
section
/-! DEFINITION. What an instruction reads whose reset value is unspecified (R34), for the sixth model fault that R222
lets a model add: UninitialisedRead. It is raised only where RESET_GPR, RESET_FLAGS or RAM_FILL is `fault`; which reads
count, and that they are checked before the instruction runs, are DESIGN CHOICES (log entry 35). -/

namespace Sys2Proof.Machine

/-- A read of this would raise UninitialisedRead: its parameter is `fault` and nothing has written it. -/
def State.unset (s : State) : ReadSource → Bool
  | .reg r => s.config.resetGpr == .fault && s.unwritten.contains r
  | .flags => s.config.resetFlags == .fault && s.flagsUnwritten
  | .ram a => s.config.ramFill == .fault && decide (InRam a) && (s.ram.read a.toNat).isNone

/-- The words a step fetches; a second word only when there is one in RAM (R88, R90). -/
def State.fetchReads (s : State) : List ReadSource :=
  .ram s.fetchAddress :: (if teenyBit s.firstFetched then [] else [.ram (s.fetchAddress + 1)])

/-- What a jump reads: the flags unless its mask is empty, and its register when it is taken (R184). -/
def State.jumpReads (s : State) (mask : Mask) (r1 : Reg) : List ReadSource :=
  (if mask.e || mask.l || mask.g then [.flags] else []) ++ (if Mask.taken mask s.flags then [.reg r1] else [])

/-- What an instruction reads, the registers of an operand or address first. -/
def State.instrReads (s : State) : Instr → List ReadSource
  | .set _ r2 _ => [.reg r2]
  | .lod _ r2 imm => [.reg r2, .ram (s.operand r2 imm)]
  | .str r1 r2 _ => [.reg r1, .reg r2]
  | .psh r2 _ => [.reg r2]
  | .pop _ _ => [.ram (s.sp + 1)]
  | .bts r1 r2 imm => [.reg r2] ++ (if (s.operand r2 imm).toNat ≤ 15 then [.reg r1] else [])
  | .btc r1 r2 imm => [.reg r2] ++ (if (s.operand r2 imm).toNat ≤ 15 then [.reg r1] else [])
  | .btf r1 r2 imm => [.reg r2] ++ (if (s.operand r2 imm).toNat ≤ 15 then [.reg r1] else [])
  | .cal r2 _ => [.reg r2]
  | .add r1 r2 _ => [.reg r1, .reg r2]
  | .sub r1 r2 _ => [.reg r1, .reg r2]
  | .mpy r1 r2 _ => [.reg r1, .reg r2]
  | .div r1 r2 _ => [.reg r1, .reg r2]
  | .mod r1 r2 _ => [.reg r1, .reg r2]
  | .and r1 r2 _ => [.reg r1, .reg r2]
  | .or r1 r2 _ => [.reg r1, .reg r2]
  | .xor r1 r2 _ => [.reg r1, .reg r2]
  | .shf r1 r2 _ => [.reg r1, .reg r2]
  | .rot r1 r2 _ => [.reg r1, .reg r2]
  | .neg r1 _ => [.reg r1]
  | .cmp r1 r2 _ => [.reg r1, .reg r2]
  | .jmp r1 mask _ => s.jumpReads mask r1
  | .dly r2 _ => [.reg r2]
  | .lup r1 r2 _ => [.reg r1] ++ (if (s.countDown r1).reg r1 = 0 then [] else [.reg r2])
  | .reservedJmpOneWord w1 =>
    if s.config.jmpTeeny = .refuse ∨ reservedBit w1 ∧ s.config.jmpBit3 = .refuse then []
    else s.jumpReads (maskField w1) (reg1Field w1)
  | .reservedJmpBit3 w1 _ =>
    if s.config.jmpBit3 = .refuse then [] else s.jumpReads (maskField w1) (reg1Field w1)
  | .undefinedOpcode _ => []
  | .inc r1 => [.reg r1]
  | .dec r1 => [.reg r1]
  | .ret => [.ram (s.sp + 1)]
  | .je r1 _ => s.jumpReads ⟨true, false, false⟩ r1
  | .jne r1 _ => s.jumpReads ⟨false, true, true⟩ r1
  | .jl r1 _ => s.jumpReads ⟨false, true, false⟩ r1
  | .jle r1 _ => s.jumpReads ⟨true, true, false⟩ r1
  | .jg r1 _ => s.jumpReads ⟨false, false, true⟩ r1
  | .jge r1 _ => s.jumpReads ⟨true, false, true⟩ r1

/-- The outcome `o`, unless one of the reads `l` is unset: then UninitialisedRead of the first, leaving `before`. -/
def State.unlessUnset (s : State) (l : List ReadSource) (before : State) (o : Host.Outcome State Fault Refusal) :
    Host.Outcome State Fault Refusal :=
  match l.find? s.unset with
  | some source => .fault (.uninitialisedRead source before)
  | none => o

end Sys2Proof.Machine
end

