-- ==== Sys2Proof/Machine/Step.lean ====
section
/-! DEFINITION. One step of the machine (R88), and placing an instruction where the next step fetches. -/

namespace Sys2Proof.Machine

/-- One step (R88): fetch (at 0x0000 when PC is outside RAM, R27), advance PC, execute. -/
def step (s : State) : Host.Outcome State Fault Refusal :=
  s.unlessUnset s.fetchReads s.atFetch
    (if s.straddles then s.straddleOutcome
    else s.afterFetch.unlessUnset (s.afterFetch.instrReads s.fetched) s.atFetch (exec s.fetched s.afterFetch))

/-- `s` with an instruction of the opcode table stored where the next step fetches: the first word at the fetch
address and, when T = 0, the second word after it. A two-word instruction has no room at 0x7FFF (R90), so there it goes
to 0x0000 and PC with it. It stands for the host's loading of an image (log entry 22). -/
def State.withFetchWord (s : State) (nbits w : Nat) : State :=
  if teenyBit (tableWords nbits w).1 then s.setRamWord s.fetchAddress (tableWords nbits w).1
  else if s.fetchAddress = 0x7FFF then
    ((s.setReg .pc 0x0000).setRamWord 0x0000 (tableWords nbits w).1).setRamWord 0x0001 (tableWords nbits w).2
  else (s.setRamWord s.fetchAddress (tableWords nbits w).1).setRamWord (s.fetchAddress + 1) (tableWords nbits w).2

end Sys2Proof.Machine
end

