-- ==== Sys2Proof/Safety.lean ====
section
/-! DEFINITION. What counts as a safe run, and the terms the claims are written in. -/

namespace Sys2Proof.Machine

/-! ### Frames -/

/-- Every register reads as before but `r1`, which reads `v`; nothing is written when `r1` is rZ (R22). -/
def WritesReg (r1 : Reg) (v : Word) (s t : State) : Prop :=
  ∀ r, t.reg r = if r = r1 ∧ r ≠ .rZ then v else s.reg r

/-- Every register reads as before. -/
def SameRegs (s t : State) : Prop := ∀ r, t.reg r = s.reg r

/-- Every register but PC reads as before, and PC reads `v`. -/
def MovesPc (v : Word) (s t : State) : Prop := ∀ r, t.reg r = if r = .pc then v else s.reg r

/-- The RAM word at every address reads as before. -/
def SameRam (s t : State) : Prop := ∀ a, t.ramWord a = s.ramWord a

/-- The RAM word at `addr` reads `v`; the one at every other address reads as before. -/
def WritesRam (addr v : Word) (s t : State) : Prop := ∀ a, t.ramWord a = if a = addr then v else s.ramWord a

/-- No bus callback was made (R231, R232). -/
def SameBus (s t : State) : Prop := t.busLog = s.busLog ∧ t.hostAnswers = s.hostAnswers

/-- The three flags are those of the comparison of two integers (R28). -/
def FlagsCompare (a b : Int) (f : Flags) : Prop :=
  (f.e = true ↔ a = b) ∧ (f.l = true ↔ a < b) ∧ (f.g = true ↔ b < a)

/-- The value a flag writer with destination `r1` and result `v` sets the flags from: `v`, or 0 for the destination rZ
where ALU_RZ_FLAGS = stored (R32). -/
def State.flagValue (s : State) (r1 : Reg) (v : Word) : Word :=
  if s.config.aluRzFlags = .stored ∧ r1 = .rZ then 0 else v

/-- ALU_RZ_FLAGS does not refuse the destination `r1` (R32, U10). It refuses none by default. -/
def State.accepts (s : State) (r1 : Reg) : Prop := r1 = .rZ → s.config.aluRzFlags ≠ .refuse

/-- The whole effect of a flag-writing instruction with destination `r1` and result `v`: the register, the flags from
the result against 0 as a signed number (R30, R32), and nothing else. -/
def AluEffect (r1 : Reg) (v : Word) (s t : State) : Prop :=
  WritesReg r1 v s t ∧ FlagsCompare (s.flagValue r1 v).toInt 0 t.flags ∧ SameRam s t ∧ SameBus s t

/-! ### Invariants -/

/-- The address of a bus event. -/
def BusEvent.addr : BusEvent → Word
  | .read a _ => a
  | .write a _ => a

/-- At most one of E, L, G is set. -/
def Flags.atMostOne (f : Flags) : Bool := !(f.e && f.l) && !(f.e && f.g) && !(f.l && f.g)

/-- Exactly one of E, L, G is set (R30). -/
def Flags.exactlyOne (f : Flags) : Bool := f.atMostOne && (f.e || f.l || f.g)

/-- The invariant of the machine: RAM is in its canonical form, within 0x0000 to 0x7FFF (R50); at most one flag is set
(R30; log entry 17 for reset); every bus callback was made above 0x7FFF (R56, R57). -/
def State.Inv (s : State) : Prop :=
  s.ram.wf = true ∧ s.flags.atMostOne = true ∧ ∀ e ∈ s.busLog, ¬InRam (BusEvent.addr e)

/-! ### Parameters -/

/-- No parameter is `fault`, so no read raises UninitialisedRead (R222). -/
def Config.noUnsetFault (c : Config) : Prop :=
  c.resetGpr ≠ .fault ∧ c.resetFlags ≠ .fault ∧ c.ramFill ≠ .fault

/-! ### Faults -/

/-- The state a model fault leaves (R223). -/
def Fault.before : Fault → State
  | .fetchStraddle _ s => s
  | .illegalOpcode _ _ s => s
  | .reservedEncoding _ _ s => s
  | .stackOutOfRam _ s => s
  | .divideByZero _ s => s
  | .uninitialisedRead _ s => s

/-- The state a refusal leaves, if it carries one. -/
def Refusal.before : Refusal → Option State
  | .shiftCount s => some s
  | .rotateCount s => some s
  | .zeroDestination s => some s
  | _ => none

/-- A model fault with another state for the one it leaves. -/
def Fault.withBefore (s : State) : Fault → Fault
  | .fetchStraddle a _ => .fetchStraddle a s
  | .illegalOpcode a w1 _ => .illegalOpcode a w1 s
  | .reservedEncoding a w1 _ => .reservedEncoding a w1 s
  | .stackOutOfRam addr _ => .stackOutOfRam addr s
  | .divideByZero a _ => .divideByZero a s
  | .uninitialisedRead source _ => .uninitialisedRead source s

/-! ### Classes of instructions -/

/-- The instructions whose "Flags:" line is Eqls,Less,Grtr (R29), INC and DEC among them. -/
def Instr.writesFlags : Instr → Bool
  | .bts .. | .btc .. | .btf .. | .add .. | .sub .. | .mpy .. | .div .. | .mod .. | .and .. | .or .. | .xor ..
  | .shf .. | .rot .. | .neg .. | .cmp .. | .inc .. | .dec .. => true
  | .set .. | .lod .. | .str .. | .psh .. | .pop .. | .cal .. | .jmp .. | .dly .. | .lup .. | .ret | .je .. | .jne ..
  | .jl .. | .jle .. | .jg .. | .jge .. => false
  | .reservedJmpOneWord .. | .reservedJmpBit3 .. | .undefinedOpcode .. => false

/-- BTS, BTC, BTF, which write no flag when the bit number is out of range (R130). -/
def Instr.isBitOp : Instr → Bool
  | .bts .. | .btc .. | .btf .. => true
  | _ => false

/-- The JMP family, the only reader of the flags (R29). -/
def Instr.readsFlags : Instr → Bool
  | .jmp .. | .je .. | .jne .. | .jl .. | .jle .. | .jg .. | .jge .. => true
  | _ => false

/-- LOD and STR, the only instructions that reach the bus (R50). -/
def Instr.reachesBus : Instr → Bool
  | .lod .. | .str .. => true
  | _ => false

/-- STR, PSH and CAL, the only instructions that write RAM (R60). -/
def Instr.writesRam : Instr → Bool
  | .str .. | .psh .. | .cal .. => true
  | _ => false

/-! ### Runs -/

/-- The model fault of a step from `s` under the default parameters, if it has one: the checks of R222 in the order
of R223, with the state R223 says it leaves. -/
def State.modelFault (s : State) : Option Fault :=
  if teenyBit s.firstFetched = false ∧ s.fetchAddress = 0x7FFF then some (.fetchStraddle s.fetchAddress s.atFetch)
  else if 23 < opcodeField s.firstFetched then
    some (.illegalOpcode s.fetchAddress s.firstFetched s.atFetch)
  else if opcodeField s.firstFetched = 21 ∧ (teenyBit s.firstFetched = true ∨ reservedBit s.firstFetched = true) then
    some (.reservedEncoding s.fetchAddress s.firstFetched s.atFetch)
  else if (opcodeField s.firstFetched = 3 ∨ opcodeField s.firstFetched = 8) ∧ ¬InRam s.sp then
    some (.stackOutOfRam s.sp s.atFetch)
  else if opcodeField s.firstFetched = 4 ∧ ¬InRam (s.sp + 1) then
    some (.stackOutOfRam (s.sp + 1) s.atFetch)
  else if (opcodeField s.firstFetched = 12 ∨ opcodeField s.firstFetched = 13) ∧
      s.afterFetch.operand (reg2Field s.firstFetched) (immedOf s.firstFetched s.secondFetched) = 0 then
    some (.divideByZero s.fetchAddress s.atFetch)
  else none

/-- The run has ended (R234, R258): the instruction at PC is an unconditional two-word JMP to itself. -/
def State.finished (s : State) : Bool :=
  decide (s.pc.toNat < 0x7FFF) && s.ramWord s.pc == 0xA800 && s.ramWord (s.pc + 1) == s.pc

/-- A step from `s` completes: no model fault and no refusal (R222: a faulted run is never a finished run). -/
def State.safe (s : State) : Prop := ∃ t, step s = .next t

end Sys2Proof.Machine
end

