-- ==== Sys2Proof/Certificates/Slice0/Obligations.lean ====
section
/-! DEFINITION. The statements for the provers. `exec` is stated on the state after the fetch, where PC already holds
the address of the next instruction (R24). A statement says of each decision of the spec that it rests on which one it
is (the D numbers are those of spec/92_eei_decisions.md). -/

open Sys2Proof Sys2Proof.Machine

/-- A first word with the value R80 gives reads back every field R80 gives it. R80. -/
def Obligations.FirstWordFieldsReadBack : Prop :=
  ∀ op t a b i : Nat, op < 32 → t < 2 → a < 8 → b < 8 → i < 16 →
    ∀ w : Word, w = BitVec.ofNat 16 (op * 2048 + t * 1024 + a * 128 + b * 16 + i) →
      opcodeField w = op ∧ (teenyBit w = true ↔ t = 1) ∧ (reg1Field w).field = BitVec.ofNat 3 a ∧
      (reg2Field w).field = BitVec.ofNat 3 b ∧ imm4Field w = BitVec.ofNat 4 i ∧
      (reservedBit w = true ↔ i / 8 % 2 = 1) ∧ ((maskField w).e = true ↔ i / 4 % 2 = 1) ∧
      ((maskField w).l = true ↔ i / 2 % 2 = 1) ∧ ((maskField w).g = true ↔ i % 2 = 1)

/-- Decoding the words of any well-formed instruction gives it back, with the words after it. R80 to R87 and R200 to R208. One spelling per word: the model's choice, log entry 23. -/
def Obligations.DecodeOfEncodeIsIdentity : Prop :=
  ∀ (i : Instr) (rest : List Word), WellFormed i = true → decode (encode i ++ rest) = .ok (i, rest)

/-- Every first and second word decode to a well-formed instruction, the one that the opcode map gives with its fields. R84, R85, R87, R91 to R93, R200 to R208; the spellings are the model's choice, log entry 23, the reserved classes the spec's decisions D2, D4, D13. -/
def Obligations.DecodedInstructionIsWellFormed : Prop :=
  ∀ w1 w2 : Word, WellFormed (decodeWords w1 w2) = true ∧
    (opcodeField w1 = 0 → decodeWords w1 w2 = .set (reg1Field w1) (reg2Field w1) (immedOf w1 w2)) ∧
    (opcodeField w1 = 1 → decodeWords w1 w2 = .lod (reg1Field w1) (reg2Field w1) (immedOf w1 w2)) ∧
    (opcodeField w1 = 2 → decodeWords w1 w2 = .str (reg1Field w1) (reg2Field w1) (immedOf w1 w2)) ∧
    (opcodeField w1 = 3 → decodeWords w1 w2 = .psh (reg2Field w1) (immedOf w1 w2)) ∧
    (opcodeField w1 = 4 → decodeWords w1 w2 =
      if reg1Field w1 = .pc ∧ teenyBit w1 = true then .ret else .pop (reg1Field w1) (formatOf w1)) ∧
    (opcodeField w1 = 5 → decodeWords w1 w2 = .bts (reg1Field w1) (reg2Field w1) (immedOf w1 w2)) ∧
    (opcodeField w1 = 6 → decodeWords w1 w2 = .btc (reg1Field w1) (reg2Field w1) (immedOf w1 w2)) ∧
    (opcodeField w1 = 7 → decodeWords w1 w2 = .btf (reg1Field w1) (reg2Field w1) (immedOf w1 w2)) ∧
    (opcodeField w1 = 8 → decodeWords w1 w2 = .cal (reg2Field w1) (immedOf w1 w2)) ∧
    (opcodeField w1 = 9 → decodeWords w1 w2 =
      if reg2Field w1 = .rZ ∧ teenyBit w1 = true ∧ imm4Field w1 = 1 then .inc (reg1Field w1)
      else .add (reg1Field w1) (reg2Field w1) (immedOf w1 w2)) ∧
    (opcodeField w1 = 10 → decodeWords w1 w2 =
      if reg2Field w1 = .rZ ∧ teenyBit w1 = true ∧ imm4Field w1 = 1 then .dec (reg1Field w1)
      else .sub (reg1Field w1) (reg2Field w1) (immedOf w1 w2)) ∧
    (opcodeField w1 = 11 → decodeWords w1 w2 = .mpy (reg1Field w1) (reg2Field w1) (immedOf w1 w2)) ∧
    (opcodeField w1 = 12 → decodeWords w1 w2 = .div (reg1Field w1) (reg2Field w1) (immedOf w1 w2)) ∧
    (opcodeField w1 = 13 → decodeWords w1 w2 = .mod (reg1Field w1) (reg2Field w1) (immedOf w1 w2)) ∧
    (opcodeField w1 = 14 → decodeWords w1 w2 = .and (reg1Field w1) (reg2Field w1) (immedOf w1 w2)) ∧
    (opcodeField w1 = 15 → decodeWords w1 w2 = .or (reg1Field w1) (reg2Field w1) (immedOf w1 w2)) ∧
    (opcodeField w1 = 16 → decodeWords w1 w2 = .xor (reg1Field w1) (reg2Field w1) (immedOf w1 w2)) ∧
    (opcodeField w1 = 17 → decodeWords w1 w2 = .shf (reg1Field w1) (reg2Field w1) (immedOf w1 w2)) ∧
    (opcodeField w1 = 18 → decodeWords w1 w2 = .rot (reg1Field w1) (reg2Field w1) (immedOf w1 w2)) ∧
    (opcodeField w1 = 19 → decodeWords w1 w2 = .neg (reg1Field w1) (formatOf w1)) ∧
    (opcodeField w1 = 20 → decodeWords w1 w2 = .cmp (reg1Field w1) (reg2Field w1) (immedOf w1 w2)) ∧
    (opcodeField w1 = 21 → teenyBit w1 = true → decodeWords w1 w2 = .reservedJmpOneWord w1) ∧
    (opcodeField w1 = 21 → teenyBit w1 = false →
      (imm4Field w1 = 0b0000 → decodeWords w1 w2 = .jmp (reg1Field w1) ⟨false, false, false⟩ w2) ∧
      (imm4Field w1 = 0b0001 → decodeWords w1 w2 = .jg (reg1Field w1) w2) ∧
      (imm4Field w1 = 0b0010 → decodeWords w1 w2 = .jl (reg1Field w1) w2) ∧
      (imm4Field w1 = 0b0011 → decodeWords w1 w2 = .jne (reg1Field w1) w2) ∧
      (imm4Field w1 = 0b0100 → decodeWords w1 w2 = .je (reg1Field w1) w2) ∧
      (imm4Field w1 = 0b0101 → decodeWords w1 w2 = .jge (reg1Field w1) w2) ∧
      (imm4Field w1 = 0b0110 → decodeWords w1 w2 = .jle (reg1Field w1) w2) ∧
      (imm4Field w1 = 0b0111 → decodeWords w1 w2 = .jmp (reg1Field w1) ⟨true, true, true⟩ w2) ∧
      (8 ≤ (imm4Field w1).toNat → decodeWords w1 w2 = .reservedJmpBit3 w1 w2)) ∧
    (opcodeField w1 = 22 → decodeWords w1 w2 = .dly (reg2Field w1) (immedOf w1 w2)) ∧
    (opcodeField w1 = 23 → decodeWords w1 w2 = .lup (reg1Field w1) (reg2Field w1) (immedOf w1 w2)) ∧
    (23 < opcodeField w1 → decodeWords w1 w2 = .undefinedOpcode w1)

/-- Words that differ only in fields their opcode does not use decode to the same instruction (decision D14). The rule of unused fields of 30_encoding.md section 4; it is the spec's decision D14. -/
def Obligations.UnusedFieldsAreIgnored : Prop :=
  ∀ w1 v1 w2 v2 : Word,
    (teenyBit w1 = true → decodeWords w1 w2 = decodeWords w1 v2) ∧
    ((opcodeField w1 = 4 ∨ opcodeField w1 = 19) → w1.extractLsb' 7 9 = v1.extractLsb' 7 9 →
      decodeWords w1 w2 = decodeWords v1 v2) ∧
    ((opcodeField w1 = 3 ∨ opcodeField w1 = 8 ∨ opcodeField w1 = 22) → w1.extractLsb' 10 6 = v1.extractLsb' 10 6 →
      w1.extractLsb' 0 7 = v1.extractLsb' 0 7 → decodeWords w1 w2 = decodeWords v1 w2) ∧
    (opcodeField w1 = 21 → reservedBit w1 = false → teenyBit w1 = false → w1.extractLsb' 7 9 = v1.extractLsb' 7 9 →
      w1.extractLsb' 0 4 = v1.extractLsb' 0 4 → decodeWords w1 w2 = decodeWords v1 w2) ∧
    (opcodeField w1 ≤ 23 → opcodeField w1 ≠ 21 → teenyBit w1 = false → w1.extractLsb' 4 12 = v1.extractLsb' 4 12 →
      decodeWords w1 w2 = decodeWords v1 w2)

/-- Words written out from the encoding decode to the instructions they stand for. Sanity: example S1 and the encodings of the vectors. -/
def Obligations.DecodeOfWordsWrittenOut : Prop :=
  decodeWords 0x0480 0 = .set .pc .rZ (.teeny 0) ∧ decodeWords 0x1040 0x9000 = .str .rZ .rB (.wide 0x9000) ∧
    decodeWords 0x2D8F 0 = .bts .rA .rZ (.teeny 15) ∧ decodeWords 0x65C0 0 = .div .rA .rB (.teeny 0) ∧
    decodeWords 0x8D8C 0 = .shf .rA .rZ (.teeny 12) ∧ decodeWords 0xA807 0x0100 = .jmp .rZ ⟨true, true, true⟩ 0x0100 ∧
    decodeWords 0xBDC1 0 = .lup .rA .rB (.teeny 1) ∧ decodeWords 0x2480 0 = .ret ∧
    decodeWords 0xA805 0x0008 = .jge .rZ 0x0008 ∧ decodeWords 0xAC00 0 = .reservedJmpOneWord 0xAC00 ∧
    decodeWords 0xA808 0x0100 = .reservedJmpBit3 0xA808 0x0100 ∧ decodeWords 0xC400 0 = .undefinedOpcode 0xC400

/-- 0x0480 has opcode 0, T = 1, reg1 = PC, reg2 = rZ, imm4 = 0, decodes to SET PC, rZ + 0 and sets PC to 0. R95. -/
def Obligations.ManualsDecodedWordSetsPcToZero : Prop :=
  opcodeField 0x0480 = 0 ∧ teenyBit 0x0480 = true ∧ reg1Field 0x0480 = .pc ∧ reg2Field 0x0480 = .rZ ∧
    imm4Field 0x0480 = 0 ∧ (∀ w2 : Word, decodeWords 0x0480 w2 = .set .pc .rZ (.teeny 0)) ∧
    ∀ s : State, ∃ t, exec (decodeWords 0x0480 0) s = .next t ∧ t.pc = 0x0000

/-- A step executes what it fetched at PC with PC = PC + 2 - T, for every opcode. R25 (the case it leaves to R90 is excluded). RESET_GPR, RESET_FLAGS, RAM_FILL are not `fault`, as by default. -/
def Obligations.FetchAdvancesPcByTwoMinusT : Prop :=
  ∀ (s : State) (t : Word), Config.noUnsetFault s.config → InRam s.pc → t = (if teenyBit (s.ramWord s.pc) then 1 else 0) →
    ¬(t = 0 ∧ s.pc = 0x7FFF) →
    step s = exec (decodeWords (s.ramWord s.pc) (s.ramWord (s.pc + 1))) (s.setReg .pc (s.pc + 2 - t))

/-- When the words at PC are the words of a well-formed instruction, the step is exec of it, PC moved past them. R88. RESET_GPR, RESET_FLAGS, RAM_FILL are not `fault`, as by default. -/
def Obligations.StepRunsTheDecodedInstruction : Prop :=
  ∀ (s : State) (i : Instr) (ws : List Word), Config.noUnsetFault s.config → WellFormed i = true → decode ws = .ok (i, []) →
    s.pc.toNat + ws.length ≤ 0x8000 →
    (∀ k : Nat, k < ws.length → ws[k]? = some (s.ramWord (s.pc + BitVec.ofNat 16 k))) →
    step s = exec i (s.setReg .pc (s.pc + BitVec.ofNat 16 ws.length))

/-- A step with PC above 0x7FFF is the step from the same state with PC = 0x0000. The PC reset of a fetch outside RAM; one step: the spec's decision D33. -/
def Obligations.FetchOutsideRamRestartsAtZero : Prop :=
  ∀ s : State, ¬InRam s.pc → step s = step (s.setReg .pc 0x0000)

/-- By default a step raises exactly the model fault the checks give, with its information; without one it completes. R222, R223 under the default parameters: the spec's decisions, log entries 2, 3, 7, 10, 11, 12. -/
def Obligations.StepStopsExactlyOnTheModelFaults : Prop :=
  ∀ s : State, s.config = parameters → (∀ f, step s = .fault f ↔ s.modelFault = some f) ∧
    (s.modelFault = none → ∃ t, step s = .next t) ∧ ∀ r, step s ≠ .refused r

/-- Every step keeps: RAM canonical and within 0x7FFF, at most one flag set, bus callbacks only above 0x7FFF. R50, R56, R57; the flags by R30 (the spec's decisions D5, D6). -/
def Obligations.StepKeepsTheInvariant : Prop :=
  ∀ s t : State, s.Inv → step s = .next t → t.Inv

/-- State.reset, and every initial state with at most one flag set and any image loaded, meet the invariant. R34, R250, R251; the values at State.reset are the model's choice, log entry 17. -/
def Obligations.InitialStatesMeetTheInvariant : Prop :=
  State.reset.Inv ∧ ∀ (p : Config) (a b c d e : Word) (f : Flags) (image : List Word) (t : State),
    f.atMostOne = true → (State.initial p a b c d e f).loadImage image = some t → t.Inv

/-- After reset pc = 0, sp = 0x7FFF, rZ = 0, RAM[0..n-1] is the image, the rest as unspecified, and the fetch is at 0. R250, with what the spec leaves unspecified quantified over. The zero and fixed values are the spec's decisions D17, D18, log entries 17, 18; that the state carries the parameters is the model's choice, log entry 15. -/
def Obligations.ResetHoldsTheImageAndTheStatedValues : Prop :=
  ∀ (p : Config) (a b c d e : Word) (f : Flags) (image : List Word), image.length ≤ 32768 →
    ∃ t, (State.initial p a b c d e f).loadImage image = some t ∧ t.pc = 0x0000 ∧ t.sp = 0x7FFF ∧ t.reg .rZ = 0 ∧
      (p.resetGpr ≠ .zero → t.rA = a ∧ t.rB = b ∧ t.rC = c ∧ t.rD = d ∧ t.rE = e) ∧
      (p.resetGpr = .zero → t.rA = 0 ∧ t.rB = 0 ∧ t.rC = 0 ∧ t.rD = 0 ∧ t.rE = 0) ∧
      (p.resetFlags ≠ .zero → t.flags = f) ∧ (p.resetFlags = .zero → t.flags = ⟨false, false, false⟩) ∧
      (∀ k : Nat, k < image.length → image[k]? = some (t.ramWord (BitVec.ofNat 16 k))) ∧
      (∀ x : Word, image.length ≤ x.toNat → t.ramWord x = (State.initial p a b c d e f).ramWord x) ∧
      (∀ w, p.ramFill = .fixed w → ∀ x : Word, image.length ≤ x.toNat → t.ramWord x = w) ∧
      t.fetchAddress = 0x0000 ∧ t.busLog = [] ∧ t.config = p

/-- A step from the self-jump (0xA800 and its own address at PC) changes no state. The self-jump of the spec's end-of-run convention, decision D23. -/
def Obligations.FinishedRunStaysWhereItIs : Prop :=
  ∀ s : State, Config.noUnsetFault s.config → s.finished = true → step s = .next s

/-- With an instruction placed where the next step fetches, the step runs exactly it. R88; withFetchWord is the model's stand-in for the load, log entry 22. -/
def Obligations.PlacedInstructionIsTheOneThatRuns : Prop :=
  ∀ (s t : State) (nbits w : Nat), t = s.withFetchWord nbits w →
    (Config.noUnsetFault s.config → step t = exec (decodeWords (tableWords nbits w).1 (tableWords nbits w).2)
        (t.setReg .pc (t.fetchAddress + (if teenyBit (tableWords nbits w).1 then 1 else 2)))) ∧
      (s.pc.toNat ≤ 0x7FFE → t.fetchAddress = s.pc) ∧ (∀ r, r ≠ .pc → t.reg r = s.reg r) ∧ (s.Inv → t.Inv)

/-- rZ reads 0 in every state and a write to it changes nothing. R22. -/
def Obligations.ZeroRegisterReadsZeroAndIgnoresWrites : Prop :=
  ∀ (s : State) (v : Word), s.reg .rZ = 0 ∧ s.setReg .rZ v = s

/-- MemRead: below 0x8000 the RAM word and no effect; above, exactly one BusRead whose answer is the result. The queue of answers held ready, and that one is used up, is the model's own choice (log entry 20), its form of "any 16-bit value the host chooses". -/
def Obligations.DataReadTakesRamOrOneBusAnswer : Prop :=
  ∀ (s : State) (addr : Word),
    (addr.toNat ≤ 0x7FFF → s.memRead addr = (s.ramWord addr, s)) ∧
    (0x7FFF < addr.toNat → ∃ (v : Word) (t : State), s.memRead addr = (v, t) ∧ t.busLog = s.busLog ++ [.read addr v] ∧
      SameRegs s t ∧ t.flags = s.flags ∧ SameRam s t ∧
      (s.hostAnswers = [] → t.hostAnswers = []) ∧
      ∀ (h : Word) (rest : List Word), s.hostAnswers = h :: rest → v = h ∧ t.hostAnswers = rest)

/-- MemWrite: below 0x8000 RAM[addr] <- v only; above, exactly one BusWrite and RAM unchanged. R57. -/
def Obligations.DataWriteStoresToRamOrOneBusWrite : Prop :=
  ∀ (s : State) (addr v : Word),
    SameRegs s (s.memWrite addr v) ∧ (s.memWrite addr v).flags = s.flags ∧
    (addr.toNat ≤ 0x7FFF → WritesRam addr v s (s.memWrite addr v) ∧ SameBus s (s.memWrite addr v)) ∧
    (0x7FFF < addr.toNat → (s.memWrite addr v).busLog = s.busLog ++ [.write addr v] ∧
      (s.memWrite addr v).hostAnswers = s.hostAnswers ∧ SameRam s (s.memWrite addr v))

/-- A one-word immediate is its four bits sign-extended (-8 to 7; decision D1; zext as a parameter); a two-word one is its second word. Sign extension is the spec's decision D1, log entry 1. -/
def Obligations.OneWordImmediateIsSignExtended : Prop :=
  ∀ s : State, (s.config.teenyImmExt = .sext → ∀ i : BitVec 4, (s.immed (.teeny i)).toInt = i.toInt) ∧
    (s.config.teenyImmExt = .zext → ∀ i : BitVec 4, (s.immed (.teeny i)).toNat = i.toNat) ∧
    ∀ w : Word, s.immed (.wide w) = w

/-- SET completes: x[reg1] <- x[reg2] + immed, and nothing else changes. R110, in the notation of R7 (a sum of 16-bit values wraps). -/
def Obligations.SetWritesTheOperandSum : Prop :=
  (∀ w1 w2 : Word, opcodeField w1 = 0 → decodeWords w1 w2 = .set (reg1Field w1) (reg2Field w1) (immedOf w1 w2)) ∧
    ∀ (r1 r2 : Reg) (imm : Immed) (s : State), ∃ t, exec (.set r1 r2 imm) s = .next t ∧
      WritesReg r1 (s.reg r2 + s.immed imm) s t ∧ t.flags = s.flags ∧ SameRam s t ∧ SameBus s t

/-- LOD completes: x[reg1] <- the RAM word or bus answer at x[reg2] + immed, and nothing else changes. LOD, in the notation of R7. That the answer is the head of the queue `hostAnswers`, which is used up, is the model's own choice, log entry 20. -/
def Obligations.LodLoadsFromRamOrTheBus : Prop :=
  (∀ w1 w2 : Word, opcodeField w1 = 1 → decodeWords w1 w2 = .lod (reg1Field w1) (reg2Field w1) (immedOf w1 w2)) ∧
    ∀ (r1 r2 : Reg) (imm : Immed) (s : State) (addr : Word), addr = s.reg r2 + s.immed imm →
    ∃ t, exec (.lod r1 r2 imm) s = .next t ∧ t.flags = s.flags ∧ SameRam s t ∧
      (addr.toNat ≤ 0x7FFF → WritesReg r1 (s.ramWord addr) s t ∧ SameBus s t) ∧
      (0x7FFF < addr.toNat → ∃ v, WritesReg r1 v s t ∧ t.busLog = s.busLog ++ [.read addr v] ∧
        (s.hostAnswers = [] → t.hostAnswers = []) ∧
      ∀ (h : Word) (rest : List Word), s.hostAnswers = h :: rest → v = h ∧ t.hostAnswers = rest)

/-- STR completes: the RAM word or bus address x[reg1] + immed receives x[reg2], and nothing else changes. R114, in the notation of R7. -/
def Obligations.StrStoresToRamOrTheBus : Prop :=
  (∀ w1 w2 : Word, opcodeField w1 = 2 → decodeWords w1 w2 = .str (reg1Field w1) (reg2Field w1) (immedOf w1 w2)) ∧
    ∀ (r1 r2 : Reg) (imm : Immed) (s : State) (addr : Word), addr = s.reg r1 + s.immed imm →
    ∃ t, exec (.str r1 r2 imm) s = .next t ∧ SameRegs s t ∧ t.flags = s.flags ∧
      t.hostAnswers = s.hostAnswers ∧
      (addr.toNat ≤ 0x7FFF → WritesRam addr (s.reg r2) s t ∧ t.busLog = s.busLog) ∧
      (0x7FFF < addr.toNat → SameRam s t ∧ t.busLog = s.busLog ++ [.write addr (s.reg r2)])

/-- PSH with SP in RAM completes: RAM[sp] <- x[reg2] + immed, sp <- sp - 1; with SP outside RAM it faults. The fault is the spec's decision D16, the operand's order D26, the wrap of SP D7: log entries 12, 24, 25. -/
def Obligations.PshWritesAtSpThenDecrements : Prop :=
  ∀ (r2 : Reg) (imm : Immed) (s : State),
    (InRam s.sp → ∃ t, exec (.psh r2 imm) s = .next t ∧ WritesRam s.sp (s.reg r2 + s.immed imm) s t ∧
      WritesReg .sp (s.sp - 1) s t ∧ t.flags = s.flags ∧ SameBus s t) ∧
    (¬InRam s.sp → s.config.stackOutsideRam = .refuse → exec (.psh r2 imm) s =
      .fault (.stackOutOfRam s.sp (s.setReg .pc (s.pc - Format.words (Immed.format imm)))))

/-- POP and RET complete: sp <- sp + 1, then x[reg1] <- RAM[sp] (RET: PC); outside RAM they fault. The fault is the spec's decision D16, POP SP D26, the wrap of SP D7: log entries 12, 24, 25. -/
def Obligations.PopIncrementsSpThenReads : Prop :=
  ∀ (r1 : Reg) (fmt : Format) (i : Instr) (s : State), (i = .pop r1 fmt ∨ (i = .ret ∧ r1 = .pc ∧ fmt = .w1)) →
    (InRam (s.sp + 1) → ∃ t, exec i s = .next t ∧
      (∀ r, t.reg r = if r = r1 ∧ r ≠ .rZ then s.ramWord (s.sp + 1) else if r = .sp then s.sp + 1 else s.reg r) ∧
      t.flags = s.flags ∧ SameRam s t ∧ SameBus s t) ∧
    (¬InRam (s.sp + 1) → s.config.stackOutsideRam = .refuse →
      exec i s = .fault (.stackOutOfRam (s.sp + 1) (s.setReg .pc (s.pc - Format.words fmt))))

/-- PSH then POP leaves the pushed value in the register, SP as it was, and every other register as it was. The stack discipline the spec derives from PSH and POP. -/
def Obligations.PopAfterPshRestores : Prop :=
  ∀ (r1 r2 : Reg) (imm : Immed) (fmt : Format) (s : State), InRam s.sp → r1 ≠ .sp →
    ∃ t u, exec (.psh r2 imm) s = .next t ∧ exec (.pop r1 fmt) t = .next u ∧
      WritesReg r1 (s.reg r2 + s.immed imm) s u ∧ u.flags = s.flags ∧
      WritesRam s.sp (s.reg r2 + s.immed imm) s u

/-- BTS completes: it sets bit val of reg1 for val 0 to 15, flags from the result; else it changes nothing. The flag rule is the spec's decision D5, the rZ case D25, the range test D34: log entries 4, 16, 26. -/
def Obligations.BtsSetsOneBitInRange : Prop :=
  ∀ (r1 r2 : Reg) (imm : Immed) (s : State) (b : Nat), s.accepts r1 → b = (s.reg r2 + s.immed imm).toNat →
    (b ≤ 15 → ∃ (t : State) (v : Word), exec (.bts r1 r2 imm) s = .next t ∧ AluEffect r1 v s t ∧
      ∀ k : Nat, k < 16 → v.getLsbD k = if k = b then true else (s.reg r1).getLsbD k) ∧
    (15 < b → exec (.bts r1 r2 imm) s = .next s)

/-- BTC completes: it clears bit val of reg1 for val 0 to 15, flags from the result; else it changes nothing. The flag rule is the spec's decision D5, the rZ case D25, the range test D34: log entries 4, 16, 26. -/
def Obligations.BtcClearsOneBitInRange : Prop :=
  ∀ (r1 r2 : Reg) (imm : Immed) (s : State) (b : Nat), s.accepts r1 → b = (s.reg r2 + s.immed imm).toNat →
    (b ≤ 15 → ∃ (t : State) (v : Word), exec (.btc r1 r2 imm) s = .next t ∧ AluEffect r1 v s t ∧
      ∀ k : Nat, k < 16 → v.getLsbD k = if k = b then false else (s.reg r1).getLsbD k) ∧
    (15 < b → exec (.btc r1 r2 imm) s = .next s)

/-- BTF completes: it flips bit val of reg1 for val 0 to 15, flags from the result; else it changes nothing. The flag rule is the spec's decision D5, the rZ case D25, the range test D34: log entries 4, 16, 26. -/
def Obligations.BtfFlipsOneBitInRange : Prop :=
  ∀ (r1 r2 : Reg) (imm : Immed) (s : State) (b : Nat), s.accepts r1 → b = (s.reg r2 + s.immed imm).toNat →
    (b ≤ 15 → ∃ (t : State) (v : Word), exec (.btf r1 r2 imm) s = .next t ∧ AluEffect r1 v s t ∧
      ∀ k : Nat, k < 16 → v.getLsbD k = if k = b then !(s.reg r1).getLsbD b else (s.reg r1).getLsbD k) ∧
    (15 < b → exec (.btf r1 r2 imm) s = .next s)

/-- ADD and INC complete: reg1 takes the low 16 bits of the exact sum, flags from it; nothing else changes. Wrap-around is the spec's decision D7, the flag rule D5, the rZ case D25: log entries 25, 4, 16. -/
def Obligations.AddWrapsTheExactSum : Prop :=
  (∀ (r1 r2 : Reg) (imm : Immed) (s : State), s.accepts r1 → ∃ t, exec (.add r1 r2 imm) s = .next t ∧
      AluEffect r1 (BitVec.ofInt 16 ((s.reg r1).toInt + (s.reg r2 + s.immed imm).toInt)) s t) ∧
    ∀ (r1 : Reg) (s : State), s.accepts r1 → ∃ t, exec (.inc r1) s = .next t ∧
      AluEffect r1 (BitVec.ofInt 16 ((s.reg r1).toInt + 1)) s t

/-- SUB and DEC complete: reg1 takes the low 16 bits of the exact difference, flags from it; nothing else changes. Wrap-around is the spec's decision D7, the flag rule D5, the rZ case D25: log entries 25, 4, 16. -/
def Obligations.SubWrapsTheExactDifference : Prop :=
  (∀ (r1 r2 : Reg) (imm : Immed) (s : State), s.accepts r1 → ∃ t, exec (.sub r1 r2 imm) s = .next t ∧
      AluEffect r1 (BitVec.ofInt 16 ((s.reg r1).toInt - (s.reg r2 + s.immed imm).toInt)) s t) ∧
    ∀ (r1 : Reg) (s : State), s.accepts r1 → ∃ t, exec (.dec r1) s = .next t ∧
      AluEffect r1 (BitVec.ofInt 16 ((s.reg r1).toInt - 1)) s t

/-- MPY completes: reg1 takes the low 16 bits of the exact product, signed or unsigned, flags from them. Wrap-around is the spec's decision D7, the flag rule D5, the rZ case D25: log entries 25, 4, 16. -/
def Obligations.MpyKeepsTheLowSixteenBits : Prop :=
  ∀ (r1 r2 : Reg) (imm : Immed) (s : State), s.accepts r1 → ∃ (t : State) (v : Word), exec (.mpy r1 r2 imm) s = .next t ∧
    AluEffect r1 v s t ∧ v = BitVec.ofNat 16 ((s.reg r1).toNat * (s.reg r2 + s.immed imm).toNat) ∧
    v = BitVec.ofInt 16 ((s.reg r1).toInt * (s.reg r2 + s.immed imm).toInt)

/-- NEG completes: reg1 takes 0 - x[reg1] narrowed to 16 bits, flags from it; nothing else changes. Wrap-around is the spec's decision D7, the flag rule D5, the rZ case D25: log entries 25, 4, 16. -/
def Obligations.NegNegatesInBothFormats : Prop :=
  ∀ (r1 : Reg) (fmt : Format) (s : State), s.accepts r1 → ∃ t, exec (.neg r1 fmt) s = .next t ∧
    AluEffect r1 (BitVec.ofInt 16 (-(s.reg r1).toInt)) s t

/-- DIV and MOD by a divisor other than 0 complete with the quotient truncated toward zero and its remainder. Signedness and rounding are the spec's decision D8, the overflow case D10, the flag rule D5, the rZ case D25: log entries 6, 25, 4, 16. -/
def Obligations.DivAndModTruncateTowardZero : Prop :=
  ∀ (r1 r2 : Reg) (imm : Immed) (s : State), s.accepts r1 → s.config.divRule = .signedTrunc → s.reg r2 + s.immed imm ≠ 0 →
    ∃ (q m : Int) (t u : State),
      (s.reg r1).toInt = q * (s.reg r2 + s.immed imm).toInt + m ∧ |m| < |(s.reg r2 + s.immed imm).toInt| ∧
      0 ≤ m * (s.reg r1).toInt ∧
      exec (.div r1 r2 imm) s = .next t ∧ AluEffect r1 (BitVec.ofInt 16 q) s t ∧
      exec (.mod r1 r2 imm) s = .next u ∧ AluEffect r1 (BitVec.ofInt 16 m) s u

/-- DIV and MOD with divisor 0 raise the model fault DivideByZero with the instruction's address (decision D9). The spec's decision D9, log entry 7. -/
def Obligations.DivAndModByZeroFault : Prop :=
  ∀ (r1 r2 : Reg) (imm : Immed) (s : State) (a : Word), s.accepts r1 → s.config.divZero = .refuse →
    s.reg r2 + s.immed imm = 0 → a = s.pc - Format.words (Immed.format imm) →
    exec (.div r1 r2 imm) s = .fault (.divideByZero a (s.setReg .pc a)) ∧
    exec (.mod r1 r2 imm) s = .fault (.divideByZero a (s.setReg .pc a))

/-- CMP completes: E, L, G are the exact signed comparison of x[reg1] and val; nothing else changes. Signed and exact is the spec's decision D6, log entry 5. -/
def Obligations.CmpComparesSignedAndExact : Prop :=
  ∀ (r1 r2 : Reg) (imm : Immed) (s : State), s.config.cmpRule = .signedExact → ∃ t, exec (.cmp r1 r2 imm) s = .next t ∧
    FlagsCompare (s.reg r1).toInt (s.reg r2 + s.immed imm).toInt t.flags ∧ SameRegs s t ∧ SameRam s t ∧ SameBus s t

/-- AND, OR, XOR complete: each bit of reg1 with the same bit of val, flags from the result; nothing else changes. The flag rule is the spec's decision D5, the rZ case D25: log entries 4, 16. -/
def Obligations.LogicActsBitByBit : Prop :=
  ∀ (r1 r2 : Reg) (imm : Immed) (s : State) (i : Instr) (f : Bool → Bool → Bool), s.accepts r1 →
    ((i = .and r1 r2 imm ∧ f = and) ∨ (i = .or r1 r2 imm ∧ f = or) ∨ (i = .xor r1 r2 imm ∧ f = xor)) →
    ∃ (t : State) (v : Word), exec i s = .next t ∧ AluEffect r1 v s t ∧
      ∀ k : Nat, k < 16 → v.getLsbD k = f ((s.reg r1).getLsbD k) ((s.reg r2 + s.immed imm).getLsbD k)

/-- SHF completes: bits move right for a count of 0 or more, left for a negative one, zeros enter; flags from the result. Fill and large counts are the spec's decision D11, the flag rule D5, the rZ case D25: log entries 8, 9, 4, 16. -/
def Obligations.ShfMovesBitsByTheSignedCount : Prop :=
  ∀ (r1 r2 : Reg) (imm : Immed) (s : State), s.accepts r1 → s.config.shfFill = .logical → s.config.shfBig = .zero →
    ∃ (t : State) (v : Word), exec (.shf r1 r2 imm) s = .next t ∧
    AluEffect r1 v s t ∧ ∀ k : Nat, k < 16 →
      v.getLsbD k = (decide (0 ≤ (k : Int) + (s.reg r2 + s.immed imm).toInt) &&
        (s.reg r1).getLsbD ((k : Int) + (s.reg r2 + s.immed imm).toInt).toNat)

/-- ROT completes: bit k of reg1 takes bit (k + count) mod 16, for every signed count; flags from the result. Counts of 16 and more are the spec's decision D12, the flag rule D5, the rZ case D25: log entries 9, 4, 16. -/
def Obligations.RotTurnsBitsByTheSignedCount : Prop :=
  ∀ (r1 r2 : Reg) (imm : Immed) (s : State), s.accepts r1 → s.config.rotBig = .mod16 → ∃ (t : State) (v : Word),
    exec (.rot r1 r2 imm) s = .next t ∧
    AluEffect r1 v s t ∧ ∀ k : Nat, k < 16 →
      v.getLsbD k = (s.reg r1).getLsbD (((k : Int) + (s.reg r2 + s.immed imm).toInt) % 16).toNat

/-- CAL with SP in RAM completes: RAM[sp] <- pc, sp <- sp - 1, pc <- x[reg2] + immed; outside RAM it faults. The fault is the spec's decision D16, the order for CAL SP D26, the wrap of SP D7: log entries 12, 24, 25. -/
def Obligations.CalPushesTheReturnAddressAndJumps : Prop :=
  ∀ (r2 : Reg) (imm : Immed) (s : State),
    (InRam s.sp → ∃ t, exec (.cal r2 imm) s = .next t ∧ WritesRam s.sp s.pc s t ∧
      (∀ r, t.reg r = if r = .pc then (if r2 = .sp then s.sp - 1 else s.reg r2) + s.immed imm
        else if r = .sp then s.sp - 1 else s.reg r) ∧
      t.flags = s.flags ∧ SameBus s t) ∧
    (¬InRam s.sp → s.config.stackOutsideRam = .refuse → exec (.cal r2 imm) s =
      .fault (.stackOutOfRam s.sp (s.setReg .pc (s.pc - Format.words (Immed.format imm)))))

/-- CAL completes; RET with its SP and RAM returns past the CAL, SP as before it, every other register as before the RET. CAL pushes exactly like PSH, so RET undoes it. -/
def Obligations.RetAfterCalReturns : Prop :=
  ∀ (r2 : Reg) (imm : Immed) (s : State), InRam s.sp → ∃ t, exec (.cal r2 imm) s = .next t ∧
    ∀ u : State, u.sp = t.sp → SameRam t u → ∃ v, exec .ret u = .next v ∧
      (∀ r, v.reg r = if r = .pc then s.pc else if r = .sp then s.sp else u.reg r) ∧
      v.flags = u.flags ∧ SameRam u v ∧ SameBus u v ∧ (u = t → SameRegs s v)

/-- JMP completes for every mask: taken with an empty mask or when a flag is set whose mask bit is set. The any-of rule is the spec's decision D3, log entry 28. -/
def Obligations.JmpTakesAnyMaskedFlag : Prop :=
  ∀ (r1 : Reg) (m : Mask) (imm16 : Word) (s : State), ∃ t, exec (.jmp r1 m imm16) s = .next t ∧
    (((m.e = false ∧ m.l = false ∧ m.g = false) ∨ (m.e = true ∧ s.flags.e = true) ∨ (m.l = true ∧ s.flags.l = true) ∨
        (m.g = true ∧ s.flags.g = true)) → MovesPc (s.reg r1 + imm16) s t) ∧
    (¬((m.e = false ∧ m.l = false ∧ m.g = false) ∨ (m.e = true ∧ s.flags.e = true) ∨
        (m.l = true ∧ s.flags.l = true) ∨ (m.g = true ∧ s.flags.g = true)) → SameRegs s t) ∧
    t.flags = s.flags ∧ SameRam s t ∧ SameBus s t

/-- JE, JNE, JL, JLE, JG, JGE complete: PC <- x[reg1] + imm16 when their flags say so, else PC stays. The any-of rule is the spec's decision D3, log entry 28; JG and JGE by conflict C3. -/
def Obligations.ConditionalJumpsFollowTheirFlags : Prop :=
  ∀ (r1 : Reg) (imm16 : Word) (s : State) (i : Instr) (c : Bool),
    ((i = .je r1 imm16 ∧ c = s.flags.e) ∨ (i = .jne r1 imm16 ∧ c = (s.flags.l || s.flags.g)) ∨
      (i = .jl r1 imm16 ∧ c = s.flags.l) ∨ (i = .jle r1 imm16 ∧ c = (s.flags.e || s.flags.l)) ∨
      (i = .jg r1 imm16 ∧ c = s.flags.g) ∨ (i = .jge r1 imm16 ∧ c = (s.flags.e || s.flags.g))) →
    ∃ t, exec i s = .next t ∧ (c = true → MovesPc (s.reg r1 + imm16) s t) ∧ (c = false → SameRegs s t) ∧
      t.flags = s.flags ∧ SameRam s t ∧ SameBus s t

/-- After CMP a, b: JE, JNE, JL, JLE, JG, JGE are taken exactly when a = b, a /= b, a < b, a <= b, a > b, a >= b. The table of conditions the spec derives; decisions D3 and D6, log entries 28 and 5. -/
def Obligations.ConditionsAfterCmpAreSignedComparisons : Prop :=
  ∀ (r1 r2 r3 : Reg) (imm : Immed) (imm16 : Word) (s t u : State) (a b : Int) (i : Instr) (p : Prop),
    s.config.cmpRule = .signedExact → exec (.cmp r1 r2 imm) s = .next t → u.flags = t.flags →
    a = (s.reg r1).toInt → b = (s.reg r2 + s.immed imm).toInt →
    ((i = .je r3 imm16 ∧ p = (a = b)) ∨ (i = .jne r3 imm16 ∧ p = (a ≠ b)) ∨ (i = .jl r3 imm16 ∧ p = (a < b)) ∨
      (i = .jle r3 imm16 ∧ p = (a ≤ b)) ∨ (i = .jg r3 imm16 ∧ p = (b < a)) ∨ (i = .jge r3 imm16 ∧ p = (b ≤ a))) →
    (p → ∃ v, exec i u = .next v ∧ MovesPc (u.reg r3 + imm16) u v) ∧ (¬p → exec i u = .next u)

/-- DLY completes and changes no state, whatever its count (decision D24). The spec's decision D24, log entry 27. -/
def Obligations.DlyChangesNothing : Prop :=
  ∀ (r2 : Reg) (imm : Immed) (s : State), exec (.dly r2 imm) s = .next s

/-- LUP completes: x[reg1] <- x[reg1] - 1; if it then reads other than 0, pc <- x[reg2] + immed read after the decrement. The order and the rZ case are the spec's decision D26, the wrap D7: log entries 24, 25. -/
def Obligations.LupCountsDownAndJumpsWhileNonZero : Prop :=
  ∀ (r1 r2 : Reg) (imm : Immed) (s : State), ∃ d t, exec (.lup r1 r2 imm) s = .next t ∧
    WritesReg r1 (s.reg r1 - 1) s d ∧
    (d.reg r1 ≠ 0 → MovesPc (d.reg r2 + s.immed imm) d t) ∧ (d.reg r1 = 0 → SameRegs d t) ∧
    t.flags = s.flags ∧ SameRam s t ∧ SameBus s t

/-- By default the three reserved classes raise their model faults with the instruction's address and word. The spec's decisions D2, D4, D13, log entries 2, 3, 10. -/
def Obligations.ReservedWordsFault : Prop :=
  ∀ (w1 w2 : Word) (s : State) (n : Word), n = (if teenyBit w1 then 1 else 2) →
    (s.config.jmpTeeny = .refuse → exec (.reservedJmpOneWord w1) s =
      .fault (.reservedEncoding (s.pc - 1) w1 (s.setReg .pc (s.pc - 1)))) ∧
    (s.config.jmpBit3 = .refuse → exec (.reservedJmpBit3 w1 w2) s =
      .fault (.reservedEncoding (s.pc - 2) w1 (s.setReg .pc (s.pc - 2)))) ∧
    (s.config.illegalOpcode = .refuse → exec (.undefinedOpcode w1) s =
      .fault (.illegalOpcode (s.pc - n) w1 (s.setReg .pc (s.pc - n))))

/-- Each pseudo-instruction has the outcome of the real instruction it stands for, on every state. INC and DEC: the spec's decision D31, log entry 29; JG and JGE by conflict C3. -/
def Obligations.PseudoInstructionsAreTheRealOnes : Prop :=
  ∀ (r1 : Reg) (imm16 : Word) (s : State),
    exec (.inc r1) s = exec (.add r1 .rZ (.teeny 1)) s ∧ exec (.dec r1) s = exec (.sub r1 .rZ (.teeny 1)) s ∧
    exec .ret s = exec (.pop .pc .w1) s ∧
    exec (.je r1 imm16) s = exec (.jmp r1 ⟨true, false, false⟩ imm16) s ∧
    exec (.jne r1 imm16) s = exec (.jmp r1 ⟨false, true, true⟩ imm16) s ∧
    exec (.jl r1 imm16) s = exec (.jmp r1 ⟨false, true, false⟩ imm16) s ∧
    exec (.jle r1 imm16) s = exec (.jmp r1 ⟨true, true, false⟩ imm16) s ∧
    exec (.jg r1 imm16) s = exec (.jmp r1 ⟨false, false, true⟩ imm16) s ∧
    exec (.jge r1 imm16) s = exec (.jmp r1 ⟨true, false, true⟩ imm16) s

/-- The decoder's choice of a pseudo-instruction's name never changes what an instruction does. The hardware cannot tell the two spellings apart; the respelling is the model's choice, log entry 23. -/
def Obligations.SpellingKeepsTheMeaning : Prop :=
  ∀ (i : Instr) (s : State), exec (respell i) s = exec i s

/-- Non-writers leave E, L, G alone; after a writer exactly one is set; a bit number above 15 changes nothing. N/A as unchanged is the spec's decision D32, the flag rules D5 and D6: log entries 31, 4, 5. -/
def Obligations.OnlyFlagWritersChangeTheFlags : Prop :=
  ∀ (i : Instr) (s t : State), s.config.divZero = .refuse → exec i s = .next t →
    (Instr.writesFlags i = false → t.flags = s.flags) ∧
    (Instr.writesFlags i = true → Instr.isBitOp i = false → t.flags.exactlyOne = true) ∧
    ∀ (r1 r2 : Reg) (imm : Immed), (i = .bts r1 r2 imm ∨ i = .btc r1 r2 imm ∨ i = .btf r1 r2 imm) →
      ((s.reg r2 + s.immed imm).toNat ≤ 15 → t.flags.exactlyOne = true) ∧
      (15 < (s.reg r2 + s.immed imm).toNat → t = s)

/-- The flags influence nothing but the JMP family. The only reader of the flags is opcode 21. -/
def Obligations.OnlyJumpsReadTheFlags : Prop :=
  ∀ (i : Instr) (s t : State) (f : Flags), s.config.jmpTeeny = .refuse → s.config.jmpBit3 = .refuse →
    Instr.readsFlags i = false →
    (∀ x, exec i s = .fault x →
      exec i (s.setFlags f) = .fault (Fault.withBefore ((Fault.before x).setFlags f) x)) ∧
    (exec i s = .next t → ∃ u, exec i (s.setFlags f) = .next u ∧ SameRegs t u ∧ SameRam t u ∧ SameBus t u)

/-- A step makes at most one bus callback, appended to the log, and only LOD and STR make one. One callback per access is the spec's decision D27, log entry 20. -/
def Obligations.OnlyLodAndStrReachTheBus : Prop :=
  ∀ (i : Instr) (s t : State), exec i s = .next t →
    (∃ es : List BusEvent, es.length ≤ 1 ∧ t.busLog = s.busLog ++ es) ∧
    (s.config.stackOutsideRam = .refuse → Instr.reachesBus i = false → SameBus s t)

/-- Every instruction other than STR, PSH and CAL leaves every RAM word as it was. The data accesses of each instruction. -/
def Obligations.OnlyStrPshCalWriteRam : Prop :=
  ∀ (i : Instr) (s t : State), exec i s = .next t → Instr.writesRam i = false → SameRam s t

/-- A store to RAM is what the next LOD of that address loads and what the next fetch of it takes, as a first or as a second word. Program order and self-modifying code are the spec's decisions D20, D21, log entry 32. -/
def Obligations.LatestStoreIsWhatIsReadAndFetched : Prop :=
  ∀ (r1 r2 : Reg) (imm : Immed) (s t : State) (a v : Word), Config.noUnsetFault s.config →
    a = s.reg r1 + s.immed imm → v = s.reg r2 → InRam a → exec (.str r1 r2 imm) s = .next t →
    (∀ (q1 q2 : Reg) (imm' : Immed), t.reg q2 + t.immed imm' = a →
      ∃ u, exec (.lod q1 q2 imm') t = .next u ∧ WritesReg q1 v t u) ∧
    (t.fetchAddress = a → teenyBit v = true → step t = exec (decodeWords v 0) (t.setReg .pc (a + 1))) ∧
    (t.fetchAddress = a → teenyBit v = false → a ≠ 0x7FFF →
      step t = exec (decodeWords v (s.ramWord (a + 1))) (t.setReg .pc (a + 2))) ∧
    (t.fetchAddress + 1 = a → teenyBit (s.ramWord t.fetchAddress) = false →
      step t = exec (decodeWords (s.ramWord t.fetchAddress) v) (t.setReg .pc (t.fetchAddress + 2)))

/-- A model fault or a refusal leaves the state as before the step, with PC at the instruction, the PC reset having happened. Faults: R223, its sentence on what a fault leaves. Refusals: the model's choice, log entries 15 and 33, its form of "same effect as fault". -/
def Obligations.FaultLeavesTheStateBeforeTheStep : Prop :=
  ∀ s : State, (∀ f, step s = .fault f → Fault.before f = s.setReg .pc (if InRam s.pc then s.pc else 0x0000)) ∧
    ∀ r, step s = .refused r → Refusal.before r = some (s.setReg .pc (if InRam s.pc then s.pc else 0x0000))

/-- No step changes the parameters. That the state carries the parameters is the model's choice, log entry 15. -/
def Obligations.StepKeepsTheParameters : Prop :=
  ∀ s t : State, step s = .next t → t.config = s.config

/-- What still counts as unwritten after an instruction counted so before it and holds the value it had. The record of what is written is the model's own, log entry 35. -/
def Obligations.UnwrittenStateStaysAsItWas : Prop :=
  ∀ (i : Instr) (s t : State), exec i s = .next t →
    (∀ r, r ∈ t.unwritten → r ∈ s.unwritten ∧ (r ≠ .pc → r ≠ .sp → t.reg r = s.reg r)) ∧
    (t.flagsUnwritten = true → s.flagsUnwritten = true ∧ t.flags = s.flags)

/-- UninitialisedRead is raised only where its parameter is fault and nothing has written what is read; a fetch of such a word raises it. Which reads count is the model's choice, log entry 35. -/
def Obligations.UninitialisedReadOnlyOfUnwrittenState : Prop :=
  ∀ s : State, (∀ r b, step s = .fault (.uninitialisedRead (.reg r) b) → s.config.resetGpr = .fault ∧ r ∈ s.unwritten) ∧
    (∀ b, step s = .fault (.uninitialisedRead .flags b) → s.config.resetFlags = .fault ∧ s.flagsUnwritten = true) ∧
    (∀ a b, step s = .fault (.uninitialisedRead (.ram a) b) →
      s.config.ramFill = .fault ∧ InRam a ∧ s.ram.read a.toNat = none) ∧
    (s.config.ramFill = .fault → s.ram.read s.fetchAddress.toNat = none →
      step s = .fault (.uninitialisedRead (.ram s.fetchAddress) (s.setReg .pc s.fetchAddress)))

/-- DIV_ZERO, ILLEGAL_OPCODE, JMP_BIT3, JMP_TEENY and FETCH_STRADDLE put the other readings the spec names in place of the faults. The other readings of the spec's decisions D2, D4, D9, D13, D15; log entries 3, 7, 10. The model's choices: immed4 widens by TEENY_IMM_EXT, log entry 2; the step of reset_pc ends there, log entry 11; what DIV_ZERO = nop leaves, log entry 15. -/
def Obligations.FaultParametersReplaceTheirFaults : Prop :=
  ∀ (r1 r2 : Reg) (imm : Immed) (w1 w2 : Word) (s : State),
    (s.config.divZero = .nop → s.accepts r1 → s.reg r2 + s.immed imm = 0 →
      exec (.div r1 r2 imm) s = .next s ∧ exec (.mod r1 r2 imm) s = .next s) ∧
    (s.config.illegalOpcode = .nop → exec (.undefinedOpcode w1) s = .next s) ∧
    (s.config.jmpBit3 = .ignore →
      exec (.reservedJmpBit3 w1 w2) s = exec (.jmp (reg1Field w1) (maskField w1) w2) s) ∧
    (reservedBit w1 = false ∨ s.config.jmpBit3 = .ignore →
      (s.config.jmpTeeny = .immed0 →
        exec (.reservedJmpOneWord w1) s = exec (.jmp (reg1Field w1) (maskField w1) 0) s) ∧
      (s.config.jmpTeeny = .immed4 → exec (.reservedJmpOneWord w1) s =
        exec (.jmp (reg1Field w1) (maskField w1) (s.immed (.teeny (imm4Field w1)))) s)) ∧
    (s.config.fetchStraddle = .resetPc → Config.noUnsetFault s.config → s.straddles = true →
      step s = .next (s.setReg .pc 0x0000))

/-- With STACK_OUTSIDE_RAM = bus, PSH, CAL, POP and RET above 0x7FFF complete with one bus callback and leave RAM alone. The other reading of the spec's decision D16, log entry 12. -/
def Obligations.StackReachesTheBusWhenSoSet : Prop :=
  ∀ (r1 r2 : Reg) (imm : Immed) (fmt : Format) (s : State), s.config.stackOutsideRam = .bus →
    (¬InRam s.sp → ∃ t, exec (.psh r2 imm) s = .next t ∧ WritesReg .sp (s.sp - 1) s t ∧ SameRam s t ∧
      t.flags = s.flags ∧ t.busLog = s.busLog ++ [.write s.sp (s.reg r2 + s.immed imm)]) ∧
    (¬InRam s.sp → ∃ t, exec (.cal r2 imm) s = .next t ∧ SameRam s t ∧ t.flags = s.flags ∧
      t.busLog = s.busLog ++ [.write s.sp s.pc] ∧
      ∀ r, t.reg r = if r = .pc then (if r2 = .sp then s.sp - 1 else s.reg r2) + s.immed imm
        else if r = .sp then s.sp - 1 else s.reg r) ∧
    (¬InRam (s.sp + 1) → ∀ i : Instr, (i = .pop r1 fmt ∨ (i = .ret ∧ r1 = .pc)) → ∃ (t : State) (v : Word),
      exec i s = .next t ∧ SameRam s t ∧ t.flags = s.flags ∧ t.busLog = s.busLog ++ [.read (s.sp + 1) v] ∧
      ∀ r, t.reg r = if r = r1 ∧ r ≠ .rZ then v else if r = .sp then s.sp + 1 else s.reg r)

/-- CMP_RULE, DIV_RULE, SHF_FILL, SHF_BIG, ROT_BIG and ALU_RZ_FLAGS select the other readings the spec names. The other readings of the spec's decisions D6, D8, D11, D12, D25; log entries 5, 6, 8, 9, 16. The model's choices: SHF_BIG = mod16, and arithmetic with zero, log entry 34; the order of a refusal, log entry 16; the refusals and the state they leave, log entries 15, 33. -/
def Obligations.ValueParametersSelectTheirReadings : Prop :=
  ∀ (r1 r2 : Reg) (imm : Immed) (s : State) (a b pre : Word) (n d : Nat), a = s.reg r1 → b = s.reg r2 + s.immed imm →
    pre = s.pc - Format.words (Immed.format imm) → n = b.toInt.natAbs →
    d = (if s.config.shfBig = .mod16 then n % 16 else n) →
    (s.config.cmpRule = .unsigned → ∃ t, exec (.cmp r1 r2 imm) s = .next t ∧ FlagsCompare a.toNat b.toNat t.flags) ∧
    (s.config.cmpRule = .signedWrappedDiff → ∃ t, exec (.cmp r1 r2 imm) s = .next t ∧
      FlagsCompare (a - b).toInt 0 t.flags) ∧
    (s.config.divRule = .unsigned → s.accepts r1 → b ≠ 0 → ∃ t u, exec (.div r1 r2 imm) s = .next t ∧
      AluEffect r1 (BitVec.ofNat 16 (a.toNat / b.toNat)) s t ∧ exec (.mod r1 r2 imm) s = .next u ∧
      AluEffect r1 (BitVec.ofNat 16 (a.toNat % b.toNat)) s u) ∧
    (¬(s.config.shfBig = .refuse ∧ 16 ≤ n) → s.accepts r1 → ∃ (t : State) (v : Word),
      exec (.shf r1 r2 imm) s = .next t ∧ AluEffect r1 v s t ∧ ∀ k : Nat, k < 16 → v.getLsbD k =
        if s.config.shfBig = .zero ∧ 16 ≤ n then false
        else if b.toInt < 0 then decide (d ≤ k) && a.getLsbD (k - d)
        else if k + d < 16 then a.getLsbD (k + d)
        else decide (s.config.shfFill = .arithmetic) && a.getLsbD 15) ∧
    (s.config.shfBig = .refuse → 16 ≤ n → exec (.shf r1 r2 imm) s = .refused (.shiftCount (s.setReg .pc pre))) ∧
    (s.config.rotBig = .refuse → 16 ≤ n → exec (.rot r1 r2 imm) s = .refused (.rotateCount (s.setReg .pc pre))) ∧
    (s.config.aluRzFlags = .stored → ∀ (fmt : Format) (i : Instr), i ∈ [Instr.add .rZ r2 imm, .sub .rZ r2 imm,
        .mpy .rZ r2 imm, .and .rZ r2 imm, .or .rZ r2 imm, .xor .rZ r2 imm, .neg .rZ fmt, .inc .rZ, .dec .rZ] →
      ∃ t, exec i s = .next t ∧ FlagsCompare 0 0 t.flags) ∧
    (s.config.aluRzFlags = .refuse →
      (∀ i : Instr, i ∈ [Instr.add .rZ r2 imm, .sub .rZ r2 imm, .mpy .rZ r2 imm, .div .rZ r2 imm, .mod .rZ r2 imm,
        .and .rZ r2 imm, .or .rZ r2 imm, .xor .rZ r2 imm, .bts .rZ r2 imm, .btc .rZ r2 imm, .btf .rZ r2 imm] →
        exec i s = .refused (.zeroDestination (s.setReg .pc pre))) ∧
      (¬(s.config.shfBig = .refuse ∧ 16 ≤ n) →
        exec (.shf .rZ r2 imm) s = .refused (.zeroDestination (s.setReg .pc pre))) ∧
      (¬(s.config.rotBig = .refuse ∧ 16 ≤ n) →
        exec (.rot .rZ r2 imm) s = .refused (.zeroDestination (s.setReg .pc pre))) ∧
      (∀ fmt : Format, exec (.neg .rZ fmt) s =
        .refused (.zeroDestination (s.setReg .pc (s.pc - Format.words fmt)))) ∧
      exec (.inc .rZ) s = .refused (.zeroDestination (s.setReg .pc (s.pc - 1))) ∧
      exec (.dec .rZ) s = .refused (.zeroDestination (s.setReg .pc (s.pc - 1))))
end

