-- ==== Sys2Proof/Laws/Encoding.lean ====
section
/-! SUPPORT. The fields of a first word read back from the word the encoder builds (R80). -/

namespace Sys2Proof

/-- Every bit of a first word, from the field it stands in. -/
theorem firstWord_getLsbD (op : Nat) (t : Bool) (a b : BitVec 3) (low : BitVec 4) (k : Nat) :
    (firstWord op t a b low).getLsbD k =
      if k < 4 then low.getLsbD k else if k < 7 then b.getLsbD (k - 4) else if k < 10 then a.getLsbD (k - 7)
      else if k < 11 then t else (BitVec.ofNat 5 op).getLsbD (k - 11) := by
  refine (BitVec.getLsbD_append (x := BitVec.ofNat 5 op ++ BitVec.ofBool t ++ a ++ b)).trans ?_
  refine ite_congr rfl (fun _ => rfl) fun _ => ?_
  refine (BitVec.getLsbD_append (x := BitVec.ofNat 5 op ++ BitVec.ofBool t ++ a)).trans ?_
  refine ite_congr (by simp; omega) (fun _ => rfl) fun _ => ?_
  refine (BitVec.getLsbD_append (x := BitVec.ofNat 5 op ++ BitVec.ofBool t)).trans ?_
  refine ite_congr (by simp; omega) (fun _ => by rw [Nat.sub_sub]) fun _ => ?_
  refine (BitVec.getLsbD_append (x := BitVec.ofNat 5 op)).trans ?_
  refine ite_congr (by simp; omega) (fun h => ?_) fun _ => by simp only [Nat.sub_sub]
  rw [show k - 4 - 3 - 3 = 0 by omega]
  cases t <;> rfl

@[simp] theorem teenyBit_firstWord (op : Nat) (t : Bool) (a b : BitVec 3) (low : BitVec 4) :
    teenyBit (firstWord op t a b low) = t := firstWord_getLsbD op t a b low 10

theorem opcodeField_firstWord {op : Nat} (t : Bool) (a b : BitVec 3) (low : BitVec 4) (h : op < 32) :
    opcodeField (firstWord op t a b low) = op := by
  have hf : (firstWord op t a b low).extractLsb' 11 5 = BitVec.ofNat 5 op := by
    refine BitVec.eq_of_getLsbD_eq fun k hk => ?_
    rw [BitVec.getLsbD_extractLsb', decide_eq_true hk, Bool.true_and, firstWord_getLsbD, if_neg (by omega),
      if_neg (by omega), if_neg (by omega), if_neg (by omega), Nat.add_sub_cancel_left]
  rw [opcodeField, hf, BitVec.toNat_ofNat, Nat.mod_eq_of_lt (by omega)]

theorem reg1_firstWord (op : Nat) (t : Bool) (a b : BitVec 3) (low : BitVec 4) :
    (firstWord op t a b low).extractLsb' 7 3 = a := by
  refine BitVec.eq_of_getLsbD_eq fun k hk => ?_
  rw [BitVec.getLsbD_extractLsb', decide_eq_true hk, Bool.true_and, firstWord_getLsbD, if_neg (by omega),
    if_neg (by omega), if_pos (by omega), Nat.add_sub_cancel_left]

theorem reg2_firstWord (op : Nat) (t : Bool) (a b : BitVec 3) (low : BitVec 4) :
    (firstWord op t a b low).extractLsb' 4 3 = b := by
  refine BitVec.eq_of_getLsbD_eq fun k hk => ?_
  rw [BitVec.getLsbD_extractLsb', decide_eq_true hk, Bool.true_and, firstWord_getLsbD, if_neg (by omega),
    if_pos (by omega), Nat.add_sub_cancel_left]

theorem imm4Field_firstWord (op : Nat) (t : Bool) (a b : BitVec 3) (low : BitVec 4) :
    imm4Field (firstWord op t a b low) = low := by
  refine BitVec.eq_of_getLsbD_eq fun k hk => ?_
  rw [imm4Field, BitVec.getLsbD_extractLsb', decide_eq_true hk, Bool.true_and, firstWord_getLsbD, if_pos (by omega),
    Nat.zero_add]

/-- A register reads back from its field (R21). -/
@[simp] theorem ofField_field (r : Reg) : Reg.ofField r.field = r := by cases r <;> rfl

end Sys2Proof
end

