-- ==== Sys2Proof/Laws/State.lean ====
section
/-! SUPPORT. One lemma per field per update of State, and the parameters' values: later proofs unfold neither. -/

namespace Sys2Proof.Machine

/-! ### The parameters -/

@[simp] theorem parameters_teenyImmExt : parameters.teenyImmExt = .sext := rfl
@[simp] theorem parameters_jmpTeeny : parameters.jmpTeeny = .refuse := rfl
@[simp] theorem parameters_jmpBit3 : parameters.jmpBit3 = .refuse := rfl
@[simp] theorem parameters_aluFlagRule : parameters.aluFlagRule = .signedResultVsZero := rfl
@[simp] theorem parameters_cmpRule : parameters.cmpRule = .signedExact := rfl
@[simp] theorem parameters_divRule : parameters.divRule = .signedTrunc := rfl
@[simp] theorem parameters_divZero : parameters.divZero = .refuse := rfl
@[simp] theorem parameters_shfFill : parameters.shfFill = .logical := rfl
@[simp] theorem parameters_shfBig : parameters.shfBig = .zero := rfl
@[simp] theorem parameters_rotBig : parameters.rotBig = .mod16 := rfl
@[simp] theorem parameters_illegalOpcode : parameters.illegalOpcode = .refuse := rfl
@[simp] theorem parameters_fetchStraddle : parameters.fetchStraddle = .refuse := rfl
@[simp] theorem parameters_stackOutsideRam : parameters.stackOutsideRam = .refuse := rfl
@[simp] theorem parameters_resetGpr : parameters.resetGpr = .any := rfl
@[simp] theorem parameters_resetFlags : parameters.resetFlags = .any := rfl
@[simp] theorem parameters_ramFill : parameters.ramFill = .any := rfl
@[simp] theorem parameters_imageByteOrder : parameters.imageByteOrder = .little := rfl
@[simp] theorem parameters_aluRzFlags : parameters.aluRzFlags = .computed := rfl

@[simp] theorem reset_config : State.reset.config = parameters := rfl
@[simp] theorem initial_config (c : Config) (a b d e f : Word) (fl : Flags) :
    (State.initial c a b d e f fl).config = c := rfl

/-! ### No operation changes the parameters -/

@[simp] theorem setReg_config (s : State) (r : Reg) (v : Word) : (s.setReg r v).config = s.config := by cases r <;> rfl
@[simp] theorem setFlags_config (s : State) (f : Flags) : (s.setFlags f).config = s.config := rfl
@[simp] theorem setRamWord_config (s : State) (a v : Word) : (s.setRamWord a v).config = s.config := rfl
@[simp] theorem afterBusRead_config (s : State) (a : Word) : (s.afterBusRead a).config = s.config := rfl
@[simp] theorem busWrite_config (s : State) (a v : Word) : (s.busWrite a v).config = s.config := rfl

/-- An immediate's value depends on the parameters only (R85). -/
theorem immed_congr {s t : State} (imm : Immed) (h : s.config = t.config) : s.immed imm = t.immed imm := by
  cases imm <;> simp [State.immed, h]

@[simp] theorem setReg_immed (s : State) (r : Reg) (v : Word) (imm : Immed) : (s.setReg r v).immed imm = s.immed imm :=
  immed_congr imm (setReg_config s r v)
@[simp] theorem setFlags_immed (s : State) (f : Flags) (imm : Immed) : (s.setFlags f).immed imm = s.immed imm :=
  immed_congr imm (setFlags_config s f)
@[simp] theorem setRamWord_immed (s : State) (a v : Word) (imm : Immed) : (s.setRamWord a v).immed imm = s.immed imm :=
  immed_congr imm (setRamWord_config s a v)

/-! ### Reading registers -/

@[simp] theorem reg_rZ (s : State) : s.reg .rZ = 0 := rfl
@[simp] theorem reg_pc (s : State) : s.reg .pc = s.pc := rfl
@[simp] theorem reg_sp (s : State) : s.reg .sp = s.sp := rfl
@[simp] theorem reg_rA (s : State) : s.reg .rA = s.rA := rfl
@[simp] theorem reg_rB (s : State) : s.reg .rB = s.rB := rfl
@[simp] theorem reg_rC (s : State) : s.reg .rC = s.rC := rfl
@[simp] theorem reg_rD (s : State) : s.reg .rD = s.rD := rfl
@[simp] theorem reg_rE (s : State) : s.reg .rE = s.rE := rfl

/-! ### Writing a register -/

@[simp] theorem setReg_rZ (s : State) (v : Word) : s.setReg .rZ v = s := rfl
@[simp] theorem setReg_pc_pc (s : State) (v : Word) : (s.setReg .pc v).pc = v := rfl
@[simp] theorem setReg_sp_sp (s : State) (v : Word) : (s.setReg .sp v).sp = v := rfl
@[simp] theorem setReg_pc_sp (s : State) (v : Word) : (s.setReg .pc v).sp = s.sp := rfl
@[simp] theorem setReg_sp_pc (s : State) (v : Word) : (s.setReg .sp v).pc = s.pc := rfl
@[simp] theorem setReg_flags (s : State) (r : Reg) (v : Word) : (s.setReg r v).flags = s.flags := by cases r <;> rfl
@[simp] theorem setReg_ram (s : State) (r : Reg) (v : Word) : (s.setReg r v).ram = s.ram := by cases r <;> rfl
@[simp] theorem setReg_busLog (s : State) (r : Reg) (v : Word) : (s.setReg r v).busLog = s.busLog := by cases r <;> rfl
@[simp] theorem setReg_hostAnswers (s : State) (r : Reg) (v : Word) : (s.setReg r v).hostAnswers = s.hostAnswers := by
  cases r <;> rfl

/-- What a register reads after a write: the value written, unless the register is another or is rZ (R22). -/
theorem reg_setReg (s : State) (r1 r : Reg) (v : Word) :
    (s.setReg r1 v).reg r = if r = r1 ∧ r ≠ .rZ then v else s.reg r := by
  cases r1 <;> cases r <;> rfl

/-- A register other than rZ reads the value written to it. -/
@[simp] theorem reg_setReg_self (s : State) (r : Reg) (v : Word) (h : r ≠ .rZ) : (s.setReg r v).reg r = v := by
  simp [reg_setReg, h]

/-- A register reads as before when another one is written. -/
theorem reg_setReg_ne (s : State) (r1 r : Reg) (v : Word) (h : r ≠ r1) : (s.setReg r1 v).reg r = s.reg r := by
  simp [reg_setReg, h]

/-- What a register reads after a write to PC. -/
theorem reg_setReg_pc (s : State) (r : Reg) (v : Word) : (s.setReg .pc v).reg r = if r = .pc then v else s.reg r := by
  cases r <;> rfl

/-- What a register reads after a write to SP. -/
theorem reg_setReg_sp (s : State) (r : Reg) (v : Word) : (s.setReg .sp v).reg r = if r = .sp then v else s.reg r := by
  cases r <;> rfl

/-! ### What has been written -/

/-- A register is in the list without `r` when it is in the list and is not `r`. -/
@[simp] theorem mem_without (r q : Reg) (l : List Reg) : q ∈ without r l ↔ q ∈ l ∧ q ≠ r := by simp [without]

/-- A write to one of rA to rE takes it off the unwritten ones; no other write touches them. -/
theorem setReg_unwritten (s : State) (r : Reg) (v : Word) : (s.setReg r v).unwritten =
    match r with
    | .rZ => s.unwritten
    | .pc => s.unwritten
    | .sp => s.unwritten
    | .rA => without .rA s.unwritten
    | .rB => without .rB s.unwritten
    | .rC => without .rC s.unwritten
    | .rD => without .rD s.unwritten
    | .rE => without .rE s.unwritten := by cases r <;> rfl

/-- A write adds nothing to the unwritten registers, and one that is still among them reads as before. -/
theorem mem_setReg_unwritten {s : State} {r q : Reg} {v : Word} (h : q ∈ (s.setReg r v).unwritten) :
    q ∈ s.unwritten ∧ (q ≠ .pc → q ≠ .sp → (s.setReg r v).reg q = s.reg q) := by
  rw [setReg_unwritten] at h
  cases r
  case rZ => exact ⟨h, fun _ _ => rfl⟩
  case pc => exact ⟨h, fun hp _ => reg_setReg_ne s _ _ v hp⟩
  case sp => exact ⟨h, fun _ hs => reg_setReg_ne s _ _ v hs⟩
  all_goals exact ⟨((mem_without _ _ _).mp h).1, fun _ _ => reg_setReg_ne s _ _ v ((mem_without _ _ _).mp h).2⟩

@[simp] theorem setReg_flagsUnwritten (s : State) (r : Reg) (v : Word) :
    (s.setReg r v).flagsUnwritten = s.flagsUnwritten := by cases r <;> rfl
@[simp] theorem setFlags_unwritten (s : State) (f : Flags) : (s.setFlags f).unwritten = s.unwritten := rfl
@[simp] theorem setFlags_flagsUnwritten (s : State) (f : Flags) : (s.setFlags f).flagsUnwritten = false := rfl
@[simp] theorem setRamWord_unwritten (s : State) (a v : Word) : (s.setRamWord a v).unwritten = s.unwritten := rfl
@[simp] theorem setRamWord_flagsUnwritten (s : State) (a v : Word) :
    (s.setRamWord a v).flagsUnwritten = s.flagsUnwritten := rfl
@[simp] theorem afterBusRead_unwritten (s : State) (a : Word) : (s.afterBusRead a).unwritten = s.unwritten := rfl
@[simp] theorem afterBusRead_flagsUnwritten (s : State) (a : Word) :
    (s.afterBusRead a).flagsUnwritten = s.flagsUnwritten := rfl
@[simp] theorem busWrite_unwritten (s : State) (a v : Word) : (s.busWrite a v).unwritten = s.unwritten := rfl
@[simp] theorem busWrite_flagsUnwritten (s : State) (a v : Word) :
    (s.busWrite a v).flagsUnwritten = s.flagsUnwritten := rfl

/-! ### Writing the flags -/

@[simp] theorem setFlags_flags (s : State) (f : Flags) : (s.setFlags f).flags = f := rfl
@[simp] theorem setFlags_reg (s : State) (f : Flags) (r : Reg) : (s.setFlags f).reg r = s.reg r := by cases r <;> rfl
@[simp] theorem setFlags_pc (s : State) (f : Flags) : (s.setFlags f).pc = s.pc := rfl
@[simp] theorem setFlags_sp (s : State) (f : Flags) : (s.setFlags f).sp = s.sp := rfl
@[simp] theorem setFlags_ram (s : State) (f : Flags) : (s.setFlags f).ram = s.ram := rfl
@[simp] theorem setFlags_busLog (s : State) (f : Flags) : (s.setFlags f).busLog = s.busLog := rfl
@[simp] theorem setFlags_hostAnswers (s : State) (f : Flags) : (s.setFlags f).hostAnswers = s.hostAnswers := rfl

/-! ### Writing RAM -/

@[simp] theorem setRamWord_ram (s : State) (a v : Word) : (s.setRamWord a v).ram = s.ram.write a.toNat v := rfl
@[simp] theorem setRamWord_reg (s : State) (a v : Word) (r : Reg) : (s.setRamWord a v).reg r = s.reg r := by
  cases r <;> rfl
@[simp] theorem setRamWord_pc (s : State) (a v : Word) : (s.setRamWord a v).pc = s.pc := rfl
@[simp] theorem setRamWord_sp (s : State) (a v : Word) : (s.setRamWord a v).sp = s.sp := rfl
@[simp] theorem setRamWord_flags (s : State) (a v : Word) : (s.setRamWord a v).flags = s.flags := rfl
@[simp] theorem setRamWord_busLog (s : State) (a v : Word) : (s.setRamWord a v).busLog = s.busLog := rfl
@[simp] theorem setRamWord_hostAnswers (s : State) (a v : Word) : (s.setRamWord a v).hostAnswers = s.hostAnswers := rfl

/-! ### Bus callbacks -/

@[simp] theorem afterBusRead_reg (s : State) (a : Word) (r : Reg) : (s.afterBusRead a).reg r = s.reg r := by cases r <;> rfl
@[simp] theorem afterBusRead_pc (s : State) (a : Word) : (s.afterBusRead a).pc = s.pc := rfl
@[simp] theorem afterBusRead_sp (s : State) (a : Word) : (s.afterBusRead a).sp = s.sp := rfl
@[simp] theorem afterBusRead_flags (s : State) (a : Word) : (s.afterBusRead a).flags = s.flags := rfl
@[simp] theorem afterBusRead_ram (s : State) (a : Word) : (s.afterBusRead a).ram = s.ram := rfl
@[simp] theorem afterBusRead_busLog (s : State) (a : Word) :
    (s.afterBusRead a).busLog = s.busLog ++ [.read a (s.busAnswer a)] := rfl
@[simp] theorem afterBusRead_hostAnswers (s : State) (a : Word) :
    (s.afterBusRead a).hostAnswers = s.hostAnswers.tail := rfl

@[simp] theorem busWrite_reg (s : State) (a v : Word) (r : Reg) : (s.busWrite a v).reg r = s.reg r := by cases r <;> rfl
@[simp] theorem busWrite_pc (s : State) (a v : Word) : (s.busWrite a v).pc = s.pc := rfl
@[simp] theorem busWrite_sp (s : State) (a v : Word) : (s.busWrite a v).sp = s.sp := rfl
@[simp] theorem busWrite_flags (s : State) (a v : Word) : (s.busWrite a v).flags = s.flags := rfl
@[simp] theorem busWrite_ram (s : State) (a v : Word) : (s.busWrite a v).ram = s.ram := rfl
@[simp] theorem busWrite_busLog (s : State) (a v : Word) : (s.busWrite a v).busLog = s.busLog ++ [.write a v] := rfl
@[simp] theorem busWrite_hostAnswers (s : State) (a v : Word) : (s.busWrite a v).hostAnswers = s.hostAnswers := rfl

/-! ### RAM words do not depend on the other fields -/

@[simp] theorem setReg_ramWord (s : State) (r : Reg) (v a : Word) : (s.setReg r v).ramWord a = s.ramWord a := by
  cases r <;> rfl
@[simp] theorem setFlags_ramWord (s : State) (f : Flags) (a : Word) : (s.setFlags f).ramWord a = s.ramWord a := rfl
@[simp] theorem afterBusRead_ramWord (s : State) (b a : Word) : (s.afterBusRead b).ramWord a = s.ramWord a := rfl
@[simp] theorem busWrite_ramWord (s : State) (b v a : Word) : (s.busWrite b v).ramWord a = s.ramWord a := rfl

end Sys2Proof.Machine
end

