-- ==== Sys2Proof/Laws/Memory.lean ====
section
/-! SUPPORT. RAM: a read after a write, and that every operation keeps the canonical form. -/

namespace Sys2Proof.Machine

/-- The word written is the word read. -/
@[simp] theorem Memory.read_write_self (m : Memory) (a : Nat) (v : Word) : (m.write a v).read a = some v := by
  induction m with
  | nil => simp [Memory.write, Memory.read]
  | cons c m ih =>
    obtain ⟨k, w⟩ := c
    unfold Memory.write
    split_ifs with h1 h2
    · simp [Memory.read]
    · simp [Memory.read]
    · simpa [Memory.read, Ne.symm h2] using ih

/-- A write leaves every other key alone. -/
theorem Memory.read_write_ne (m : Memory) {a b : Nat} (v : Word) (h : b ≠ a) : (m.write a v).read b = m.read b := by
  induction m with
  | nil => simp [Memory.write, Memory.read, Ne.symm h]
  | cons c m ih =>
    obtain ⟨k, w⟩ := c
    unfold Memory.write
    split_ifs with h1 h2
    · simp [Memory.read, Ne.symm h]
    · subst h2
      simp [Memory.read, Ne.symm h]
    · simp only [Memory.read, ih]

/-- Writing a key in RAM, from `lo` on, keeps the canonical form from `lo` on. -/
theorem Memory.write_wfFrom (m : Memory) {lo a : Nat} (v : Word) (h : m.wfFrom lo = true) (hlo : lo ≤ a)
    (ha : a < 0x8000) : (m.write a v).wfFrom lo = true := by
  induction m generalizing lo with
  | nil => simp [Memory.write, Memory.wfFrom, hlo, ha]
  | cons c m ih =>
    obtain ⟨k, w⟩ := c
    simp only [Memory.wfFrom, Bool.and_eq_true, decide_eq_true_eq] at h
    obtain ⟨⟨hk, hk8⟩, hm⟩ := h
    unfold Memory.write
    split_ifs with h1 h2
    · simp only [Memory.wfFrom, Bool.and_eq_true, decide_eq_true_eq]
      exact ⟨⟨hlo, ha⟩, ⟨by omega, hk8⟩, hm⟩
    · subst h2
      simp [Memory.wfFrom, hlo, ha, hm]
    · simp only [Memory.wfFrom, Bool.and_eq_true, decide_eq_true_eq]
      exact ⟨⟨hk, hk8⟩, ih hm (by omega)⟩

/-- Writing a RAM address keeps the canonical form. -/
theorem Memory.write_wf (m : Memory) {a : Nat} (v : Word) (h : m.wf = true) (ha : a < 0x8000) : (m.write a v).wf = true :=
  Memory.write_wfFrom m v h (Nat.zero_le a) ha

/-- No RAM word is listed twice or out of range at reset. -/
theorem reset_ram_wf : State.reset.ram.wf = true := rfl

/-- What RAM reads after RAM[a] <- v, at every address. -/
theorem ramWord_setRamWord (s : State) (a v b : Word) :
    (s.setRamWord a v).ramWord b = if b = a then v else s.ramWord b := by
  by_cases h : b = a
  · subst h
    simp [State.ramWord]
  · have hn : b.toNat ≠ a.toNat := fun e => h (BitVec.eq_of_toNat_eq e)
    simp [State.ramWord, Memory.read_write_ne _ _ hn, h]

/-- Placing words keeps the canonical form when they fit in RAM. -/
theorem placeWords_wf (ws : List Word) (s : State) (a : Nat) (h : s.ram.wf = true) (ha : a + ws.length ≤ 0x8000) :
    (s.placeWords a ws).ram.wf = true := by
  induction ws generalizing s a with
  | nil => exact h
  | cons w ws ih =>
    simp only [List.length_cons] at ha
    refine ih _ _ ?_ (by omega)
    exact Memory.write_wf _ _ h (by simp only [BitVec.toNat_ofNat]; omega)

/-- Placing words changes RAM only. -/
theorem placeWords_frame (ws : List Word) (s : State) (a : Nat) :
    (∀ r, (s.placeWords a ws).reg r = s.reg r) ∧ (s.placeWords a ws).flags = s.flags ∧
      (s.placeWords a ws).busLog = s.busLog ∧ (s.placeWords a ws).hostAnswers = s.hostAnswers ∧
      (s.placeWords a ws).config = s.config := by
  induction ws generalizing s a with
  | nil => simp [State.placeWords]
  | cons w ws ih => simpa [State.placeWords] using ih (s.setRamWord (BitVec.ofNat 16 a) w) (a + 1)

end Sys2Proof.Machine
end

