-- ==== Sys2Proof/Laws/Ops.lean ====
section
/-! SUPPORT. One lemma for each shared operation: all that it can do. -/

namespace Sys2Proof.Machine

/-! ### Data accesses -/

/-- A data read in RAM: the word, and nothing changes (R56). -/
theorem memRead_ram (s : State) (a : Word) (h : InRam a) : s.memRead a = (s.ramWord a, s) := if_pos h

/-- A data read above 0x7FFF: one callback and its answer (R56). -/
theorem memRead_bus (s : State) (a : Word) (h : ¬InRam a) : s.memRead a = (s.busAnswer a, s.afterBusRead a) := if_neg h

/-- The answer is the one the host holds ready. -/
theorem busAnswer_ready (s : State) (a v : Word) (rest : List Word) (h : s.hostAnswers = v :: rest) :
    s.busAnswer a = v := by
  simp [State.busAnswer, h]

/-- A data write in RAM (R57). -/
theorem memWrite_ram (s : State) (a v : Word) (h : InRam a) : s.memWrite a v = s.setRamWord a v := if_pos h

/-- A data write above 0x7FFF: one callback (R57). -/
theorem memWrite_bus (s : State) (a v : Word) (h : ¬InRam a) : s.memWrite a v = s.busWrite a v := if_neg h

/-- A data read or write keeps every register. -/
@[simp] theorem memRead_reg (s : State) (a : Word) (r : Reg) : (s.memRead a).2.reg r = s.reg r := by
  unfold State.memRead; split <;> simp

@[simp] theorem memWrite_reg (s : State) (a v : Word) (r : Reg) : (s.memWrite a v).reg r = s.reg r := by
  unfold State.memWrite; split <;> simp

@[simp] theorem memRead_flags (s : State) (a : Word) : (s.memRead a).2.flags = s.flags := by
  unfold State.memRead; split <;> simp

@[simp] theorem memWrite_flags (s : State) (a v : Word) : (s.memWrite a v).flags = s.flags := by
  unfold State.memWrite; split <;> simp

@[simp] theorem memRead_ramWord (s : State) (a b : Word) : (s.memRead a).2.ramWord b = s.ramWord b := by
  unfold State.memRead; split <;> simp

@[simp] theorem memRead_config (s : State) (a : Word) : (s.memRead a).2.config = s.config := by
  unfold State.memRead; split <;> simp

@[simp] theorem memWrite_config (s : State) (a v : Word) : (s.memWrite a v).config = s.config := by
  unfold State.memWrite; split <;> simp

/-! ### The stack -/

/-- What a push can do (R58, R116): write at SP and decrement it; above 0x7FFF, fault or write to the bus. -/
theorem push_cases (s : State) (v : Word) (b : State) :
    (InRam s.sp ∧ s.push v b = .ok ((s.setRamWord s.sp v).setReg .sp (s.sp - 1))) ∨
      (¬InRam s.sp ∧ s.config.stackOutsideRam = .refuse ∧ s.push v b = .error (.stackOutOfRam s.sp b)) ∨
      (¬InRam s.sp ∧ s.config.stackOutsideRam = .bus ∧ s.push v b = .ok ((s.busWrite s.sp v).setReg .sp (s.sp - 1))) := by
  by_cases h : InRam s.sp
  · exact .inl ⟨h, by simp [State.push, State.stackWrite, h]⟩
  · cases hc : s.config.stackOutsideRam
    · exact .inr (.inl ⟨h, rfl, by simp [State.push, State.stackWrite, h, hc]⟩)
    · exact .inr (.inr ⟨h, rfl, by simp [State.push, State.stackWrite, h, hc]⟩)

/-- What a pop can do (R58, R118): increment SP and read there; above 0x7FFF, fault or read from the bus. -/
theorem popInto_cases (s : State) (r1 : Reg) (b : State) :
    (InRam (s.sp + 1) ∧ s.popInto r1 b = .ok ((s.setReg .sp (s.sp + 1)).setReg r1 (s.ramWord (s.sp + 1)))) ∨
      (¬InRam (s.sp + 1) ∧ s.config.stackOutsideRam = .refuse ∧
        s.popInto r1 b = .error (.stackOutOfRam (s.sp + 1) b)) ∨
      (¬InRam (s.sp + 1) ∧ s.config.stackOutsideRam = .bus ∧ s.popInto r1 b =
        .ok (((s.setReg .sp (s.sp + 1)).afterBusRead (s.sp + 1)).setReg r1 (s.busAnswer (s.sp + 1)))) := by
  by_cases h : InRam (s.sp + 1)
  · exact .inl ⟨h, by rw [State.popInto, State.stackRead, if_pos h]; simp⟩
  · cases hc : s.config.stackOutsideRam
    · exact .inr (.inl ⟨h, rfl, by rw [State.popInto, State.stackRead, if_neg h, setReg_config, hc]⟩)
    · exact .inr (.inr ⟨h, rfl, by rw [State.popInto, State.stackRead, if_neg h, setReg_config, hc]; rfl⟩)

/-! ### Operands and results -/

/-- The operand is the sum of a register and the immediate (R86). -/
theorem operand_eq (s : State) (r : Reg) (imm : Immed) : s.operand r imm = s.reg r + s.immed imm := rfl

/-- A two-word immediate is its second word (R85). -/
@[simp] theorem immed_wide_value (s : State) (w : Word) : s.immed (.wide w) = w := rfl

/-- A one-word immediate is its four bits sign-extended, by TEENY_IMM_EXT (R85). -/
theorem immed_teeny_sext (s : State) (i : BitVec 4) (h : s.config.teenyImmExt = .sext) :
    s.immed (.teeny i) = i.signExtend 16 := by simp [State.immed, h, widenImm4]

/-- A flag writer with a destination that ALU_RZ_FLAGS accepts has its own outcome. -/
theorem unlessRefused_accepts {s : State} {r1 : Reg} (h : s.accepts r1) (fmt : Format)
    (o : Host.Outcome State Fault Refusal) : s.unlessRefused r1 fmt o = o := if_neg fun hc => h hc.1 hc.2

/-- A refused destination (R32, U10). -/
theorem unlessRefused_refuses {s : State} (h : s.config.aluRzFlags = .refuse) (fmt : Format)
    (o : Host.Outcome State Fault Refusal) : s.unlessRefused .rZ fmt o = .refused (.zeroDestination (s.beforeFetch fmt)) :=
  if_pos ⟨rfl, h⟩

/-- Only an accepted destination lets a flag writer reach a next state. -/
theorem unlessRefused_next {s t : State} {r1 : Reg} {fmt : Format} {o : Host.Outcome State Fault Refusal}
    (h : s.unlessRefused r1 fmt o = .next t) : s.accepts r1 ∧ o = .next t := by
  by_cases hc : r1 = .rZ ∧ s.config.aluRzFlags = .refuse
  · rw [State.unlessRefused, if_pos hc] at h
    cases h
  · rw [State.unlessRefused, if_neg hc] at h
    exact ⟨fun h1 h2 => hc ⟨h1, h2⟩, h⟩

/-- The operand does not depend on what the instruction has already done to other registers. -/
theorem operand_setReg_ne (s : State) (r1 r : Reg) (v : Word) (imm : Immed) (h : r ≠ r1) :
    (s.setReg r1 v).operand r imm = s.operand r imm := by
  simp [State.operand, reg_setReg_ne s r1 r v h]

/-- SetFlags compares the result with 0 (R30). -/
theorem ofResult_flagsCompare (rule : AluFlagRule) (r : Word) : FlagsCompare r.toInt 0 (Flags.ofResult rule r) := by
  cases rule
  have h0 : r = 0#16 ↔ r.toInt = 0 :=
    ⟨by rintro rfl; rfl, fun h => BitVec.eq_of_toInt_eq (by simpa using h)⟩
  simp [FlagsCompare, Flags.ofResult, h0]

/-- The flags of a flag writer come from its flag value. -/
theorem flagSource_eq (s : State) (r1 : Reg) (v : Word) : flagSource s.config.aluRzFlags r1 v = s.flagValue r1 v := by
  cases h : s.config.aluRzFlags <;> simp [flagSource, State.flagValue, h]

/-- What the write-back of a flag-writing instruction does: all of it. -/
theorem writeResult_effect (s : State) (r1 : Reg) (v : Word) : AluEffect r1 v s (s.writeResult r1 v) := by
  refine ⟨fun r => ?_, ?_, fun a => ?_, ?_, ?_⟩
  · simp [State.writeResult, reg_setReg]
  · simpa [State.writeResult, flagSource_eq] using ofResult_flagsCompare _ (s.flagValue r1 v)
  · simp [State.writeResult]
  · simp [State.writeResult]
  · simp [State.writeResult]

@[simp] theorem writeResult_ram (s : State) (r1 : Reg) (v : Word) : (s.writeResult r1 v).ram = s.ram := by
  simp [State.writeResult]

@[simp] theorem writeResult_busLog (s : State) (r1 : Reg) (v : Word) : (s.writeResult r1 v).busLog = s.busLog := by
  simp [State.writeResult]

@[simp] theorem writeResult_config (s : State) (r1 : Reg) (v : Word) : (s.writeResult r1 v).config = s.config := by
  simp [State.writeResult]

@[simp] theorem writeResult_hostAnswers (s : State) (r1 : Reg) (v : Word) :
    (s.writeResult r1 v).hostAnswers = s.hostAnswers := by
  simp [State.writeResult]

/-- What an instruction that computes a result can do. -/
theorem aluOp_accepts {s : State} {r1 : Reg} (h : s.accepts r1) (f : Word → Word → Word) (r2 : Reg) (imm : Immed) :
    aluOp f r1 r2 imm s = .next (s.writeResult r1 (f (s.reg r1) (s.operand r2 imm))) := unlessRefused_accepts h _ _

/-- What the common rule of BTS, BTC, BTF can do (R130). -/
theorem bitOp_cases {s : State} {r1 : Reg} (ha : s.accepts r1) (f : Word → Word → Word) (r2 : Reg) (imm : Immed) :
    ((s.operand r2 imm).toNat ≤ 15 ∧
        bitOp f r1 r2 imm s = .next (s.writeResult r1 (f (s.reg r1) (1#16 <<< (s.operand r2 imm).toNat)))) ∨
      (15 < (s.operand r2 imm).toNat ∧ bitOp f r1 r2 imm s = .next s) := by
  rw [bitOp, unlessRefused_accepts ha]
  by_cases h : (s.operand r2 imm).toNat ≤ 15
  · exact .inl ⟨h, if_pos h⟩
  · exact .inr ⟨by omega, if_neg h⟩

/-- What DIV and MOD can do (R144, R145, R149). -/
theorem divOp_cases {s : State} {r1 : Reg} (ha : s.accepts r1) (f : Word → Word → Word) (r2 : Reg) (imm : Immed) :
    (s.operand r2 imm ≠ 0 ∧ divOp f r1 r2 imm s = .next (s.writeResult r1 (f (s.reg r1) (s.operand r2 imm)))) ∨
      (s.operand r2 imm = 0 ∧ s.config.divZero = .refuse ∧ divOp f r1 r2 imm s =
        .fault (.divideByZero (s.instrAddress (Immed.format imm)) (s.beforeFetch (Immed.format imm)))) ∨
      (s.operand r2 imm = 0 ∧ s.config.divZero = .nop ∧ divOp f r1 r2 imm s = .next s) := by
  by_cases h : s.operand r2 imm = 0
  · rw [divOp, if_pos h, unlessRefused_accepts ha]
    cases hc : s.config.divZero
    · exact .inr (.inl ⟨h, rfl, rfl⟩)
    · exact .inr (.inr ⟨h, rfl, rfl⟩)
  · exact .inl ⟨h, by rw [divOp, if_neg h, aluOp_accepts ha]⟩

/-- Each bit of SHF's result (R166), under every SHF_FILL and SHF_BIG. -/
theorem shifted_getLsbD (fill : ShfFill) (big : ShfBig) (v count : Word) {k : Nat} (hk : k < 16) :
    (shifted fill big v count).getLsbD k =
      if big = .zero ∧ 16 ≤ magnitude count then false
      else if count.toInt < 0 then decide (shiftDistance big count ≤ k) && v.getLsbD (k - shiftDistance big count)
      else if k + shiftDistance big count < 16 then v.getLsbD (k + shiftDistance big count)
      else decide (fill = .arithmetic) && v.getLsbD 15 := by
  unfold shifted
  generalize shiftDistance big count = d
  split
  · simp
  · split
    · rw [if_neg (by omega)]
      cases fill
      · by_cases h : k + d < 16
        · simp [h, Nat.add_comm]
        · simpa [h] using BitVec.getLsbD_of_ge v (d + k) (by omega)
      · rw [BitVec.getLsbD_sshiftRight]
        by_cases h : k + d < 16 <;> simp [h, hk, Nat.add_comm d k, BitVec.msb_eq_getLsbD_last]
    · rw [if_pos (by omega), BitVec.getLsbD_shiftLeft]
      by_cases h : k < d
      · simp [h]
      · simp [hk, h]
        omega

/-- SHF is refused for its count, or is the common rule with `shifted` (R166). -/
theorem shf_cases (r1 r2 : Reg) (imm : Immed) (s : State) :
    (s.config.shfBig = .refuse ∧ 16 ≤ magnitude (s.operand r2 imm) ∧
        execShf r1 r2 imm s = .refused (.shiftCount (s.beforeFetch (Immed.format imm)))) ∨
      (¬(s.config.shfBig = .refuse ∧ 16 ≤ magnitude (s.operand r2 imm)) ∧
        execShf r1 r2 imm s = aluOp (shifted s.config.shfFill s.config.shfBig) r1 r2 imm s) := by
  unfold execShf
  split
  · exact .inl ⟨‹_ ∧ _›.1, ‹_ ∧ _›.2, rfl⟩
  · exact .inr ⟨‹_›, rfl⟩

/-- ROT is refused for its count, or is the common rule with `rotated` (R168). -/
theorem rot_cases (r1 r2 : Reg) (imm : Immed) (s : State) :
    (s.config.rotBig = .refuse ∧ 16 ≤ magnitude (s.operand r2 imm) ∧
        execRot r1 r2 imm s = .refused (.rotateCount (s.beforeFetch (Immed.format imm)))) ∨
      (¬(s.config.rotBig = .refuse ∧ 16 ≤ magnitude (s.operand r2 imm)) ∧
        execRot r1 r2 imm s = aluOp (rotated s.config.rotBig) r1 r2 imm s) := by
  unfold execRot
  split
  · exact .inl ⟨‹_ ∧ _›.1, ‹_ ∧ _›.2, rfl⟩
  · exact .inr ⟨‹_›, rfl⟩

/-! ### Control -/

/-- What a jump can do (R184): write PC, or nothing. -/
theorem jumpOn_cases (s : State) (mask : Mask) (r1 : Reg) (immed : Word) :
    (Mask.taken mask s.flags = true ∧ s.jumpOn mask r1 immed = s.setReg .pc (s.reg r1 + immed)) ∨
      (Mask.taken mask s.flags = false ∧ s.jumpOn mask r1 immed = s) := by
  cases h : Mask.taken mask s.flags
  · exact .inr ⟨rfl, by simp [State.jumpOn, h]⟩
  · exact .inl ⟨rfl, by simp [State.jumpOn, h]⟩

/-! ### Fetch -/

/-- A fetch address is in RAM (R27). -/
theorem fetchAddress_inRam (s : State) : InRam s.fetchAddress := by
  unfold State.fetchAddress; split
  · assumption
  · decide

/-- The state after the fetch differs from the one before in PC only (R25). -/
theorem afterFetch_reg (s : State) (r : Reg) (h : r ≠ .pc) : s.afterFetch.reg r = s.reg r :=
  reg_setReg_ne _ _ _ _ h

@[simp] theorem afterFetch_flags (s : State) : s.afterFetch.flags = s.flags := by simp [State.afterFetch]
@[simp] theorem afterFetch_ram (s : State) : s.afterFetch.ram = s.ram := by simp [State.afterFetch]
@[simp] theorem afterFetch_busLog (s : State) : s.afterFetch.busLog = s.busLog := by simp [State.afterFetch]
@[simp] theorem afterFetch_hostAnswers (s : State) : s.afterFetch.hostAnswers = s.hostAnswers := by
  simp [State.afterFetch]
@[simp] theorem afterFetch_ramWord (s : State) (a : Word) : s.afterFetch.ramWord a = s.ramWord a := by
  simp [State.afterFetch]

@[simp] theorem afterFetch_config (s : State) : s.afterFetch.config = s.config := by simp [State.afterFetch]

/-! ### Reads of what nothing has written -/

/-- Where no parameter is `fault` nothing is unset (R222). -/
theorem unset_false {s : State} (h : Config.noUnsetFault s.config) (source : ReadSource) : s.unset source = false := by
  cases source <;> simp [State.unset, h.1, h.2.1, h.2.2]

/-- Where no parameter is `fault` a read changes no outcome. -/
theorem unlessUnset_eq {s : State} (h : Config.noUnsetFault s.config) (l : List ReadSource) (b : State)
    (o : Host.Outcome State Fault Refusal) : s.unlessUnset l b o = o := by
  have hn : l.find? s.unset = none := List.find?_eq_none.mpr fun x _ => by simp [unset_false h x]
  simp [State.unlessUnset, hn]

/-- What a check of reads can do: the outcome itself, or UninitialisedRead. -/
theorem unlessUnset_cases (s : State) (l : List ReadSource) (b : State) (o : Host.Outcome State Fault Refusal) :
    s.unlessUnset l b o = o ∨ ∃ source, s.unlessUnset l b o = .fault (.uninitialisedRead source b) := by
  unfold State.unlessUnset
  split
  · exact .inr ⟨_, rfl⟩
  · exact .inl rfl

/-- What a step can do where no parameter is `fault`: stop at a straddling fetch, or execute what it fetched
(R88, R90). -/
theorem step_cases {s : State} (h : Config.noUnsetFault s.config) :
    (s.straddles = true ∧ step s = s.straddleOutcome) ∨
      (s.straddles = false ∧ step s = exec s.fetched s.afterFetch) := by
  have h' : Config.noUnsetFault s.afterFetch.config := by rw [afterFetch_config]; exact h
  rw [step, unlessUnset_eq h, unlessUnset_eq h']
  cases s.straddles
  · exact .inr ⟨rfl, rfl⟩
  · exact .inl ⟨rfl, rfl⟩

/-- Where a step's next state comes from. -/
theorem step_next {s t : State} (h : step s = .next t) :
    (s.straddles = true ∧ s.straddleOutcome = .next t) ∨
      (s.straddles = false ∧ exec s.fetched s.afterFetch = .next t) := by
  rw [step] at h
  rcases unlessUnset_cases s s.fetchReads s.atFetch
    (if s.straddles then s.straddleOutcome
      else s.afterFetch.unlessUnset (s.afterFetch.instrReads s.fetched) s.atFetch (exec s.fetched s.afterFetch))
    with e | ⟨source, e⟩
  · rw [e] at h
    cases hs : s.straddles
    · rw [hs, if_neg Bool.false_ne_true] at h
      rcases unlessUnset_cases s.afterFetch (s.afterFetch.instrReads s.fetched) s.atFetch (exec s.fetched s.afterFetch)
        with e' | ⟨source, e'⟩
      · exact .inr ⟨rfl, e' ▸ h⟩
      · rw [e'] at h
        cases h
    · rw [hs, if_pos rfl] at h
      exact .inl ⟨rfl, h⟩
  · rw [e] at h
    cases h

end Sys2Proof.Machine
end

