-- ==== Sys2Proof/Laws/PerInstr.lean ====
section
/-! SUPPORT. Facts stated of every instruction, one lemma per constructor: an instruction's words are as many as the
teeny bit of its first word says (R82). -/

namespace Sys2Proof.Laws

/-- The words of `i` are one when the teeny bit of the first is set, else two (R82). -/
def EncodeLength.Statement (i : Instr) : Prop :=
  WellFormed i = true → ∃ w ws, encode i = w :: ws ∧ ws.length = if teenyBit w then 0 else 1

/-- The words of an instruction with an immediate. -/
theorem encodeImmed_length (op : Nat) (a b : BitVec 3) (imm : Immed) :
    ∃ w ws, encodeImmed op a b imm = w :: ws ∧ ws.length = if teenyBit w then 0 else 1 := by
  cases imm <;> exact ⟨_, _, rfl, by simp [teenyBit_firstWord]⟩

/-- The words of an instruction without an immediate. -/
theorem encodeBare_length (op : Nat) (a : BitVec 3) (fmt : Format) :
    ∃ w ws, encodeBare op a fmt = w :: ws ∧ ws.length = if teenyBit w then 0 else 1 := by
  cases fmt <;> exact ⟨_, _, rfl, by simp [teenyBit_firstWord]⟩

/-- The words of a jump. -/
theorem encodeJump_length (r1 : Reg) (m : Mask) (v : Word) :
    ∃ w ws, encodeJump r1 m v = w :: ws ∧ ws.length = if teenyBit w then 0 else 1 :=
  ⟨_, _, rfl, by simp [teenyBit_firstWord]⟩

/-- The teeny bit is bit 0 of the six bits from 10 on. -/
theorem teenyBit_of_extract {w : Word} {v : BitVec 6} (h : w.extractLsb' 10 6 = v) : teenyBit w = v.getLsbD 0 := by
  simp [← h, teenyBit]

theorem EncodeLength.set (r1 : Reg) (r2 : Reg) (imm : Immed) : Statement (.set r1 r2 imm) := fun _ => encodeImmed_length _ _ _ _
theorem EncodeLength.lod (r1 : Reg) (r2 : Reg) (imm : Immed) : Statement (.lod r1 r2 imm) := fun _ => encodeImmed_length _ _ _ _
theorem EncodeLength.str (r1 : Reg) (r2 : Reg) (imm : Immed) : Statement (.str r1 r2 imm) := fun _ => encodeImmed_length _ _ _ _
theorem EncodeLength.psh (r2 : Reg) (imm : Immed) : Statement (.psh r2 imm) := fun _ => encodeImmed_length _ _ _ _
theorem EncodeLength.pop (r1 : Reg) (fmt : Format) : Statement (.pop r1 fmt) := fun _ => encodeBare_length _ _ _
theorem EncodeLength.bts (r1 : Reg) (r2 : Reg) (imm : Immed) : Statement (.bts r1 r2 imm) := fun _ => encodeImmed_length _ _ _ _
theorem EncodeLength.btc (r1 : Reg) (r2 : Reg) (imm : Immed) : Statement (.btc r1 r2 imm) := fun _ => encodeImmed_length _ _ _ _
theorem EncodeLength.btf (r1 : Reg) (r2 : Reg) (imm : Immed) : Statement (.btf r1 r2 imm) := fun _ => encodeImmed_length _ _ _ _
theorem EncodeLength.cal (r2 : Reg) (imm : Immed) : Statement (.cal r2 imm) := fun _ => encodeImmed_length _ _ _ _
theorem EncodeLength.add (r1 : Reg) (r2 : Reg) (imm : Immed) : Statement (.add r1 r2 imm) := fun _ => encodeImmed_length _ _ _ _
theorem EncodeLength.sub (r1 : Reg) (r2 : Reg) (imm : Immed) : Statement (.sub r1 r2 imm) := fun _ => encodeImmed_length _ _ _ _
theorem EncodeLength.mpy (r1 : Reg) (r2 : Reg) (imm : Immed) : Statement (.mpy r1 r2 imm) := fun _ => encodeImmed_length _ _ _ _
theorem EncodeLength.div (r1 : Reg) (r2 : Reg) (imm : Immed) : Statement (.div r1 r2 imm) := fun _ => encodeImmed_length _ _ _ _
theorem EncodeLength.mod (r1 : Reg) (r2 : Reg) (imm : Immed) : Statement (.mod r1 r2 imm) := fun _ => encodeImmed_length _ _ _ _
theorem EncodeLength.and (r1 : Reg) (r2 : Reg) (imm : Immed) : Statement (.and r1 r2 imm) := fun _ => encodeImmed_length _ _ _ _
theorem EncodeLength.or (r1 : Reg) (r2 : Reg) (imm : Immed) : Statement (.or r1 r2 imm) := fun _ => encodeImmed_length _ _ _ _
theorem EncodeLength.xor (r1 : Reg) (r2 : Reg) (imm : Immed) : Statement (.xor r1 r2 imm) := fun _ => encodeImmed_length _ _ _ _
theorem EncodeLength.shf (r1 : Reg) (r2 : Reg) (imm : Immed) : Statement (.shf r1 r2 imm) := fun _ => encodeImmed_length _ _ _ _
theorem EncodeLength.rot (r1 : Reg) (r2 : Reg) (imm : Immed) : Statement (.rot r1 r2 imm) := fun _ => encodeImmed_length _ _ _ _
theorem EncodeLength.neg (r1 : Reg) (fmt : Format) : Statement (.neg r1 fmt) := fun _ => encodeBare_length _ _ _
theorem EncodeLength.cmp (r1 : Reg) (r2 : Reg) (imm : Immed) : Statement (.cmp r1 r2 imm) := fun _ => encodeImmed_length _ _ _ _
theorem EncodeLength.jmp (r1 : Reg) (mask : Mask) (imm16 : Word) : Statement (.jmp r1 mask imm16) := fun _ => encodeJump_length _ _ _
theorem EncodeLength.dly (r2 : Reg) (imm : Immed) : Statement (.dly r2 imm) := fun _ => encodeImmed_length _ _ _ _
theorem EncodeLength.lup (r1 : Reg) (r2 : Reg) (imm : Immed) : Statement (.lup r1 r2 imm) := fun _ => encodeImmed_length _ _ _ _
theorem EncodeLength.reservedJmpOneWord (w1 : Word) : Statement (.reservedJmpOneWord w1) := fun h =>
  ⟨w1, [], rfl, by simp [teenyBit_of_extract (eq_of_beq h)]⟩
theorem EncodeLength.reservedJmpBit3 (w1 : Word) (imm16 : Word) : Statement (.reservedJmpBit3 w1 imm16) := fun h =>
  ⟨w1, [imm16], rfl, by simp [teenyBit_of_extract (eq_of_beq (Bool.and_eq_true_iff.mp h).1)]⟩
theorem EncodeLength.undefinedOpcode (w1 : Word) : Statement (.undefinedOpcode w1) := fun _ => by
  cases h : teenyBit w1 <;> exact ⟨w1, _, by simp [encode, h]; rfl, by simp [h]⟩
theorem EncodeLength.inc (r1 : Reg) : Statement (.inc r1) := fun _ => encodeImmed_length 9 r1.field 0 (.teeny 1)
theorem EncodeLength.dec (r1 : Reg) : Statement (.dec r1) := fun _ => encodeImmed_length 10 r1.field 0 (.teeny 1)
theorem EncodeLength.ret : Statement (.ret) := fun _ => encodeBare_length 4 (Reg.field .pc) .w1
theorem EncodeLength.je (r1 : Reg) (imm16 : Word) : Statement (.je r1 imm16) := fun _ => encodeJump_length _ _ _
theorem EncodeLength.jne (r1 : Reg) (imm16 : Word) : Statement (.jne r1 imm16) := fun _ => encodeJump_length _ _ _
theorem EncodeLength.jl (r1 : Reg) (imm16 : Word) : Statement (.jl r1 imm16) := fun _ => encodeJump_length _ _ _
theorem EncodeLength.jle (r1 : Reg) (imm16 : Word) : Statement (.jle r1 imm16) := fun _ => encodeJump_length _ _ _
theorem EncodeLength.jg (r1 : Reg) (imm16 : Word) : Statement (.jg r1 imm16) := fun _ => encodeJump_length _ _ _
theorem EncodeLength.jge (r1 : Reg) (imm16 : Word) : Statement (.jge r1 imm16) := fun _ => encodeJump_length _ _ _

end Sys2Proof.Laws
end

