-- ==== Sys2Proof/Machine/Assembler.lean ====
section
/-! DEFINITION. The assembler text level as far as spec/30_encoding.md describes it (R100 to R109): a source text to
the words of its image. The step function does not use it. -/

namespace Sys2Proof.Machine

/-! ### Tokens -/

/-- Why a source text has no image. The assembler's error behaviour is not in the source: which texts are turned down,
and with which of these, is a DESIGN CHOICE (log entry 30). -/
inductive AsmError where
  /-- A token is neither a register, a literal, a label nor an identifier. -/
  | badToken
  /-- The operands do not have a shape that R102 lists for the mnemonic. -/
  | badOperands
  /-- A directive without one identifier and one value (R105). -/
  | badDirective
  /-- `.var`: where the variable's word is placed is not in the source (R105). -/
  | variablePlacement
  /-- A label or identifier that nothing defines. -/
  | undefinedSymbol
  /-- A literal outside -32768 to 65535. -/
  | literalRange
  deriving DecidableEq, Repr

/-- A token ends here: put it in front, if it has a character (they are held last first). -/
def endToken (acc : List Char) (ts : List (List Char)) : List (List Char) :=
  if acc.isEmpty then ts else acc.reverse :: ts

/-- The tokens of one line: a comma, `+`, `[` and `]` are tokens, white space separates, a character literal is one
token, and `;` starts a comment (R100, R103, R107). A character between single quotes is that character's literal
whatever it is, `;` and the separators among them: R103 and R107 both speak of a quoted `;` and the spec does not say
which wins, so that the literal does is a DESIGN CHOICE (log entry 30). -/
def tokensOf : List Char → List Char → List (List Char)
  | [], acc => endToken acc []
  | '\'' :: c :: '\'' :: cs, acc => endToken acc (['\'', c, '\''] :: tokensOf cs [])
  | c :: cs, acc =>
    if c = ';' then endToken acc []
    else if c = ' ' ∨ c = '\t' ∨ c = '\r' then endToken acc (tokensOf cs [])
    else if c = ',' ∨ c = '+' ∨ c = '[' ∨ c = ']' then endToken acc ([c] :: tokensOf cs [])
    else tokensOf cs (c :: acc)

/-- The lines of a text. -/
def linesOf : List Char → List Char → List (List Char)
  | [], acc => [acc.reverse]
  | c :: cs, acc => if c = '\n' then acc.reverse :: linesOf cs [] else linesOf cs (c :: acc)

/-- The register names (R101), spelled exactly so: that register names are case-sensitive is a DESIGN CHOICE, for R100
says that it is not in the source (log entry 30). -/
def registerOf : List Char → Option Reg
  | ['r', 'Z'] => some .rZ
  | ['P', 'C'] => some .pc
  | ['S', 'P'] => some .sp
  | ['r', 'A'] => some .rA
  | ['r', 'B'] => some .rB
  | ['r', 'C'] => some .rC
  | ['r', 'D'] => some .rD
  | ['r', 'E'] => some .rE
  | _ => none

/-- The value of a digit in a base up to 16; hexadecimal digits in either case (R103). -/
def digitOf (base : Nat) (c : Char) : Option Nat :=
  let n := c.toNat
  let d :=
    if 48 ≤ n ∧ n ≤ 57 then n - 48
    else if 65 ≤ n ∧ n ≤ 70 then n - 55
    else if 97 ≤ n ∧ n ≤ 102 then n - 87
    else base
  if d < base then some d else none

/-- The number that digits write, on from `acc`. -/
def digitsFrom (base acc : Nat) : List Char → Option Nat
  | [] => some acc
  | c :: cs =>
    match digitOf base c with
    | some d => digitsFrom base (acc * base + d) cs
    | none => none

/-- The number that one or more digits write. -/
def digitsOf (base : Nat) : List Char → Option Nat
  | [] => none
  | c :: cs => digitsFrom base 0 (c :: cs)

/-- The digits of a binary literal with the separators `_` taken out; none when a `_` stands before the first or after
the last digit, for R103 has it between digits. -/
def binaryDigits (ds : List Char) : Option (List Char) :=
  if ds.head? = some '_' ∨ ds.getLast? = some '_' then none else some (ds.filter (fun c => c != '_'))

/-- A literal (R103): hexadecimal, binary with `_` ignored between digits, a character, decimal; and a negative decimal,
which the spec's own listings use (log entry 30). -/
def literalOf : List Char → Option Int
  | '0' :: 'x' :: ds => (digitsOf 16 ds).map Int.ofNat
  | '0' :: 'b' :: ds => ((binaryDigits ds).bind (digitsOf 2)).map Int.ofNat
  | ['\'', c, '\''] => some (Int.ofNat c.toNat)
  | '-' :: ds => (digitsOf 10 ds).map (fun n => -Int.ofNat n)
  | ds => (digitsOf 10 ds).map Int.ofNat

/-- A character that may begin an identifier or a label (R104, R105): `!`, a letter or `_`; any characters may follow.
The rules do not say what an identifier is made of: DESIGN CHOICE (log entry 30). -/
def startsName (c : Char) : Bool :=
  let n := c.toNat
  (65 ≤ n && n ≤ 90) || (97 ≤ n && n ≤ 122) || c == '_' || c == '!'

/-- An immediate as written (R103): a literal, or a label or identifier. -/
inductive AsmImm where
  | literal (v : Int)
  | symbol (name : List Char)
  deriving DecidableEq, Repr

/-- The immediate a token writes. A register's name writes none, even where a `.const` has that name: R102 has no
register where an immediate stands, and that such a text is turned down is a DESIGN CHOICE (log entry 30). -/
def asmImmOf (t : List Char) : Option AsmImm :=
  match registerOf t, literalOf t with
  | some _, _ => none
  | none, some v => some (.literal v)
  | none, none =>
    match t with
    | c :: cs => if startsName c then some (.symbol (c :: cs)) else none
    | [] => none

/-! ### Instructions -/

/-- The operand shapes of R102. -/
inductive Shape where
  /-- `M R1, R2 + imm` and its short forms. -/
  | regVal
  /-- `LOD R1, [R2 + imm]` and its short forms. -/
  | load
  /-- `STR [R1 + imm], R2` and its short forms. -/
  | store
  /-- `M R2 + imm` and its short forms. -/
  | val
  /-- `M R1`. -/
  | reg
  /-- A jump: `M R1 + imm` and its short forms. -/
  | jump
  /-- RET: no operand. -/
  | none
  deriving DecidableEq, Repr

/-- A letter in lower case: instructions are case insensitive (R100). -/
def lowerCase (c : Char) : Char :=
  if 65 ≤ c.toNat ∧ c.toNat ≤ 90 then Char.ofNat (c.toNat + 32) else c

/-- The mnemonics (R100, R109) in lower case. -/
inductive Mnemonic where
  | set | lod | str | psh | pop | bts | btc | btf | cal | add | sub | mpy | div | mod | and | or | xor | shf | rot
  | neg | cmp | jmp | dly | lup | inc | dec | ret | je | jne | jl | jle | jg | jge
  deriving DecidableEq, Repr

/-- The mnemonic that letters in any case spell (R100). -/
def mnemonicOf (t : List Char) : Option Mnemonic :=
  match t.map lowerCase with
  | ['s', 'e', 't'] => some .set
  | ['l', 'o', 'd'] => some .lod
  | ['s', 't', 'r'] => some .str
  | ['p', 's', 'h'] => some .psh
  | ['p', 'o', 'p'] => some .pop
  | ['b', 't', 's'] => some .bts
  | ['b', 't', 'c'] => some .btc
  | ['b', 't', 'f'] => some .btf
  | ['c', 'a', 'l'] => some .cal
  | ['a', 'd', 'd'] => some .add
  | ['s', 'u', 'b'] => some .sub
  | ['m', 'p', 'y'] => some .mpy
  | ['d', 'i', 'v'] => some .div
  | ['m', 'o', 'd'] => some .mod
  | ['a', 'n', 'd'] => some .and
  | ['o', 'r'] => some .or
  | ['x', 'o', 'r'] => some .xor
  | ['s', 'h', 'f'] => some .shf
  | ['r', 'o', 't'] => some .rot
  | ['n', 'e', 'g'] => some .neg
  | ['c', 'm', 'p'] => some .cmp
  | ['j', 'm', 'p'] => some .jmp
  | ['d', 'l', 'y'] => some .dly
  | ['l', 'u', 'p'] => some .lup
  | ['i', 'n', 'c'] => some .inc
  | ['d', 'e', 'c'] => some .dec
  | ['r', 'e', 't'] => some .ret
  | ['j', 'e'] => some .je
  | ['j', 'n', 'e'] => some .jne
  | ['j', 'l'] => some .jl
  | ['j', 'l', 'e'] => some .jle
  | ['j', 'g'] => some .jg
  | ['j', 'g', 'e'] => some .jge
  | _ => none

/-- The operand shape of a mnemonic (R102). -/
def shapeOf : Mnemonic → Shape
  | .set | .bts | .btc | .btf | .add | .sub | .mpy | .div | .mod | .and | .or | .xor | .shf | .rot | .cmp | .lup => .regVal
  | .lod => .load
  | .str => .store
  | .psh | .cal | .dly => .val
  | .pop | .neg | .inc | .dec => .reg
  | .jmp | .je | .jne | .jl | .jle | .jg | .jge => .jump
  | .ret => .none

/-- A line's instruction before its symbols have values. An omitted register is rZ, an omitted immediate 0 (R102). -/
structure AsmInstr where
  mnemonic : Mnemonic
  r1 : Reg
  r2 : Reg
  imm : AsmImm
  deriving DecidableEq, Repr

/-- `R + imm`, `R` or `imm` (R102). -/
def sumOf : List (List Char) → Option (Reg × AsmImm)
  | [t] =>
    match registerOf t with
    | some r => some (r, .literal 0)
    | none => (asmImmOf t).map (fun i => (.rZ, i))
  | [t, ['+'], u] =>
    match registerOf t, asmImmOf u with
    | some r, some i => some (r, i)
    | _, _ => none
  | _ => none

/-- `[sum]`: the sum and the tokens after the bracket. -/
def bracketOf : List (List Char) → Option ((Reg × AsmImm) × List (List Char))
  | ['['] :: t :: [']'] :: rest => (sumOf [t]).map (fun p => (p, rest))
  | ['['] :: t :: u :: v :: [']'] :: rest => (sumOf [t, u, v]).map (fun p => (p, rest))
  | _ => none

/-- The operands of an instruction line, by the shape of its mnemonic (R102). -/
def operandsOf (m : Mnemonic) (ts : List (List Char)) : Option AsmInstr :=
  match shapeOf m, ts with
  | .regVal, t :: [','] :: rest =>
    match registerOf t, sumOf rest with
    | some r1, some (r2, imm) => some ⟨m, r1, r2, imm⟩
    | _, _ => none
  | .load, t :: [','] :: rest =>
    match registerOf t, bracketOf rest with
    | some r1, some ((r2, imm), []) => some ⟨m, r1, r2, imm⟩
    | _, _ => none
  | .store, ts =>
    match bracketOf ts with
    | some ((r1, imm), [[','], t]) => (registerOf t).map (fun r2 => ⟨m, r1, r2, imm⟩)
    | _ => none
  | .val, ts => (sumOf ts).map (fun p => ⟨m, .rZ, p.1, p.2⟩)
  | .reg, [t] => (registerOf t).map (fun r1 => ⟨m, r1, .rZ, .literal 0⟩)
  | .jump, ts => (sumOf ts).map (fun p => ⟨m, p.1, .rZ, p.2⟩)
  | .none, [] => some ⟨m, .rZ, .rZ, .literal 0⟩
  | _, _ => none

/-- One word or two (R108): the jumps are two words; any other instruction is one word when its immediate is a
literal in -8 to 7. -/
def AsmInstr.format (i : AsmInstr) : Format :=
  if shapeOf i.mnemonic = .jump then .w2
  else match i.imm with
    | .literal v => if -8 ≤ v ∧ v ≤ 7 then .w1 else .w2
    | .symbol _ => .w2

/-- The instruction with its immediate's value (R102, R108, R200 to R208). -/
def AsmInstr.instr (i : AsmInstr) (value : Word) : Instr :=
  let imm : Immed := match i.format with
    | .w1 => .teeny (value.setWidth 4)
    | .w2 => .wide value
  match i.mnemonic with
  | .set => .set i.r1 i.r2 imm
  | .lod => .lod i.r1 i.r2 imm
  | .str => .str i.r1 i.r2 imm
  | .psh => .psh i.r2 imm
  | .pop => .pop i.r1 .w1
  | .bts => .bts i.r1 i.r2 imm
  | .btc => .btc i.r1 i.r2 imm
  | .btf => .btf i.r1 i.r2 imm
  | .cal => .cal i.r2 imm
  | .add => .add i.r1 i.r2 imm
  | .sub => .sub i.r1 i.r2 imm
  | .mpy => .mpy i.r1 i.r2 imm
  | .div => .div i.r1 i.r2 imm
  | .mod => .mod i.r1 i.r2 imm
  | .and => .and i.r1 i.r2 imm
  | .or => .or i.r1 i.r2 imm
  | .xor => .xor i.r1 i.r2 imm
  | .shf => .shf i.r1 i.r2 imm
  | .rot => .rot i.r1 i.r2 imm
  | .neg => .neg i.r1 .w1
  | .cmp => .cmp i.r1 i.r2 imm
  | .jmp => .jmp i.r1 ⟨false, false, false⟩ value
  | .dly => .dly i.r2 imm
  | .lup => .lup i.r1 i.r2 imm
  | .inc => .inc i.r1
  | .dec => .dec i.r1
  | .ret => .ret
  | .je => .je i.r1 value
  | .jne => .jne i.r1 value
  | .jl => .jl i.r1 value
  | .jle => .jle i.r1 value
  | .jg => .jg i.r1 value
  | .jge => .jge i.r1 value

/-! ### Lines -/

/-- What a line holds, one item after another. -/
inductive Item where
  /-- A label: the address of the next word (R104). -/
  | label (name : List Char)
  /-- `.const` or `.constant` (R105). -/
  | const (name : List Char) (v : Int)
  /-- An instruction (R100). -/
  | instr (i : AsmInstr)
  /-- One word of raw data (R106). -/
  | data (v : AsmImm)
  deriving DecidableEq, Repr

/-- The values of a data line (R106). -/
def dataOf : List (List Char) → Except AsmError (List Item)
  | [] => .ok []
  | t :: ts =>
    match asmImmOf t, dataOf ts with
    | some v, .ok items => .ok (.data v :: items)
    | some _, .error e => .error e
    | none, _ => .error .badToken

/-- The items of a line after its label: a directive (R105), an instruction (R100) or data (R106). -/
def bodyOf : List (List Char) → Except AsmError (List Item)
  | [] => .ok []
  | t :: ts =>
    if t = ".const".toList ∨ t = ".constant".toList then
      match ts with
      | [name, v] =>
        match literalOf v with
        | some n => .ok [.const name n]
        | none => .error .badDirective
      | _ => .error .badDirective
    else if t = ".var".toList ∨ t = ".variable".toList then .error .variablePlacement
    else match mnemonicOf t with
      | some m =>
        match operandsOf m ts with
        | some i => .ok [.instr i]
        | none => .error .badOperands
      | none => dataOf (t :: ts)

/-- The items of a line: a leading label, then the rest (R104). -/
def itemsOf : List (List Char) → Except AsmError (List Item)
  | ('!' :: name) :: ts =>
    match bodyOf ts with
    | .ok items => .ok (.label ('!' :: name) :: items)
    | .error e => .error e
  | ts => bodyOf ts

/-- The items of all lines. -/
def itemsOfLines : List (List Char) → Except AsmError (List Item)
  | [] => .ok []
  | line :: lines =>
    match itemsOf (tokensOf line []), itemsOfLines lines with
    | .ok items, .ok rest => .ok (items ++ rest)
    | .error e, _ => .error e
    | .ok _, .error e => .error e

/-- How many words an item puts in the image. -/
def Item.size : Item → Nat
  | .label _ => 0
  | .const _ _ => 0
  | .instr i =>
    match i.format with
    | .w1 => 1
    | .w2 => 2
  | .data _ => 1

/-- The value of every label and constant, the image starting at `a` (R104, R105). A name defined twice is kept twice;
`AsmImm.valueIn` takes the first (DESIGN CHOICE, log entry 30). -/
def symbolsFrom (a : Nat) : List Item → List (List Char × Int)
  | [] => []
  | .label name :: items => (name, Int.ofNat a) :: symbolsFrom a items
  | .const name v :: items => (name, v) :: symbolsFrom a items
  | item :: items => symbolsFrom (a + item.size) items

/-- The 16-bit value of an immediate, with the symbols' values given. Labels and identifiers are compared character by
character: that they are case-sensitive is a DESIGN CHOICE, for R100 says that it is not in the source (log entry 30).
Of a name defined more than once the first definition is taken and the text is not turned down: DESIGN CHOICE, for no
rule speaks of it and the assembler's error behaviour is not in the source (log entry 30). -/
def AsmImm.valueIn (symbols : List (List Char × Int)) (i : AsmImm) : Except AsmError Word :=
  let v := match i with
    | .literal v => some v
    | .symbol name => symbols.lookup name
  match v with
  | none => .error .undefinedSymbol
  | some v => if -0x8000 ≤ v ∧ v ≤ 0xFFFF then .ok (BitVec.ofInt 16 v) else .error .literalRange

/-- The words of the items (R106, R108). -/
def wordsOf (symbols : List (List Char × Int)) : List Item → Except AsmError (List Word)
  | [] => .ok []
  | item :: items =>
    match wordsOf symbols items with
    | .error e => .error e
    | .ok rest =>
      match item with
      | .label _ => .ok rest
      | .const _ _ => .ok rest
      | .instr i => (i.imm.valueIn symbols).map (fun v => encode (i.instr v) ++ rest)
      | .data d => (d.valueIn symbols).map (fun v => v :: rest)

/-- The image of a source text (R100 to R109). -/
def assemble (text : List Char) : Except AsmError (List Word) :=
  match itemsOfLines (linesOf text []) with
  | .error e => .error e
  | .ok items => wordsOf (symbolsFrom 0 items) items

end Sys2Proof.Machine
end

