-- ==== Sys2Proof/Tests/Slice0.lean ====
section
/-! SUPPORT. Tests. Expected results are the spec's own: the vectors V<n> and examples S<n> of spec/95_test_vectors.md,
the encodings of spec/30_encoding.md written out bit by bit, and the examples of the instruction rules. -/

namespace Sys2Proof.Tests

open Sys2Proof.Machine

/-! ### Well-formedness: an ill-formed term for each check -/

theorem test_wf_refuses_add_is_inc : WellFormed (.add .rA .rZ (.teeny 1)) = false := by decide
theorem test_wf_refuses_sub_is_dec : WellFormed (.sub .rA .rZ (.teeny 1)) = false := by decide
theorem test_wf_refuses_pop_pc_is_ret : WellFormed (.pop .pc .w1) = false := by decide
theorem test_wf_refuses_jmp_mask_is_je : WellFormed (.jmp .rA ⟨true, false, false⟩ 0) = false := by decide
theorem test_wf_refuses_reserved_one_word : WellFormed (.reservedJmpOneWord 0xA800) = false := by decide
theorem test_wf_refuses_reserved_bit3_opcode : WellFormed (.reservedJmpBit3 0xAC08 0) = false := by decide
theorem test_wf_refuses_reserved_bit3 : WellFormed (.reservedJmpBit3 0xA800 0) = false := by decide
theorem test_wf_refuses_undefined_opcode : WellFormed (.undefinedOpcode 0xBC00) = false := by decide

/-! ### Decoding: each constructor from words written out from its encoding, `ooooo T aaa bbb iiii` (R80) -/

theorem test_decode_set : decodeWords 0b00000_1_011_100_0011 0 = .set .rA .rB (.teeny 3) := by decide
theorem test_decode_set_w2 : decodeWords 0b00000_0_011_001_0000 0x1234 = .set .rA .pc (.wide 0x1234) := by decide
theorem test_decode_lod : decodeWords 0b00001_1_011_100_0010 0 = .lod .rA .rB (.teeny 2) := by decide
theorem test_decode_str : decodeWords 0b00010_0_000_100_0000 0x9000 = .str .rZ .rB (.wide 0x9000) := by decide
theorem test_decode_psh : decodeWords 0b00011_1_000_011_0001 0 = .psh .rA (.teeny 1) := by decide
theorem test_decode_pop : decodeWords 0b00100_0_011_000_0000 0xDEAD = .pop .rA .w2 := by decide
theorem test_decode_bts : decodeWords 0b00101_1_011_000_1111 0 = .bts .rA .rZ (.teeny 15) := by decide
theorem test_decode_btc : decodeWords 0b00110_1_011_000_0100 0 = .btc .rA .rZ (.teeny 4) := by decide
theorem test_decode_btf : decodeWords 0b00111_0_011_000_0000 0x000F = .btf .rA .rZ (.wide 15) := by decide
theorem test_decode_cal : decodeWords 0b01000_1_000_001_0001 0 = .cal .pc (.teeny 1) := by decide
theorem test_decode_add : decodeWords 0b01001_1_011_100_0000 0 = .add .rA .rB (.teeny 0) := by decide
theorem test_decode_sub : decodeWords 0b01010_1_011_100_0000 0 = .sub .rA .rB (.teeny 0) := by decide
theorem test_decode_mpy : decodeWords 0b01011_1_011_000_1111 0 = .mpy .rA .rZ (.teeny 15) := by decide
theorem test_decode_div : decodeWords 0b01100_1_011_100_0000 0 = .div .rA .rB (.teeny 0) := by decide
theorem test_decode_mod : decodeWords 0b01101_1_100_000_0100 0 = .mod .rB .rZ (.teeny 4) := by decide
theorem test_decode_and : decodeWords 0b01110_0_011_000_0000 0x00FF = .and .rA .rZ (.wide 0x00FF) := by decide
theorem test_decode_or : decodeWords 0b01111_1_011_100_0000 0 = .or .rA .rB (.teeny 0) := by decide
theorem test_decode_xor : decodeWords 0b10000_1_011_011_0000 0 = .xor .rA .rA (.teeny 0) := by decide
theorem test_decode_shf : decodeWords 0b10001_1_011_000_1100 0 = .shf .rA .rZ (.teeny 12) := by decide
theorem test_decode_rot : decodeWords 0b10010_0_011_000_0000 0x0014 = .rot .rA .rZ (.wide 0x0014) := by decide
theorem test_decode_neg : decodeWords 0b10011_0_011_101_1001 0x1234 = .neg .rA .w2 := by decide
theorem test_decode_cmp : decodeWords 0b10100_1_011_100_0001 0 = .cmp .rA .rB (.teeny 1) := by decide
theorem test_decode_jmp : decodeWords 0b10101_0_011_000_0_000 0x0002 = .jmp .rA ⟨false, false, false⟩ 2 := by decide
theorem test_decode_jmp_mask7 : decodeWords 0b10101_0_000_000_0_111 0x0100 = .jmp .rZ ⟨true, true, true⟩ 0x0100 := by decide
theorem test_decode_dly : decodeWords 0b10110_0_000_011_0000 0x1000 = .dly .rA (.wide 0x1000) := by decide
theorem test_decode_lup : decodeWords 0b10111_1_011_100_0001 0 = .lup .rA .rB (.teeny 1) := by decide
theorem test_decode_reserved_one_word : decodeWords 0b10101_1_000_000_0000 0 = .reservedJmpOneWord 0xAC00 := by decide
theorem test_decode_reserved_bit3 : decodeWords 0b10101_0_000_000_1_000 0x0100 = .reservedJmpBit3 0xA808 0x0100 := by decide
theorem test_decode_undefined_24 : decodeWords 0b11000_1_000_000_0000 0 = .undefinedOpcode 0xC400 := by decide
theorem test_decode_inc : decodeWords 0b01001_1_111_000_0001 0 = .inc .rE := by decide
theorem test_decode_dec : decodeWords 0b01010_1_111_000_0001 0 = .dec .rE := by decide
theorem test_decode_ret : decodeWords 0b00100_1_001_000_0000 0 = .ret := by decide
theorem test_decode_je : decodeWords 0b10101_0_110_000_0_100 0x0100 = .je .rD 0x0100 := by decide
theorem test_decode_jne : decodeWords 0b10101_0_000_000_0_011 0x0100 = .jne .rZ 0x0100 := by decide
theorem test_decode_jl : decodeWords 0b10101_0_000_000_0_010 0x0100 = .jl .rZ 0x0100 := by decide
theorem test_decode_jle : decodeWords 0b10101_0_101_000_0_110 0x0100 = .jle .rC 0x0100 := by decide
theorem test_decode_jg : decodeWords 0b10101_0_000_000_0_001 0x0100 = .jg .rZ 0x0100 := by decide
theorem test_decode_jge : decodeWords 0b10101_0_010_000_0_101 0x0100 = .jge .sp 0x0100 := by decide

/-- Too few words are rejected by name. -/
theorem test_decode_rejects : (decode []).toOption = none ∧ (decode [0x0180]).toOption = none := by decide

/-- The opcode table's numbering: the second word is bits 31 to 16. -/
theorem test_table_word : decodeTableWord 32 0x12340180 = some (.set .rA .rZ (.wide 0x1234)) := by decide

/-! ### One step, from the vectors -/

/-- The vectors' start state: the words at 0x0010, PC there, SP 0x7FFF. -/
def start (ws : List Word) (rA rB : Word) (f : Flags) : State :=
  State.placeWords { State.initial parameters rA rB 0 0 0 f with pc := 0x0010 } 0x0010 ws

/-- The next state, seen through `f`. -/
def sees {α : Type} (s : State) (f : State → α) : Option α :=
  match step s with
  | .next t => some (f t)
  | .fault _ => none
  | .refused _ => none

/-- The model fault of a step; the state it leaves aside. -/
def faultOf (s : State) : Option Fault :=
  match step s with
  | .next _ => none
  | .fault r => some (Fault.withBefore State.reset r)
  | .refused _ => none

/-- Flags E, L, G as the vectors write them. -/
def fl (e l g : Bool) : Flags := ⟨e, l, g⟩

/-- PC, rA, flags. -/
def view (s : State) : Word × Word × Flags := (s.pc, s.rA, s.flags)

theorem test_V1_set : sees (start [0x05C3] 0 0x0010 (fl false false false)) view = some (0x0011, 0x0013, fl false false false) := by decide
theorem test_V3_set_minus_one : sees (start [0x058F] 0 0 (fl false false false)) view = some (0x0011, 0xFFFF, fl false false false) := by decide
theorem test_V9_lod : sees ((start [0x0DC2] 0 0x00FE (fl false false false)).setRamWord 0x0100 0xBEEF) view = some (0x0011, 0xBEEF, fl false false false) := by decide
theorem test_V10_lod_bus : sees { start [0x0980, 0x8000] 0 0 (fl false false false) with hostAnswers := [0x1234] } (fun t => (t.rA, t.busLog)) =
    some (0x1234, [.read 0x8000 0x1234]) := by decide
theorem test_V16_str : sees (start [0x15C1] 0x00FF 0xCAFE (fl false false false)) (fun t => t.ramWord 0x0100) = some 0xCAFE := by decide
theorem test_V17_str_bus : sees (start [0x1040, 0x9000] 0 0x00FF (fl false false false)) (fun t => t.busLog) = some [.write 0x9000 0x00FF] := by decide
theorem test_V21_psh : sees (start [0x1C31] 0x0041 0 (fl false false false)) (fun t => (t.sp, t.ramWord 0x7FFF)) = some (0x7FFE, 0x0042) := by decide
theorem test_V25_psh_outside : faultOf { start [0x1C30] 9 0 (fl false false false) with sp := 0x8000 } = some (.stackOutOfRam 0x8000 State.reset) := by decide
theorem test_V27_pop_empty : faultOf (start [0x2580] 0 0 (fl false false false)) = some (.stackOutOfRam 0x8000 State.reset) := by decide
theorem test_V28_pop_sp : sees (({ start [0x2500] 0 0 (fl false false false) with sp := 0x7FF0 }).setRamWord 0x7FF1 0x7000) (fun t => (t.pc, t.sp)) =
    some (0x0011, 0x7000) := by decide
theorem test_V40_bts : sees (start [0x2D83] 0 0 (fl false false false)) view = some (0x0011, 0x0008, fl false false true) := by decide
theorem test_V45_bts_invalid : sees (start [0x2D8F] 0 0 (fl false true false)) view = some (0x0011, 0x0000, fl false true false) := by decide
theorem test_V47_btc : sees (start [0x3584] 0x000F 0 (fl false true false)) view = some (0x0011, 0x000F, fl false false true) := by decide
theorem test_V42_btf : sees (start [0x3980, 0x000F] 1 0 (fl false false false)) view = some (0x0012, 0x8001, fl false true false) := by decide
theorem test_V63_add : sees (start [0x4D88] 5 0 (fl false false false)) view = some (0x0011, 0xFFFD, fl false true false) := by decide
theorem test_V65_V66_add_to_rZ_and_pc : sees (start [0x4C40] 7 0xFFFE (fl false false false)) view = some (0x0011, 7, fl false true false) ∧
    sees (start [0x4C81] 7 0 (fl false false false)) view = some (0x0012, 7, fl false false true) := by decide
theorem test_V70_sub : sees (start [0x5581] 0x8000 0 (fl false false false)) view = some (0x0011, 0x7FFF, fl false false true) := by decide
theorem test_V71_sub : sees (start [0x55C0] 3 0xFFFF (fl false false false)) view = some (0x0011, 4, fl false false true) := by decide
theorem test_V72_mpy : sees (start [0x5DC0] 300 300 (fl false false false)) view = some (0x0011, 0x5F90, fl false false true) := by decide
theorem test_V73_mpy : sees (start [0x5D8F] 7 0 (fl false false false)) view = some (0x0011, 0xFFF9, fl false true false) := by decide
theorem test_V76_div : sees (start [0x65C0] 0xFFF9 2 (fl false false false)) view = some (0x0011, 0xFFFD, fl false true false) := by decide
theorem test_V78_V79_div_corners : sees (start [0x65C0] 0x8000 0xFFFF (fl false false false)) view = some (0x0011, 0x8000, fl false true false) ∧
    faultOf (start [0x65C0] 7 0 (fl false false false)) = some (.divideByZero 0x0010 State.reset) := by decide
theorem test_V81_mod : sees (start [0x6DC0] 0xFFF9 2 (fl false false false)) view = some (0x0011, 0xFFFF, fl false true false) := by decide
theorem test_V82_mod : sees (start [0x6DC0] 7 0xFFFE (fl false false false)) view = some (0x0011, 1, fl false false true) := by decide
theorem test_V88_neg : sees (start [0x9D80] 0x8000 0 (fl false false false)) view = some (0x0011, 0x8000, fl false true false) := by decide
theorem test_V89_neg_two_words : sees (start [0x99D9, 0x1234] 0xFFFF 0 (fl false false false)) view = some (0x0012, 1, fl false false true) := by decide
theorem test_V93_cmp : sees (start [0xA5C0] 0x7FFF 0xFFFF (fl false false false)) view = some (0x0011, 0x7FFF, fl false false true) := by decide
theorem test_V94_cmp : sees (start [0xA5C0] 0x8000 0x0001 (fl false false false)) view = some (0x0011, 0x8000, fl false true false) := by decide
theorem test_V101_and : sees (start [0x7180, 0x00FF] 0x1200 0 (fl false false false)) view = some (0x0012, 0, fl true false false) := by decide
theorem test_V103_or : sees (start [0x7DC0] 0xF000 0x000F (fl false false false)) view = some (0x0011, 0xF00F, fl false true false) := by decide
theorem test_V107_xor : sees (start [0x858F] 0x00FF 0 (fl false false false)) view = some (0x0011, 0xFF00, fl false true false) := by decide
theorem test_V108_shf : sees (start [0x8D84] 0xABCD 0 (fl false false false)) view = some (0x0011, 0x0ABC, fl false false true) := by decide
theorem test_V115_shf_left_16 : sees (start [0x8980, 0xFFF0] 0xFFFF 0 (fl false false false)) view = some (0x0012, 0, fl true false false) := by decide
theorem test_V119_rot : sees (start [0x958C] 0xABCD 0 (fl false false false)) view = some (0x0011, 0xBCDA, fl false true false) := by decide
theorem test_V124_rot_20 : sees (start [0x9180, 0x0014] 0xABCD 0 (fl false false false)) view = some (0x0012, 0xDABC, fl false true false) := by decide
theorem test_V140_cal : sees (start [0x4000, 0x0100] 0 0 (fl false false false)) (fun t => (t.pc, t.sp, t.ramWord 0x7FFF)) =
    some (0x0100, 0x7FFE, 0x0012) := by decide
theorem test_V144_cal_sp : sees (start [0x4420] 0 0 (fl false false false)) (fun t => (t.pc, t.sp)) = some (0x7FFE, 0x7FFE) := by decide
theorem test_V147_jmp : sees (start [0xA980, 0x0002] 0x0300 0 (fl false false false)) view = some (0x0302, 0x0300, fl false false false) := by decide
theorem test_V158_jmp_mask7 : sees (start [0xA807, 0x0100] 0 0 (fl false true false)) view = some (0x0100, 0, fl false true false) := by decide
theorem test_V152_jg : [fl true false false, fl false true false, fl false false true].map (fun f => sees (start [0xA801, 0x0100] 0 0 f) State.pc) =
    [some 0x0012, some 0x0012, some 0x0100] := by decide
theorem test_V153_jl : [fl true false false, fl false true false, fl false false true].map (fun f => sees (start [0xA802, 0x0100] 0 0 f) State.pc) =
    [some 0x0012, some 0x0100, some 0x0012] := by decide
theorem test_V154_jne : [fl true false false, fl false true false, fl false false true].map (fun f => sees (start [0xA803, 0x0100] 0 0 f) State.pc) =
    [some 0x0012, some 0x0100, some 0x0100] := by decide
theorem test_V155_je : [fl true false false, fl false true false, fl false false true].map (fun f => sees (start [0xA804, 0x0100] 0 0 f) State.pc) =
    [some 0x0100, some 0x0012, some 0x0012] := by decide
theorem test_V156_jge : [fl true false false, fl false true false, fl false false true].map (fun f => sees (start [0xA805, 0x0100] 0 0 f) State.pc) =
    [some 0x0100, some 0x0012, some 0x0100] := by decide
theorem test_V157_jle : [fl true false false, fl false true false, fl false false true].map (fun f => sees (start [0xA806, 0x0100] 0 0 f) State.pc) =
    [some 0x0100, some 0x0100, some 0x0012] := by decide
theorem test_V172_reserved_bit3 : faultOf (start [0xA808, 0x0100] 0 0 (fl false false false)) = some (.reservedEncoding 0x0010 0xA808 State.reset) := by decide
theorem test_V173_reserved_one_word : faultOf (start [0xAC00] 0 0 (fl false false false)) = some (.reservedEncoding 0x0010 0xAC00 State.reset) := by decide
theorem test_V174_dly : sees (start [0xB405] 3 0 (fl false true false)) view = some (0x0011, 3, fl false true false) := by decide
theorem test_V178_lup_from_zero : sees (start [0xBD82] 0 0 (fl false false false)) view = some (0x0002, 0xFFFF, fl false false false) := by decide
theorem test_V181_to_V183_lup_aliases : sees (start [0xBDB0] 9 0 (fl false false false)) view = some (0x0008, 8, fl false false false) ∧
    sees (start [0xBC02] 0 0 (fl false false false)) State.pc = some 0x0011 ∧
    sees (start [0xBC82] 0 0 (fl false false false)) State.pc = some 0x0002 := by decide
theorem test_V190_inc : sees (start [0x4D81] 0x7FFF 0 (fl false false false)) view = some (0x0011, 0x8000, fl false true false) := by decide
theorem test_V191_dec : sees (start [0x5581] 1 0 (fl false false false)) view = some (0x0011, 0, fl true false false) := by decide
theorem test_V31_ret : sees (({ start [0x2480] 0 0 (fl false false false) with sp := 0x7FFE }).setRamWord 0x7FFF 0x0006) (fun t => (t.pc, t.sp)) =
    some (0x0006, 0x7FFF) := by decide
theorem test_V201_undefined : faultOf (start [0xF800, 0x0000] 0 0 (fl false false false)) = some (.illegalOpcode 0x0010 0xF800 State.reset) := by decide
theorem test_V202_straddle : faultOf (({ start [] 0 0 (fl false false false) with pc := 0x7FFF }).setRamWord 0x7FFF 0x0180) =
    some (.fetchStraddle 0x7FFF State.reset) := by decide
theorem test_V203_top_of_ram : sees (({ start [] 0 0 (fl false false false) with pc := 0x7FFF }).setRamWord 0x7FFF 0x0581) view =
    some (0x8000, 1, fl false false false) := by decide
/-- Program P8, step 7: PC was 0x8000. -/
theorem test_P8_pc_reset : sees (({ start [] 0 0 (fl false false false) with pc := 0x8000 }).placeWords 0 [0x0581]) view = some (0x0001, 1, fl false false false) := by decide
/-- Program P6: a stored word is what the next step fetches (R65). -/
theorem test_P6_store_into_code :
    sees (((State.initial parameters 0x0585 0 0 0 0 (fl false false false)).placeWords 2 [0x1433, 0x0581]).setReg .pc 2) (fun t => sees t view) =
      some (some (0x0004, 0x0005, fl false false false)) := by decide

/-! ### What a fault leaves, and the parameters -/

/-- PC and SP of the state a fault leaves. -/
def left (s : State) : Option (Word × Word) :=
  match step s with
  | .next _ => none
  | .fault f => some ((Fault.before f).pc, (Fault.before f).sp)
  | .refused _ => none

/-- R223: PC is at the instruction, the PC reset of R221 having happened; POP's increment of SP is not seen. -/
theorem test_fault_leaves_state_before : left (start [0x2580] 0 0 (fl false false false)) = some (0x0010, 0x7FFF) ∧
    left { State.reset.setRamWord 0 0xC400 with pc := 0x9000 } = some (0x0000, 0x7FFF) := by decide

/-- The vectors' start state with other parameters. -/
def startWith (c : Config) (ws : List Word) (rA rB : Word) : State := { start ws rA rB (fl false false false) with config := c }

/-- U6: 0x8000 against 0x0001 gives G when the wrapped difference is compared. -/
theorem test_cmp_wrapped : sees (startWith { parameters with cmpRule := .signedWrappedDiff } [0xA5C0] 0x8000 1) State.flags =
    some (fl false false true) := by decide

/-- D11: the fill of a right shift; 0 for a count of 16 whatever the fill (log entry 34). -/
theorem test_shf_arithmetic :
    sees (startWith { parameters with shfFill := .arithmetic } [0x8D84] 0xABCD 0) State.rA = some 0xFABC ∧
    sees (startWith { parameters with shfFill := .arithmetic } [0x8980, 0x0010] 0xABCD 0) State.rA = some 0 := by decide

/-- D17: with RESET_GPR = fault, reading rB before a write stops; R251 with RAM_FILL = fault, so does an empty RAM. -/
theorem test_uninitialised_read :
    faultOf (startWith { parameters with resetGpr := .fault } [0x05C3] 0 0) = some (.uninitialisedRead (.reg .rB) State.reset) ∧
    faultOf { State.reset with config := { parameters with ramFill := .fault } } =
      some (.uninitialisedRead (.ram 0) State.reset) := by decide

/-! ### The image, the assembler, placing an instruction -/

/-- Example S2: the words of the manual's data line. -/
theorem test_S2_assemble :
    (assemble "JMP !test\n!test\n  0xBeef 0xFeed 10  'r' 0b1111_0000_0000_0_1_0_0".toList).toOption =
      some [0xA800, 0x0002, 0xBEEF, 0xFEED, 0x000A, 0x0072, 0xF004] := by decide

/-- Operand shapes and one word or two (R102, R108), from vectors V9, V16, V17, V63 and V48. -/
theorem test_assemble_shapes :
    (assemble "lod rA, [rB + 2] ; load\nSTR [rA + 1], rB\nSTR [0x9000], rB\nADD rA, -8\nBTF rA, rB + 1\nRET".toList).toOption =
      some [0x0DC2, 0x15C1, 0x1040, 0x9000, 0x4D88, 0x3DC1, 0x2480] := by decide

/-- R103, R107, R102: a quoted `;` is a literal (log entry 30), a `_` stands between binary digits, a register's name
is no immediate. -/
theorem test_assemble_tokens :
    (assemble "';' 0b1_0 ; 7".toList).toOption = some [0x003B, 0x0002] ∧
    (assemble "0b_1".toList).toOption = none ∧ (assemble "0b1_".toList).toOption = none ∧
    (assemble ".const rB 5\nADD rA, rC + rB".toList).toOption = none ∧
    (assemble ".const rB 5\nrB".toList).toOption = none := by decide

/-- A file's bytes, low byte first (R54). -/
theorem test_image_words : imageWords .little [0x80, 0x01, 0x34, 0x12] = some [0x0180, 0x1234] := by decide

/-- The instruction placed is the one the next step runs. -/
theorem test_with_fetch_word : sees (State.reset.withFetchWord 32 0x12340180) view = some (0x0002, 0x1234, fl false false false) := by
  decide

/-! ### Witnesses: states and operands that meet the hypotheses of each statement, at the ends of their ranges -/

/-- A reset state with PC and SP as given. -/
def at_ (pc sp : Word) : State := { State.reset with pc := pc, sp := sp }

/-- A reset state with rA and rB as given. -/
def ab (rA rB : Word) : State := { State.reset with rA := rA, rB := rB }

theorem wit_FirstWordFieldsReadBack : (31 < 32 ∧ 1 < 2 ∧ 7 < 8 ∧ 7 < 8 ∧ 15 < 16) ∧
    (0xFFFF : Word) = BitVec.ofNat 16 (31 * 2048 + 1 * 1024 + 7 * 128 + 7 * 16 + 15) := by decide
theorem wit_DecodeOfEncodeIsIdentity : WellFormed (.add .rE .rZ (.wide 1)) = true ∧ WellFormed (.pop .pc .w2) = true ∧
    WellFormed (.reservedJmpOneWord 0xAFFF) = true ∧ WellFormed (.reservedJmpBit3 0xABFF 0xFFFF) = true ∧
    WellFormed (.undefinedOpcode 0xC000) = true ∧ WellFormed (.jmp .rE ⟨true, true, true⟩ 0) = true := by decide
theorem wit_OpcodeMap : opcodeField 0x2480 = 4 ∧ (opcodeField 0x4D81 = 9 ∧ teenyBit 0x4D81 = true ∧ imm4Field 0x4D81 = 1) ∧
    (opcodeField 0xA808 = 21 ∧ teenyBit 0xA808 = false ∧ 8 ≤ (imm4Field 0xA808).toNat) ∧
    (imm4Field 0xA800 = 0b0000 ∧ imm4Field 0xA807 = 0b0111) ∧ (opcodeField 0xA807 = 21 ∧ teenyBit 0xAC07 = true) ∧
    opcodeField 0xBC00 = 23 ∧ 23 < opcodeField 0xC000 ∧ 23 < opcodeField 0xFFFF := by decide
theorem wit_UnusedFieldsAreIgnored : teenyBit 0x0580 = true ∧
    (opcodeField 0x99D9 = 19 ∧ (0x99D9 : Word).extractLsb' 7 9 = (0x9980 : Word).extractLsb' 7 9) ∧
    (opcodeField 0xB580 = 22 ∧ (0xB580 : Word).extractLsb' 10 6 = (0xB400 : Word).extractLsb' 10 6 ∧
      (0xB580 : Word).extractLsb' 0 7 = (0xB400 : Word).extractLsb' 0 7) ∧
    (opcodeField 0xA9F0 = 21 ∧ reservedBit 0xA9F0 = false ∧ teenyBit 0xA9F0 = false ∧
      (0xA9F0 : Word).extractLsb' 7 9 = (0xA980 : Word).extractLsb' 7 9 ∧
      (0xA9F0 : Word).extractLsb' 0 4 = (0xA980 : Word).extractLsb' 0 4) ∧
    (opcodeField 0xB98F ≤ 23 ∧ opcodeField 0xB98F ≠ 21 ∧ teenyBit 0xB98F = false ∧
      (0xB98F : Word).extractLsb' 4 12 = (0xB980 : Word).extractLsb' 4 12) := by decide
theorem wit_FetchAdvancesPcByTwoMinusT :
    (InRam ((at_ 0x7FFF 0).setRamWord 0x7FFF 0x0581).pc ∧ teenyBit (((at_ 0x7FFF 0).setRamWord 0x7FFF 0x0581).ramWord 0x7FFF) = true) ∧
    (InRam ((at_ 0x7FFE 0).setRamWord 0x7FFE 0x0180).pc ∧
      teenyBit (((at_ 0x7FFE 0).setRamWord 0x7FFE 0x0180).ramWord 0x7FFE) = false ∧ ¬((0x7FFE : Word) = 0x7FFF)) := by decide
theorem wit_StepRunsTheDecodedInstruction : WellFormed (.set .rA .rZ (.wide 5)) = true ∧
    decode [0x0180, 0x0005] = .ok (.set .rA .rZ (.wide 5), []) ∧ (at_ 0x7FFE 0).pc.toNat + [0x0180, (5 : Word)].length ≤ 0x8000 ∧
    ∀ k : Nat, k < 2 → [0x0180, (5 : Word)][k]? =
      some (((at_ 0x7FFE 0).placeWords 0x7FFE [0x0180, 5]).ramWord ((at_ 0x7FFE 0).pc + BitVec.ofNat 16 k)) :=
  ⟨by decide, rfl, by decide, by decide⟩
theorem wit_FetchOutsideRamRestartsAtZero : ¬InRam (at_ 0x8000 0).pc ∧ ¬InRam (at_ 0xFFFF 0).pc := by decide
theorem wit_StepStopsExactlyOnTheModelFaults :
    (State.modelFault ((at_ 0x7FFF 0).placeWords 0x7FFF [0xC000])).map (Fault.withBefore State.reset) = some (.fetchStraddle 0x7FFF State.reset) ∧
    (State.modelFault ((at_ 0x7FFF 0).placeWords 0x7FFF [0xC400])).map (Fault.withBefore State.reset) = some (.illegalOpcode 0x7FFF 0xC400 State.reset) ∧
    (State.modelFault ((at_ 0 0).placeWords 0 [0xAC00])).map (Fault.withBefore State.reset) = some (.reservedEncoding 0 0xAC00 State.reset) ∧
    (State.modelFault ((at_ 0 0x8000).placeWords 0 [0x1C00])).map (Fault.withBefore State.reset) = some (.stackOutOfRam 0x8000 State.reset) ∧
    (State.modelFault ((at_ 0 0x7FFF).placeWords 0 [0x2580])).map (Fault.withBefore State.reset) = some (.stackOutOfRam 0x8000 State.reset) ∧
    (State.modelFault ((at_ 0 0).placeWords 0 [0x6580])).map (Fault.withBefore State.reset) = some (.divideByZero 0 State.reset) ∧
    (State.modelFault ((at_ 0 0x7FFF).placeWords 0 [0x1C00])).map (Fault.withBefore State.reset) = none ∧
    (State.modelFault ((at_ 0 0x7FFE).placeWords 0 [0x2580])).map (Fault.withBefore State.reset) = none ∧
    (State.modelFault ((at_ 0 0xFFFF).placeWords 0 [0x2580])).map (Fault.withBefore State.reset) = none := by decide
theorem wit_StepKeepsTheInvariant : State.Inv ((ab 0x8000 0xFFFF).withFetchWord 16 0x15C0) ∧
    ∃ t, step ((ab 0x8000 0xFFFF).withFetchWord 16 0x15C0) = .next t ∧ t.busLog = [.write 0x8000 0xFFFF] :=
  ⟨⟨by decide, by decide, fun _ h => by cases h⟩, _, rfl, by decide⟩
theorem wit_InitialStatesMeetTheInvariant : Flags.atMostOne (fl false true false) = true ∧
    ((State.initial parameters 1 2 3 4 5 (fl false true false)).loadImage [0x0480]).isSome = true := by decide
theorem wit_ResetHoldsTheImageAndTheStatedValues : (List.replicate 32768 (0x0480 : Word)).length ≤ 32768 ∧
    ([] : List Word).length ≤ (0x0000 : Word).toNat ∧ 32768 ≤ (0x8000 : Word).toNat :=
  ⟨by rw [List.length_replicate], by decide, by decide⟩

/-- Parameters with fixed values at reset. -/
def fixedReset : Config := { parameters with resetGpr := .zero, resetFlags := .zero, ramFill := .fixed 0x0480 }

theorem wit_ResetToFixedValues : fixedReset.resetGpr = .zero ∧ fixedReset.resetFlags = .zero ∧
    fixedReset.ramFill = .fixed 0x0480 ∧ parameters.resetGpr ≠ .zero ∧ parameters.resetFlags ≠ .zero ∧
    ((State.initial fixedReset 1 2 3 4 5 (fl false true false)).loadImage [7]).map (fun t =>
      (t.rA, t.rE, t.flags, t.ramWord 0x0000, t.ramWord 0x0001, t.ramWord 0x7FFF)) =
      some (0, 0, fl false false false, 7, 0x0480, 0x0480) := by decide
theorem wit_FinishedRunStaysWhereItIs : State.finished ((at_ 0x7FFE 0).placeWords 0x7FFE [0xA800, 0x7FFE]) = true ∧
    State.finished ((at_ 0 0).placeWords 0 [0xA800, 0]) = true := by decide
theorem wit_PlacedInstructionIsTheOneThatRuns : (at_ 0x7FFE 0).pc.toNat ≤ 0x7FFE ∧
    State.Inv (at_ 0x7FFE 0) ∧ ((at_ 0x7FFF 0).withFetchWord 32 0x00050180).fetchAddress = 0 :=
  ⟨by decide, ⟨by decide, by decide, fun _ h => by cases h⟩, by decide⟩
theorem wit_DataAccesses : (0x7FFF : Word).toNat ≤ 0x7FFF ∧ 0x7FFF < (0x8000 : Word).toNat ∧
    { State.reset with hostAnswers := [7] }.hostAnswers = (7 : Word) :: [] := by decide
theorem wit_SetLodStrWords : opcodeField 0x05C3 = 0 ∧ opcodeField 0x0DC2 = 1 ∧ opcodeField 0x15C1 = 2 := by decide
theorem wit_LodStrAddresses : (0x7FFF : Word) = (ab 0x7FFE 0).reg .rA + State.reset.immed (.teeny 1) ∧
    (0x8000 : Word) = (ab 0x7FFF 0).reg .rA + State.reset.immed (.teeny 1) ∧
    (0x0000 : Word) = (ab 0xFFFF 0).reg .rA + State.reset.immed (.wide 1) := by decide
theorem wit_PushInAndOutOfRam : InRam (at_ 0 0x7FFF).sp ∧ InRam (at_ 0 0).sp ∧ ¬InRam (at_ 0 0x8000).sp := by decide
theorem wit_PopInAndOutOfRam : InRam ((at_ 0 0x7FFE).sp + 1) ∧ InRam ((at_ 0 0xFFFF).sp + 1) ∧ ¬InRam ((at_ 0 0x7FFF).sp + 1) ∧
    (Instr.pop .rZ .w2 = .pop .rZ .w2 ∨ (Instr.pop .rZ .w2 = .ret ∧ Reg.rZ = .pc ∧ Format.w2 = .w1)) ∧
    (Instr.ret = .pop .pc .w1 ∨ (Instr.ret = .ret ∧ Reg.pc = .pc ∧ Format.w1 = .w1)) :=
  ⟨by decide, by decide, by decide, .inl rfl, .inr ⟨rfl, rfl, rfl⟩⟩
theorem wit_PopAfterPshRestores : InRam (at_ 0 0x7FFF).sp ∧ Reg.pc ≠ .sp := by decide
theorem wit_BitNumbers : 15 = ((ab 0 16).reg .rB + State.reset.immed (.teeny 15)).toNat ∧ 15 ≤ 15 ∧
    16 = ((ab 0 16).reg .rB + State.reset.immed (.teeny 0)).toNat ∧ 15 < 16 := by decide
theorem wit_DivAndModTruncateTowardZero : (ab 0x8000 0xFFFF).reg .rB + State.reset.immed (.teeny 0) ≠ 0 := by decide
theorem wit_DivAndModByZeroFault : (ab 7 1).reg .rB + State.reset.immed (.teeny 15) = 0 := by decide
theorem wit_LogicActsBitByBit : (Instr.xor .rA .rB (.teeny 0) = .and .rA .rB (.teeny 0) ∧ xor = and) ∨
    (Instr.xor .rA .rB (.teeny 0) = .or .rA .rB (.teeny 0) ∧ xor = or) ∨
    (Instr.xor .rA .rB (.teeny 0) = .xor .rA .rB (.teeny 0) ∧ xor = xor) := .inr (.inr ⟨rfl, rfl⟩)
theorem wit_RetAfterCalReturns : ∃ t u : State, InRam (at_ 2 0x7FFF).sp ∧
    exec (.cal .rZ (.wide 0x0100)) (at_ 2 0x7FFF) = .next t ∧ u.sp = t.sp ∧ SameRam t u ∧ u ≠ t :=
  ⟨_, { (((at_ 2 0x7FFF).setRamWord 0x7FFF 2).setReg .sp 0x7FFE).setReg .pc 0x0105 with rA := 9 },
    by decide, rfl, rfl, fun _ => rfl, by decide⟩
theorem wit_JmpTakesAnyMaskedFlag :
    (((⟨false, false, false⟩ : Mask).e = false ∧ (⟨false, false, false⟩ : Mask).l = false ∧ (⟨false, false, false⟩ : Mask).g = false)) ∧
    (((⟨false, true, true⟩ : Mask).g = true ∧ (fl false false true).g = true)) ∧
    ¬((⟨false, true, true⟩ : Mask).l = true ∧ (fl true false false).l = true) := by decide
theorem wit_ConditionalJumpsFollowTheirFlags : Instr.jge .rA 7 = .jge .rA 7 ∧ true = ((fl true false false).e || (fl true false false).g) ∧
    false = ((fl false true false).e || (fl false true false).g) := by decide
theorem wit_ConditionsAfterCmpAreSignedComparisons : ∃ t u : State, exec (.cmp .rA .rB (.teeny 0)) (ab 0x7FFF 0x8000) = .next t ∧
    u.flags = t.flags ∧ ((32767 : Int) = ((ab 0x7FFF 0x8000).reg .rA).toInt) ∧
    ((-32768 : Int) = ((ab 0x7FFF 0x8000).reg .rB + State.reset.immed (.teeny 0)).toInt) ∧
    (Instr.jg .rZ 9 = .jg .rZ 9 ∧ ((-32768 : Int) < 32767) = ((-32768 : Int) < 32767)) :=
  ⟨_, _, rfl, rfl, by decide, by decide, rfl, rfl⟩
theorem wit_LupCountsDownAndJumpsWhileNonZero : WritesReg .rA 0 (ab 1 0) ((ab 1 0).countDown .rA) ∧
    ((ab 1 0).countDown .rA).reg .rA = 0 ∧ ((ab 0 0).countDown .rA).reg .rA ≠ 0 ∧
    ((ab 0 0).countDown .rZ).reg .rZ = 0 := ⟨fun r => by cases r <;> decide, by decide, by decide, by decide⟩
theorem wit_OnlyFlagWritersChangeTheFlags : (∃ t, exec (.set .rA .rB (.teeny 1)) (ab 0 0) = .next t) ∧
    Instr.writesFlags (.set .rA .rB (.teeny 1)) = false ∧ (∃ t, exec (.sub .rA .rB (.teeny 0)) (ab 0 0) = .next t) ∧
    Instr.writesFlags (.sub .rA .rB (.teeny 0)) = true ∧ Instr.isBitOp (.sub .rA .rB (.teeny 0)) = false ∧
    exec (.bts .rA .rZ (.wide 16)) (ab 0 0) = .next (ab 0 0) ∧ (∃ t, exec (.bts .rA .rZ (.wide 15)) (ab 0 0) = .next t) ∧
    Instr.isBitOp (.bts .rA .rZ (.wide 15)) = true :=
  ⟨⟨_, rfl⟩, rfl, ⟨_, rfl⟩, rfl, rfl, rfl, ⟨_, rfl⟩, rfl⟩
theorem wit_OnlyJumpsReadTheFlags : Instr.readsFlags (.psh .rA (.teeny 0)) = false ∧
    (∃ x, exec (.psh .rA (.teeny 0)) (at_ 0 0x8000) = .fault x) ∧
    (∃ t, exec (.psh .rA (.teeny 0)) (at_ 0 0x7FFF) = .next t) := ⟨rfl, ⟨_, rfl⟩, ⟨_, rfl⟩⟩
theorem wit_OnlyLodAndStrReachTheBus : (∃ t, exec (.lod .rA .rB (.teeny 0)) (ab 0 0x8000) = .next t ∧ t.busLog.length = 1) ∧
    (∃ t, exec (.psh .rA (.teeny 0)) (at_ 0 0x7FFF) = .next t) ∧ Instr.reachesBus (.psh .rA (.teeny 0)) = false :=
  ⟨⟨_, rfl, rfl⟩, ⟨_, rfl⟩, rfl⟩
theorem wit_OnlyStrPshCalWriteRam : (∃ t, exec (.pop .rA .w1) (at_ 0 0x7FFE) = .next t) ∧
    Instr.writesRam (.pop .rA .w1) = false := ⟨⟨_, rfl⟩, rfl⟩
theorem wit_LatestStoreIsWhatIsReadAndFetched : InRam ((ab 0x0010 0x0581).reg .rA + State.reset.immed (.teeny 0)) ∧
    ∃ t, exec (.str .rA .rB (.teeny 0)) { ab 0x0010 0x0581 with pc := 0x0010 } = .next t ∧
      t.reg .rA + State.reset.immed (.teeny 0) = 0x0010 ∧ t.fetchAddress = 0x0010 ∧
      teenyBit ((ab 0x0010 0x0581).reg .rB) = true := ⟨by decide, _, rfl, by decide, by decide, by decide⟩
theorem wit_StoreOverATwoWordInstruction :
    (∃ t, exec (.str .rA .rB (.teeny 0)) { ab 0x7FFE 0x0180 with pc := 0x7FFE } = .next t ∧ t.fetchAddress = 0x7FFE ∧
      teenyBit 0x0180 = false ∧ (0x7FFE : Word) ≠ 0x7FFF) ∧
    ∃ t, exec (.str .rA .rB (.teeny 0)) ({ ab 0x7FFF 5 with pc := 0x7FFE }.setRamWord 0x7FFE 0x0180) = .next t ∧
      t.fetchAddress + 1 = 0x7FFF ∧ teenyBit (t.ramWord t.fetchAddress) = false :=
  ⟨⟨_, rfl, by decide, by decide, by decide⟩, ⟨_, rfl, by decide, by decide⟩⟩

/-- The defaults meet every premise on parameters that a statement about them has. -/
theorem wit_DefaultParameters : State.reset.config = parameters ∧ Config.noUnsetFault State.reset.config ∧
    State.reset.accepts .rZ ∧ State.reset.accepts .rE ∧ State.reset.config.cmpRule = .signedExact ∧
    State.reset.config.divRule = .signedTrunc ∧ State.reset.config.divZero = .refuse ∧
    State.reset.config.shfFill = .logical ∧ State.reset.config.shfBig = .zero ∧ State.reset.config.rotBig = .mod16 ∧
    State.reset.config.stackOutsideRam = .refuse ∧ State.reset.config.jmpTeeny = .refuse ∧
    State.reset.config.jmpBit3 = .refuse ∧ State.reset.config.illegalOpcode = .refuse :=
  ⟨rfl, ⟨by decide, by decide, by decide⟩, fun _ => by decide, fun _ => by decide, rfl, rfl, rfl, rfl, rfl, rfl, rfl, rfl,
    rfl, rfl⟩
theorem wit_FaultLeavesTheStateBeforeTheStep : (∃ f, step ((at_ 0x9000 0x8000).setRamWord 0 0x1C00) = .fault f) ∧
    ∃ r, step { (ab 1 0).placeWords 0 [0x8980, 0x0010] with config := { parameters with shfBig := .refuse } } = .refused r :=
  ⟨⟨_, rfl⟩, ⟨_, rfl⟩⟩
theorem wit_StepKeepsTheParameters : ∃ t, step ((at_ 0 0x7FFF).setRamWord 0 0x05C3) = .next t := ⟨_, rfl⟩
theorem wit_UnwrittenStateStaysAsItWas : ∃ t, exec (.set .rA .rZ (.teeny 1)) (ab 0 0) = .next t ∧ Reg.rB ∈ t.unwritten ∧
    Reg.rA ∉ t.unwritten ∧ t.flagsUnwritten = true := ⟨_, rfl, by decide, by decide, rfl⟩
theorem wit_UninitialisedRead :
    (∃ b, step { State.reset.setRamWord 0 0x05C3 with config := { parameters with resetGpr := .fault } } =
      .fault (.uninitialisedRead (.reg .rB) b)) ∧
    (∃ b, step { State.reset.placeWords 0 [0xA804, 0] with config := { parameters with resetFlags := .fault } } =
      .fault (.uninitialisedRead .flags b)) ∧
    (∃ b, step { at_ 0xFFFF 0 with config := { parameters with ramFill := .fault } } =
      .fault (.uninitialisedRead (.ram 0) b)) := ⟨⟨_, rfl⟩, ⟨_, rfl⟩, ⟨_, rfl⟩⟩
theorem wit_FaultParameters : State.accepts { ab 7 1 with config := { parameters with divZero := .nop } } .rZ ∧
    (ab 7 1).reg .rB + State.reset.immed (.teeny 15) = 0 ∧ reservedBit 0xAC00 = false ∧ reservedBit 0xAC08 = true ∧
    State.straddles ((at_ 0x7FFF 0).placeWords 0x7FFF [0x0180]) = true :=
  ⟨fun _ => by decide, by decide, by decide, by decide, by decide⟩
/-- Parameters that name the other readings of the shift, the rotate and the destination rZ. -/
def otherReadings (big : ShfBig) (rot : RotBig) (rz : AluRzFlags) : Config :=
  { parameters with shfFill := .arithmetic, shfBig := big, rotBig := rot, aluRzFlags := rz }

/-- SHF of 0x8000 by -17 under SHF_BIG = mod16 is a left shift by 1, by 16 under zero is 0; a count or a destination is
refused where its parameter says so. -/
theorem wit_OtherReadings :
    (∃ t, exec (.shf .rA .rB (.teeny 0)) { ab 0x4001 0xFFEF with config := otherReadings .mod16 .mod16 .computed } = .next t ∧
      t.rA = 0x8002) ∧
    (∃ t, exec (.shf .rA .rB (.teeny 0)) { ab 0x8000 16 with config := otherReadings .zero .mod16 .stored } = .next t ∧
      t.rA = 0) ∧
    (∃ b, exec (.shf .rZ .rB (.teeny 0)) { ab 1 16 with config := otherReadings .refuse .refuse .refuse } =
      .refused (.shiftCount b)) ∧
    (∃ b, exec (.rot .rZ .rB (.teeny 0)) { ab 1 0xFFF0 with config := otherReadings .refuse .refuse .refuse } =
      .refused (.rotateCount b)) ∧
    (∃ b, exec (.rot .rZ .rB (.teeny 0)) { ab 1 15 with config := otherReadings .refuse .refuse .refuse } =
      .refused (.zeroDestination b)) ∧
    (∃ t, exec (.neg .rZ .w2) { ab 1 15 with config := otherReadings .zero .mod16 .stored } = .next t ∧
      t.flags = fl true false false) := by
  refine ⟨⟨_, rfl, by decide⟩, ⟨_, rfl, by decide⟩, ⟨_, rfl⟩, ⟨_, rfl⟩, ⟨_, rfl⟩, ⟨_, rfl, by decide⟩⟩
theorem wit_ValueParameters : (15 : Word).toNat < 16 ∧ 16 ≤ (16 : Word).toInt.natAbs ∧ 16 ≤ (0xFFF0 : Word).toInt.natAbs ∧
    (ab 7 1).reg .rB + State.reset.immed (.teeny 0) ≠ 0 := by decide

end Sys2Proof.Tests
end

section
/-! PROOFS. The fetch: where a step reads its words, what it executes, and where it leaves PC (R25, R27, R88). -/

namespace Sys2Proof.Machine

/-- PC in RAM is itself the fetch address (R27). -/
theorem fetchAddress_of_inRam {s : State} (h : InRam s.pc) : s.fetchAddress = s.pc := if_pos h

theorem firstFetched_of_inRam {s : State} (h : InRam s.pc) : s.firstFetched = s.ramWord s.pc := by
  rw [State.firstFetched, fetchAddress_of_inRam h]

/-- A one-word instruction takes its immediate from its own word (R85). -/
theorem immedOf_of_teenyBit {w1 : Word} (h : teenyBit w1 = true) (w2 : Word) :
    immedOf w1 w2 = .teeny (imm4Field w1) := if_pos h

/-- The second word plays no part in decoding when T = 1 (R82): the jump on opcode 21 and the immediate are the only
uses of it, and each stands behind T = 0. -/
theorem decodeWords_congr_of_teenyBit {w1 : Word} (h : teenyBit w1 = true) (w2 w2' : Word) :
    decodeWords w1 w2 = decodeWords w1 w2' := by
  have hreal : decodeReal w1 w2 = decodeReal w1 w2' := by
    simp only [decodeReal, immedOf_of_teenyBit h, if_pos h]
  rw [decodeWords, decodeWords, hreal]

/-- The instruction a step executes is that of the two words from the fetch address on, whatever T is: for T = 1 the
decoder does not look at the second. -/
theorem fetched_eq_decodeWords (s : State) :
    s.fetched = decodeWords s.firstFetched (s.ramWord (s.fetchAddress + 1)) := by
  rw [State.fetched, State.secondFetched]
  split
  case isTrue hT => exact decodeWords_congr_of_teenyBit hT _ _
  case isFalse => rfl

theorem straddles_eq_true_iff (s : State) :
    s.straddles = true ↔ teenyBit s.firstFetched = false ∧ s.fetchAddress = 0x7FFF := by
  simp [State.straddles]

/-- The teeny bit T of a first word as the number that R25 subtracts. -/
def teenyCount (w : Word) : Word := if teenyBit w then 1 else 0

theorem teenyCount_eq_zero_iff (w : Word) : teenyCount w = 0 ↔ teenyBit w = false := by
  cases h : teenyBit w <;> simp [teenyCount, h]

/-- An instruction has 2 - T words (R82), counted from any address. -/
theorem add_words_formatOf (a w : Word) : a + Format.words (formatOf w) = a + 2 - teenyCount w := by
  cases h : teenyBit w
  case false => simp [formatOf, teenyCount, Format.words, h]
  case true =>
    simp only [formatOf, teenyCount, Format.words, h, if_true]
    bv_omega

/-- The fetch moves PC to a + 2 - T (R25). -/
theorem afterFetch_eq_setReg (s : State) :
    s.afterFetch = s.setReg .pc (s.fetchAddress + 2 - teenyCount s.firstFetched) := by
  rw [State.afterFetch, add_words_formatOf]

/-- Settles O7: the case the statement leaves out is the straddling fetch, so the step executes what it fetched; with
PC in RAM both the words and the new PC are counted from PC itself. -/
theorem fetchAdvancesPcByTwoMinusT : Obligations.FetchAdvancesPcByTwoMinusT := by
  rintro s t hconfig hpc rfl hfits
  have hfirst := firstFetched_of_inRam hpc
  have haddr := fetchAddress_of_inRam hpc
  rcases step_cases hconfig with ⟨hstraddles, -⟩ | ⟨-, hstep⟩
  · obtain ⟨hteeny, hend⟩ := (straddles_eq_true_iff s).mp hstraddles
    rw [hfirst] at hteeny
    exact absurd ⟨(teenyCount_eq_zero_iff _).mpr hteeny, haddr ▸ hend⟩ hfits
  · rw [hstep, fetched_eq_decodeWords, afterFetch_eq_setReg, hfirst, haddr, teenyCount]

end Sys2Proof.Machine
end

section
/-! PROOFS. The data write: what it keeps, and what it does on each side of the end of RAM (R57). -/

namespace Sys2Proof.Machine

/-- Settles O18: the registers and the flags are kept on either side; below 0x8000 the write is RAM[addr] <- v, above it
is one BusWrite. -/
theorem dataWriteStoresToRamOrOneBusWrite : Obligations.DataWriteStoresToRamOrOneBusWrite := by
  intro s addr v
  refine ⟨memWrite_reg s addr v, memWrite_flags s addr v, fun hram => ?ram, fun habove => ?bus⟩
  case ram =>
    rw [memWrite_ram s addr v hram]
    exact ⟨ramWord_setRamWord s addr v, setRamWord_busLog s addr v, setRamWord_hostAnswers s addr v⟩
  case bus =>
    rw [memWrite_bus s addr v (Nat.not_le.mpr habove)]
    exact ⟨busWrite_busLog s addr v, busWrite_hostAnswers s addr v, busWrite_ramWord s addr v⟩

end Sys2Proof.Machine
end

section
/-! PROOFS. The fields of a first word given by its value (R80): the value formula is the word that the encoder builds,
whose fields read back by the laws of the encoder. -/

namespace Sys2Proof

/-- Concatenation as arithmetic: the left part stands above the `n` bits of the right one. -/
theorem toNat_append_eq_mul_add {m n : Nat} (x : BitVec m) (y : BitVec n) :
    (x ++ y).toNat = x.toNat * 2 ^ n + y.toNat := by
  rw [BitVec.toNat_append, ← Nat.shiftLeft_add_eq_or_of_lt y.isLt, Nat.shiftLeft_eq]

/-- The value of a first word in its fields (R80). -/
theorem firstWord_toNat {op : Nat} (t : Bool) (a b : BitVec 3) (low : BitVec 4) (h : op < 32) :
    (firstWord op t a b low).toNat = op * 2048 + t.toNat * 1024 + a.toNat * 128 + b.toNat * 16 + low.toNat := by
  simp only [firstWord, toNat_append_eq_mul_add, BitVec.toNat_ofBool, BitVec.toNat_ofNat]
  omega

/-- The word with the value of R80 is the one the encoder builds from the same fields. -/
theorem ofNat_eq_firstWord {op t a b i : Nat} (hop : op < 32) (ht : t < 2) (ha : a < 8) (hb : b < 8) (hi : i < 16) :
    BitVec.ofNat 16 (op * 2048 + t * 1024 + a * 128 + b * 16 + i) =
      firstWord op (decide (t = 1)) (BitVec.ofNat 3 a) (BitVec.ofNat 3 b) (BitVec.ofNat 4 i) := by
  have hteeny : (decide (t = 1)).toNat = t := by
    interval_cases t <;> rfl
  apply BitVec.eq_of_toNat_eq
  simp only [firstWord_toNat _ _ _ _ hop, hteeny, BitVec.toNat_ofNat]
  omega

/-- A 3-bit field reads back from the register it names (R21). -/
@[simp] theorem field_ofField (f : BitVec 3) : (Reg.ofField f).field = f := by
  revert f; decide

@[simp] theorem field_reg1Field_firstWord (op : Nat) (t : Bool) (a b : BitVec 3) (low : BitVec 4) :
    (reg1Field (firstWord op t a b low)).field = a := by
  rw [reg1Field, field_ofField, reg1_firstWord]

@[simp] theorem field_reg2Field_firstWord (op : Nat) (t : Bool) (a b : BitVec 3) (low : BitVec 4) :
    (reg2Field (firstWord op t a b low)).field = b := by
  rw [reg2Field, field_ofField, reg2_firstWord]

@[simp] theorem reservedBit_firstWord (op : Nat) (t : Bool) (a b : BitVec 3) (low : BitVec 4) :
    reservedBit (firstWord op t a b low) = low.getLsbD 3 := firstWord_getLsbD op t a b low 3

@[simp] theorem maskField_firstWord (op : Nat) (t : Bool) (a b : BitVec 3) (low : BitVec 4) :
    maskField (firstWord op t a b low) = ⟨low.getLsbD 2, low.getLsbD 1, low.getLsbD 0⟩ := by
  simp only [maskField, firstWord_getLsbD]
  rfl

/-- A bit of the 4-bit field as a digit of its value. -/
theorem getLsbD_ofNat_four_iff (i : Nat) {k : Nat} (hk : k < 4) :
    (BitVec.ofNat 4 i).getLsbD k = true ↔ i / 2 ^ k % 2 = 1 := by
  rw [BitVec.getLsbD_ofNat, decide_eq_true hk, Bool.true_and, Nat.testBit_eq_decide_div_mod_eq, decide_eq_true_iff]

/-- Settles O1: the word is the encoder's, so each field is the one it was built from; the reserved bit and the mask
are the binary digits of the 4-bit field. -/
theorem firstWordFieldsReadBack : Obligations.FirstWordFieldsReadBack := by
  rintro op t a b i hop ht ha hb hi w rfl
  rw [ofNat_eq_firstWord hop ht ha hb hi, maskField_firstWord]
  refine ⟨opcodeField_firstWord _ _ _ _ hop, ?teeny, field_reg1Field_firstWord .., field_reg2Field_firstWord ..,
    imm4Field_firstWord .., ?reserved, ?equal, ?less, ?greater⟩
  case teeny => rw [teenyBit_firstWord, decide_eq_true_iff]
  case reserved => rw [reservedBit_firstWord]; exact getLsbD_ofNat_four_iff i (by decide)
  case equal => exact getLsbD_ofNat_four_iff i (by decide)
  case less => exact getLsbD_ofNat_four_iff i (by decide)
  case greater => simpa using getLsbD_ofNat_four_iff i (k := 0) (by decide)

end Sys2Proof
end

section
/-! PROOFS. The word the manual decodes, 0x0480 (R95): SET PC, rZ + 0. -/

namespace Sys2Proof.Machine

/-- SET writes its operand to reg1 and completes (R110). -/
theorem exec_set (r1 r2 : Reg) (imm : Immed) (s : State) :
    exec (.set r1 r2 imm) s = .next (s.setReg r1 (s.operand r2 imm)) := rfl

/-- Either value of TEENY_IMM_EXT widens 0 to 0 (R85). -/
@[simp] theorem immed_teeny_zero (s : State) : s.immed (.teeny 0) = 0 := by
  cases h : s.config.teenyImmExt <;> simp [State.immed, widenImm4, h]

/-- 0x0480 is SET PC, rZ + 0 whatever word follows it: its teeny bit is set. -/
theorem decodeWords_0x0480 (w2 : Word) : decodeWords 0x0480 w2 = .set .pc .rZ (.teeny 0) :=
  (decodeWords_congr_of_teenyBit (w1 := 0x0480) (by decide) w2 0).trans (by decide)

/-- Settles O6: the fields are those of a fixed word; the SET writes rZ + 0 to PC, and that is 0 on every state. -/
theorem manualsDecodedWordSetsPcToZero : Obligations.ManualsDecodedWordSetsPcToZero := by
  refine ⟨by decide, by decide, by decide, by decide, by decide, decodeWords_0x0480, fun s => ?sets⟩
  case sets =>
    refine ⟨_, by rw [decodeWords_0x0480, exec_set], ?_⟩
    rw [setReg_pc_pc, operand_eq, reg_rZ, immed_teeny_zero]
    rfl

end Sys2Proof.Machine
end

section
/-! PROOFS. Data movement between registers and to memory: SET (R110) and STR (R114). -/

namespace Sys2Proof.Machine

/-- Opcode 0 is SET in both formats, and no mnemonic is more particular (R88, R110). -/
theorem decodeWords_of_opcode_set {w1 : Word} (h : opcodeField w1 = 0) (w2 : Word) :
    decodeWords w1 w2 = .set (reg1Field w1) (reg2Field w1) (immedOf w1 w2) := by
  simp only [decodeWords, decodeReal, h, respell]

/-- Opcode 2 is STR in both formats, and no mnemonic is more particular (R88, R114). -/
theorem decodeWords_of_opcode_str {w1 : Word} (h : opcodeField w1 = 2) (w2 : Word) :
    decodeWords w1 w2 = .str (reg1Field w1) (reg2Field w1) (immedOf w1 w2) := by
  simp only [decodeWords, decodeReal, h, respell]

/-- STR is the data write of reg2 at reg1 + immed (R114). -/
theorem exec_str (r1 r2 : Reg) (imm : Immed) (s : State) :
    exec (.str r1 r2 imm) s = .next (s.memWrite (s.operand r1 imm) (s.reg r2)) := rfl

/-- A register write leaves RAM as it was. -/
theorem setReg_sameRam (s : State) (r : Reg) (v : Word) : SameRam s (s.setReg r v) := setReg_ramWord s r v

/-- A register write makes no callback. -/
theorem setReg_sameBus (s : State) (r : Reg) (v : Word) : SameBus s (s.setReg r v) :=
  ⟨setReg_busLog s r v, setReg_hostAnswers s r v⟩

/-- No data write uses up an answer of the host, wherever it goes. -/
@[simp] theorem memWrite_hostAnswers (s : State) (addr v : Word) :
    (s.memWrite addr v).hostAnswers = s.hostAnswers := by
  by_cases hram : InRam addr
  · rw [memWrite_ram s addr v hram, setRamWord_hostAnswers]
  · rw [memWrite_bus s addr v hram, busWrite_hostAnswers]

/-- Settles O20: SET is one register write, whose frame is that of `setReg`. -/
theorem setWritesTheOperandSum : Obligations.SetWritesTheOperandSum := by
  refine ⟨fun _ w2 hop => decodeWords_of_opcode_set hop w2, fun r1 r2 imm s => ?writes⟩
  case writes =>
    rw [exec_set, operand_eq]
    exact ⟨_, rfl, fun r => reg_setReg s r1 r _, setReg_flags s r1 _, setReg_sameRam s r1 _, setReg_sameBus s r1 _⟩

/-- Settles O22: STR is one data write, whose effect on either side of the end of RAM is O18's. -/
theorem strStoresToRamOrTheBus : Obligations.StrStoresToRamOrTheBus := by
  refine ⟨fun _ w2 hop => decodeWords_of_opcode_str hop w2, ?stores⟩
  case stores =>
    rintro r1 r2 imm s addr rfl
    obtain ⟨hregs, hflags, hram, hbus⟩ :=
      dataWriteStoresToRamOrOneBusWrite s (s.reg r1 + s.immed imm) (s.reg r2)
    refine ⟨_, exec_str r1 r2 imm s, hregs, hflags, memWrite_hostAnswers .., fun hlow => ?inRam, fun habove => ?onBus⟩
    case inRam =>
      obtain ⟨hwrites, hlog, -⟩ := hram hlow
      exact ⟨hwrites, hlog⟩
    case onBus =>
      obtain ⟨hlog, -, hsame⟩ := hbus habove
      exact ⟨hsame, hlog⟩

end Sys2Proof.Machine
end

section
/-! PROOFS. The decoder and the encoder: the row of each opcode (R88), the fields that decoding depends on (R84), and
that decoding gives back what was encoded. -/

namespace Sys2Proof

open Machine

/-! ### Fields of a first word -/

/-- Words that agree on a range of bits agree on every range within it. -/
theorem extractLsb'_congr_of_le {w v : Word} {start len start' len' : Nat}
    (h : w.extractLsb' start len = v.extractLsb' start len) (hlo : start ≤ start')
    (hhi : start' + len' ≤ start + len) : w.extractLsb' start' len' = v.extractLsb' start' len' := by
  refine BitVec.eq_of_getLsbD_eq fun k hk => ?_
  have hbit := congrArg (fun x => x.getLsbD (start' - start + k)) h
  have hlt : start' - start + k < len := by omega
  have hidx : start + (start' - start + k) = start' + k := by omega
  simpa [BitVec.getLsbD_extractLsb', hlt, hk, hidx] using hbit

/-- A bit of a range reads as in any word that agrees on the range. -/
theorem getLsbD_congr_of_extractLsb' {w v : Word} {start len k : Nat}
    (h : w.extractLsb' start len = v.extractLsb' start len) (hlo : start ≤ k) (hhi : k < start + len) :
    w.getLsbD k = v.getLsbD k := by
  have hbit := congrArg (fun x => x.getLsbD 0) (extractLsb'_congr_of_le (len' := 1) h hlo hhi)
  simpa [BitVec.getLsbD_extractLsb'] using hbit

/-- Bits 15:10 of a first word are its opcode and its teeny bit (R80). -/
theorem extractLsb'_ten_six_toNat (w : Word) :
    (w.extractLsb' 10 6).toNat = 2 * opcodeField w + (teenyBit w).toNat := by
  have hteeny : (teenyBit w).toNat = w.toNat / 2 ^ 10 % 2 := by
    rw [teenyBit, BitVec.getLsbD, Nat.toNat_testBit]
  simp only [opcodeField, hteeny, BitVec.extractLsb'_toNat, Nat.shiftRight_eq_div_pow]
  omega

theorem extractLsb'_ten_six_eq_iff (w : Word) (v : BitVec 6) :
    w.extractLsb' 10 6 = v ↔ opcodeField w = v.toNat / 2 ∧ (teenyBit w).toNat = v.toNat % 2 := by
  rw [← BitVec.toNat_inj, extractLsb'_ten_six_toNat]
  have := Bool.toNat_lt (teenyBit w)
  omega

/-- The reserved bit is bit 3 of the 4-bit field (R80, R92). -/
theorem reservedBit_eq_imm4Field (w : Word) : reservedBit w = (imm4Field w).getLsbD 3 := by
  simp [reservedBit, imm4Field]

/-- The mask is bits 2, 1, 0 of the 4-bit field (R184). -/
theorem maskField_eq_imm4Field (w : Word) :
    maskField w = ⟨(imm4Field w).getLsbD 2, (imm4Field w).getLsbD 1, (imm4Field w).getLsbD 0⟩ := by
  simp [maskField, imm4Field]

theorem formatOf_of_teenyBit {w : Word} (h : teenyBit w = true) : formatOf w = .w1 := if_pos h

theorem formatOf_of_not_teenyBit {w : Word} (h : teenyBit w = false) : formatOf w = .w2 := by simp [formatOf, h]

theorem immedOf_of_not_teenyBit {w1 : Word} (h : teenyBit w1 = false) (w2 : Word) : immedOf w1 w2 = .wide w2 := by
  simp [immedOf, h]

/-! ### The row of each opcode (R88); those of SET and STR stand above -/

theorem decodeWords_of_opcode_lod {w1 : Word} (h : opcodeField w1 = 1) (w2 : Word) :
    decodeWords w1 w2 = .lod (reg1Field w1) (reg2Field w1) (immedOf w1 w2) := by
  simp only [decodeWords, decodeReal, h, respell]

theorem decodeWords_of_opcode_psh {w1 : Word} (h : opcodeField w1 = 3) (w2 : Word) :
    decodeWords w1 w2 = .psh (reg2Field w1) (immedOf w1 w2) := by
  simp only [decodeWords, decodeReal, h, respell]

theorem decodeWords_of_opcode_pop {w1 : Word} (h : opcodeField w1 = 4) (w2 : Word) :
    decodeWords w1 w2 = respell (.pop (reg1Field w1) (formatOf w1)) := by
  simp only [decodeWords, decodeReal, h]

theorem decodeWords_of_opcode_bts {w1 : Word} (h : opcodeField w1 = 5) (w2 : Word) :
    decodeWords w1 w2 = .bts (reg1Field w1) (reg2Field w1) (immedOf w1 w2) := by
  simp only [decodeWords, decodeReal, h, respell]

theorem decodeWords_of_opcode_btc {w1 : Word} (h : opcodeField w1 = 6) (w2 : Word) :
    decodeWords w1 w2 = .btc (reg1Field w1) (reg2Field w1) (immedOf w1 w2) := by
  simp only [decodeWords, decodeReal, h, respell]

theorem decodeWords_of_opcode_btf {w1 : Word} (h : opcodeField w1 = 7) (w2 : Word) :
    decodeWords w1 w2 = .btf (reg1Field w1) (reg2Field w1) (immedOf w1 w2) := by
  simp only [decodeWords, decodeReal, h, respell]

theorem decodeWords_of_opcode_cal {w1 : Word} (h : opcodeField w1 = 8) (w2 : Word) :
    decodeWords w1 w2 = .cal (reg2Field w1) (immedOf w1 w2) := by
  simp only [decodeWords, decodeReal, h, respell]

theorem decodeWords_of_opcode_add {w1 : Word} (h : opcodeField w1 = 9) (w2 : Word) :
    decodeWords w1 w2 = respell (.add (reg1Field w1) (reg2Field w1) (immedOf w1 w2)) := by
  simp only [decodeWords, decodeReal, h]

theorem decodeWords_of_opcode_sub {w1 : Word} (h : opcodeField w1 = 10) (w2 : Word) :
    decodeWords w1 w2 = respell (.sub (reg1Field w1) (reg2Field w1) (immedOf w1 w2)) := by
  simp only [decodeWords, decodeReal, h]

theorem decodeWords_of_opcode_mpy {w1 : Word} (h : opcodeField w1 = 11) (w2 : Word) :
    decodeWords w1 w2 = .mpy (reg1Field w1) (reg2Field w1) (immedOf w1 w2) := by
  simp only [decodeWords, decodeReal, h, respell]

theorem decodeWords_of_opcode_div {w1 : Word} (h : opcodeField w1 = 12) (w2 : Word) :
    decodeWords w1 w2 = .div (reg1Field w1) (reg2Field w1) (immedOf w1 w2) := by
  simp only [decodeWords, decodeReal, h, respell]

theorem decodeWords_of_opcode_mod {w1 : Word} (h : opcodeField w1 = 13) (w2 : Word) :
    decodeWords w1 w2 = .mod (reg1Field w1) (reg2Field w1) (immedOf w1 w2) := by
  simp only [decodeWords, decodeReal, h, respell]

theorem decodeWords_of_opcode_and {w1 : Word} (h : opcodeField w1 = 14) (w2 : Word) :
    decodeWords w1 w2 = .and (reg1Field w1) (reg2Field w1) (immedOf w1 w2) := by
  simp only [decodeWords, decodeReal, h, respell]

theorem decodeWords_of_opcode_or {w1 : Word} (h : opcodeField w1 = 15) (w2 : Word) :
    decodeWords w1 w2 = .or (reg1Field w1) (reg2Field w1) (immedOf w1 w2) := by
  simp only [decodeWords, decodeReal, h, respell]

theorem decodeWords_of_opcode_xor {w1 : Word} (h : opcodeField w1 = 16) (w2 : Word) :
    decodeWords w1 w2 = .xor (reg1Field w1) (reg2Field w1) (immedOf w1 w2) := by
  simp only [decodeWords, decodeReal, h, respell]

theorem decodeWords_of_opcode_shf {w1 : Word} (h : opcodeField w1 = 17) (w2 : Word) :
    decodeWords w1 w2 = .shf (reg1Field w1) (reg2Field w1) (immedOf w1 w2) := by
  simp only [decodeWords, decodeReal, h, respell]

theorem decodeWords_of_opcode_rot {w1 : Word} (h : opcodeField w1 = 18) (w2 : Word) :
    decodeWords w1 w2 = .rot (reg1Field w1) (reg2Field w1) (immedOf w1 w2) := by
  simp only [decodeWords, decodeReal, h, respell]

theorem decodeWords_of_opcode_neg {w1 : Word} (h : opcodeField w1 = 19) (w2 : Word) :
    decodeWords w1 w2 = .neg (reg1Field w1) (formatOf w1) := by
  simp only [decodeWords, decodeReal, h, respell]

theorem decodeWords_of_opcode_cmp {w1 : Word} (h : opcodeField w1 = 20) (w2 : Word) :
    decodeWords w1 w2 = .cmp (reg1Field w1) (reg2Field w1) (immedOf w1 w2) := by
  simp only [decodeWords, decodeReal, h, respell]

theorem decodeWords_of_opcode_dly {w1 : Word} (h : opcodeField w1 = 22) (w2 : Word) :
    decodeWords w1 w2 = .dly (reg2Field w1) (immedOf w1 w2) := by
  simp only [decodeWords, decodeReal, h, respell]

theorem decodeWords_of_opcode_lup {w1 : Word} (h : opcodeField w1 = 23) (w2 : Word) :
    decodeWords w1 w2 = .lup (reg1Field w1) (reg2Field w1) (immedOf w1 w2) := by
  simp only [decodeWords, decodeReal, h, respell]

/-- Opcode 21 with T = 0 and bit 3 clear is a jump by its mask (R184). -/
theorem decodeWords_of_opcode_jmp {w1 : Word} (h : opcodeField w1 = 21) (hteeny : teenyBit w1 = false)
    (hbit3 : reservedBit w1 = false) (w2 : Word) :
    decodeWords w1 w2 = respell (.jmp (reg1Field w1) (maskField w1) w2) := by
  simp [decodeWords, decodeReal, h, hteeny, hbit3]

/-- Opcode 21 with T = 1 is reserved (R91). -/
theorem decodeWords_of_opcode_jmp_oneWord {w1 : Word} (h : opcodeField w1 = 21) (hteeny : teenyBit w1 = true)
    (w2 : Word) : decodeWords w1 w2 = .reservedJmpOneWord w1 := by
  simp [decodeWords, decodeReal, h, hteeny, respell]

/-- Opcode 21 with T = 0 and bit 3 set is reserved (R92). -/
theorem decodeWords_of_opcode_jmp_bit3 {w1 : Word} (h : opcodeField w1 = 21) (hteeny : teenyBit w1 = false)
    (hbit3 : reservedBit w1 = true) (w2 : Word) : decodeWords w1 w2 = .reservedJmpBit3 w1 w2 := by
  simp [decodeWords, decodeReal, h, hteeny, hbit3, respell]

/-- Opcodes 24 to 31 are undefined (R93). -/
theorem decodeWords_of_opcode_undefined {w1 : Word} (h : 23 < opcodeField w1) (w2 : Word) :
    decodeWords w1 w2 = .undefinedOpcode w1 := by
  have hreal : decodeReal w1 w2 = .undefinedOpcode w1 := by
    unfold decodeReal
    split
    case h_25 => rfl
    all_goals omega
  rw [decodeWords, hreal]
  rfl

/-! ### Decoding what was encoded -/

theorem decode_cons_of_teenyBit {w1 : Word} (h : teenyBit w1 = true) (w2 : Word) (rest : List Word) :
    decode (w1 :: rest) = .ok (decodeWords w1 w2, rest) := by
  cases rest with
  | nil => rw [decode, if_pos h, decodeWords_congr_of_teenyBit h 0 w2]
  | cons w rest => rw [decode, if_pos h, decodeWords_congr_of_teenyBit h w w2]

theorem decode_cons_cons_of_not_teenyBit {w1 : Word} (h : teenyBit w1 = false) (w2 : Word) (rest : List Word) :
    decode (w1 :: w2 :: rest) = .ok (decodeWords w1 w2, rest) := by simp [decode, h]

/-- An opcode whose row is `row` decodes from what `encodeImmed` makes of its operands. -/
theorem decode_encodeImmed {op : Nat} (hop : op < 32) {row : Reg → Reg → Immed → Instr}
    (hrow : ∀ {w1 : Word}, opcodeField w1 = op → ∀ w2,
      decodeWords w1 w2 = row (reg1Field w1) (reg2Field w1) (immedOf w1 w2))
    (r1 r2 : Reg) (imm : Immed) (rest : List Word) :
    decode (encodeImmed op r1.field r2.field imm ++ rest) = .ok (row r1 r2 imm, rest) := by
  have hfields (t : Bool) (low : BitVec 4) (w2 : Word) :
      decodeWords (firstWord op t r1.field r2.field low) w2 =
        row r1 r2 (immedOf (firstWord op t r1.field r2.field low) w2) := by
    rw [hrow (opcodeField_firstWord _ _ _ _ hop), reg1Field, reg2Field, reg1_firstWord, reg2_firstWord,
      ofField_field, ofField_field]
  cases imm with
  | teeny imm4 =>
    have hteeny := teenyBit_firstWord op true r1.field r2.field imm4
    rw [encodeImmed, List.singleton_append, decode_cons_of_teenyBit hteeny 0, hfields, immedOf_of_teenyBit hteeny,
      imm4Field_firstWord]
  | wide imm16 =>
    have hteeny := teenyBit_firstWord op false r1.field r2.field 0
    rw [encodeImmed, List.cons_append, List.singleton_append, decode_cons_cons_of_not_teenyBit hteeny, hfields,
      immedOf_of_not_teenyBit hteeny]

/-- The same for an opcode without an immediate. -/
theorem decode_encodeBare {op : Nat} (hop : op < 32) {row : Reg → Format → Instr}
    (hrow : ∀ {w1 : Word}, opcodeField w1 = op → ∀ w2, decodeWords w1 w2 = row (reg1Field w1) (formatOf w1))
    (r1 : Reg) (fmt : Format) (rest : List Word) :
    decode (encodeBare op r1.field fmt ++ rest) = .ok (row r1 fmt, rest) := by
  have hfields (t : Bool) (w2 : Word) : decodeWords (firstWord op t r1.field 0 0) w2 =
      row r1 (formatOf (firstWord op t r1.field 0 0)) := by
    rw [hrow (opcodeField_firstWord _ _ _ _ hop), reg1Field, reg1_firstWord, ofField_field]
  cases fmt with
  | w1 =>
    have hteeny := teenyBit_firstWord op true r1.field 0 0
    rw [encodeBare, List.singleton_append, decode_cons_of_teenyBit hteeny 0, hfields, formatOf_of_teenyBit hteeny]
  | w2 =>
    have hteeny := teenyBit_firstWord op false r1.field 0 0
    rw [encodeBare, List.cons_append, List.singleton_append, decode_cons_cons_of_not_teenyBit hteeny, hfields,
      formatOf_of_not_teenyBit hteeny]

/-- The words of a jump decode to it, under the name its mask has (R203 to R208). -/
theorem decode_encodeJump (r1 : Reg) (mask : Mask) (imm16 : Word) (rest : List Word) :
    decode (encodeJump r1 mask imm16 ++ rest) = .ok (respell (.jmp r1 mask imm16), rest) := by
  obtain ⟨e, l, g⟩ := mask
  rw [encodeJump, List.cons_append, List.singleton_append,
    decode_cons_cons_of_not_teenyBit (teenyBit_firstWord ..),
    decodeWords_of_opcode_jmp (opcodeField_firstWord _ _ _ _ (by decide)) (teenyBit_firstWord ..), maskField_firstWord,
    reg1Field, reg1_firstWord, ofField_field]
  · cases e <;> cases l <;> cases g <;> rfl
  · rw [reservedBit_firstWord]
    cases e <;> cases l <;> cases g <;> rfl

/-! ### The spelling -/

theorem wellFormed_add_iff (r1 r2 : Reg) (imm : Immed) :
    WellFormed (.add r1 r2 imm) = true ↔ ¬(r2 = .rZ ∧ imm = .teeny 1) := by
  simp [WellFormed, -not_and, not_and_or]

theorem wellFormed_sub_iff (r1 r2 : Reg) (imm : Immed) :
    WellFormed (.sub r1 r2 imm) = true ↔ ¬(r2 = .rZ ∧ imm = .teeny 1) := by
  simp [WellFormed, -not_and, not_and_or]

theorem wellFormed_pop_iff (r1 : Reg) (fmt : Format) : WellFormed (.pop r1 fmt) = true ↔ ¬(r1 = .pc ∧ fmt = .w1) := by
  simp [WellFormed, -not_and, not_and_or]

/-- A well-formed jump has one of the two masks without a name (R185). -/
theorem respell_jmp_of_wellFormed {r1 : Reg} {mask : Mask} {imm16 : Word}
    (h : WellFormed (.jmp r1 mask imm16) = true) : respell (.jmp r1 mask imm16) = .jmp r1 mask imm16 := by
  obtain ⟨_ | _, _ | _, _ | _⟩ := mask
  case false.false.false => rfl
  case true.true.true => rfl
  all_goals exact absurd h (by simp [WellFormed, Mask.hasMnemonic])

/-- The constructors that stand for the reserved and undefined words (R91 to R93). -/
def Instr.isReserved : Instr → Bool
  | .reservedJmpOneWord _ => true
  | .reservedJmpBit3 _ _ => true
  | .undefinedOpcode _ => true
  | _ => false

/-- The spelling that `respell` chooses is the well-formed one. -/
theorem wellFormed_respell {i : Instr} (h : i.isReserved = false) : WellFormed (respell i) = true := by
  cases i with
  | add r1 r2 imm =>
    rw [respell]
    split
    case isTrue => rfl
    case isFalse hname => exact (wellFormed_add_iff r1 r2 imm).mpr hname
  | sub r1 r2 imm =>
    rw [respell]
    split
    case isTrue => rfl
    case isFalse hname => exact (wellFormed_sub_iff r1 r2 imm).mpr hname
  | pop r1 fmt =>
    rw [respell]
    split
    case isTrue => rfl
    case isFalse hname => exact (wellFormed_pop_iff r1 fmt).mpr hname
  | jmp r1 mask imm16 => obtain ⟨_ | _, _ | _, _ | _⟩ := mask <;> rfl
  | reservedJmpOneWord w1 => cases h
  | reservedJmpBit3 w1 w2 => cases h
  | undefinedOpcode w1 => cases h
  | _ => rfl

/-! ### The words of the reserved classes -/

theorem wellFormed_reservedJmpOneWord_iff (w1 : Word) :
    WellFormed (.reservedJmpOneWord w1) = true ↔ opcodeField w1 = 21 ∧ teenyBit w1 = true := by
  rw [WellFormed, beq_iff_eq, extractLsb'_ten_six_eq_iff]
  simp

theorem wellFormed_reservedJmpBit3_iff (w1 w2 : Word) : WellFormed (.reservedJmpBit3 w1 w2) = true ↔
    (opcodeField w1 = 21 ∧ teenyBit w1 = false) ∧ reservedBit w1 = true := by
  rw [WellFormed, Bool.and_eq_true, beq_iff_eq, extractLsb'_ten_six_eq_iff, reservedBit]
  simp

theorem wellFormed_undefinedOpcode_iff (w1 : Word) :
    WellFormed (.undefinedOpcode w1) = true ↔ 23 < opcodeField w1 := by
  rw [WellFormed, decide_eq_true_iff, opcodeField, Nat.succ_le_iff]

theorem decode_encodeImmed_add (r1 r2 : Reg) (imm : Immed) (rest : List Word) :
    decode (encodeImmed 9 r1.field r2.field imm ++ rest) = .ok (respell (.add r1 r2 imm), rest) :=
  decode_encodeImmed (by decide) (row := fun r1 r2 imm => respell (.add r1 r2 imm)) decodeWords_of_opcode_add r1 r2 imm
    rest

theorem decode_encodeImmed_sub (r1 r2 : Reg) (imm : Immed) (rest : List Word) :
    decode (encodeImmed 10 r1.field r2.field imm ++ rest) = .ok (respell (.sub r1 r2 imm), rest) :=
  decode_encodeImmed (by decide) (row := fun r1 r2 imm => respell (.sub r1 r2 imm)) decodeWords_of_opcode_sub r1 r2 imm
    rest

theorem decode_encodeBare_pop (r1 : Reg) (fmt : Format) (rest : List Word) :
    decode (encodeBare 4 r1.field fmt ++ rest) = .ok (respell (.pop r1 fmt), rest) :=
  decode_encodeBare (by decide) (row := fun r1 fmt => respell (.pop r1 fmt)) decodeWords_of_opcode_pop r1 fmt rest

/-- Settles O2, row by row: the words an instruction encodes to have its opcode and its fields, and the name that
decoding then chooses is the one a well-formed instruction bears. -/
theorem decodeOfEncodeIsIdentity : Obligations.DecodeOfEncodeIsIdentity := by
  intro i rest h
  cases i with
  | set r1 r2 imm => exact decode_encodeImmed (by decide) decodeWords_of_opcode_set r1 r2 imm rest
  | lod r1 r2 imm => exact decode_encodeImmed (by decide) decodeWords_of_opcode_lod r1 r2 imm rest
  | str r1 r2 imm => exact decode_encodeImmed (by decide) decodeWords_of_opcode_str r1 r2 imm rest
  | psh r2 imm =>
    exact decode_encodeImmed (by decide) (row := fun _ r2 imm => .psh r2 imm) decodeWords_of_opcode_psh .rZ r2 imm rest
  | bts r1 r2 imm => exact decode_encodeImmed (by decide) decodeWords_of_opcode_bts r1 r2 imm rest
  | btc r1 r2 imm => exact decode_encodeImmed (by decide) decodeWords_of_opcode_btc r1 r2 imm rest
  | btf r1 r2 imm => exact decode_encodeImmed (by decide) decodeWords_of_opcode_btf r1 r2 imm rest
  | cal r2 imm =>
    exact decode_encodeImmed (by decide) (row := fun _ r2 imm => .cal r2 imm) decodeWords_of_opcode_cal .rZ r2 imm rest
  | mpy r1 r2 imm => exact decode_encodeImmed (by decide) decodeWords_of_opcode_mpy r1 r2 imm rest
  | div r1 r2 imm => exact decode_encodeImmed (by decide) decodeWords_of_opcode_div r1 r2 imm rest
  | mod r1 r2 imm => exact decode_encodeImmed (by decide) decodeWords_of_opcode_mod r1 r2 imm rest
  | and r1 r2 imm => exact decode_encodeImmed (by decide) decodeWords_of_opcode_and r1 r2 imm rest
  | or r1 r2 imm => exact decode_encodeImmed (by decide) decodeWords_of_opcode_or r1 r2 imm rest
  | xor r1 r2 imm => exact decode_encodeImmed (by decide) decodeWords_of_opcode_xor r1 r2 imm rest
  | shf r1 r2 imm => exact decode_encodeImmed (by decide) decodeWords_of_opcode_shf r1 r2 imm rest
  | rot r1 r2 imm => exact decode_encodeImmed (by decide) decodeWords_of_opcode_rot r1 r2 imm rest
  | cmp r1 r2 imm => exact decode_encodeImmed (by decide) decodeWords_of_opcode_cmp r1 r2 imm rest
  | dly r2 imm =>
    exact decode_encodeImmed (by decide) (row := fun _ r2 imm => .dly r2 imm) decodeWords_of_opcode_dly .rZ r2 imm rest
  | lup r1 r2 imm => exact decode_encodeImmed (by decide) decodeWords_of_opcode_lup r1 r2 imm rest
  | neg r1 fmt => exact decode_encodeBare (by decide) decodeWords_of_opcode_neg r1 fmt rest
  | add r1 r2 imm =>
    have hname : respell (.add r1 r2 imm) = .add r1 r2 imm := if_neg ((wellFormed_add_iff r1 r2 imm).mp h)
    exact (decode_encodeImmed_add r1 r2 imm rest).trans (by rw [hname])
  | sub r1 r2 imm =>
    have hname : respell (.sub r1 r2 imm) = .sub r1 r2 imm := if_neg ((wellFormed_sub_iff r1 r2 imm).mp h)
    exact (decode_encodeImmed_sub r1 r2 imm rest).trans (by rw [hname])
  | pop r1 fmt =>
    have hname : respell (.pop r1 fmt) = .pop r1 fmt := if_neg ((wellFormed_pop_iff r1 fmt).mp h)
    exact (decode_encodeBare_pop r1 fmt rest).trans (by rw [hname])
  | jmp r1 mask imm16 =>
    exact (decode_encodeJump r1 mask imm16 rest).trans (by rw [respell_jmp_of_wellFormed h])
  | inc r1 => exact decode_encodeImmed_add r1 .rZ (.teeny 1) rest
  | dec r1 => exact decode_encodeImmed_sub r1 .rZ (.teeny 1) rest
  | ret => exact decode_encodeBare_pop .pc .w1 rest
  | je r1 imm16 => exact decode_encodeJump r1 ⟨true, false, false⟩ imm16 rest
  | jne r1 imm16 => exact decode_encodeJump r1 ⟨false, true, true⟩ imm16 rest
  | jl r1 imm16 => exact decode_encodeJump r1 ⟨false, true, false⟩ imm16 rest
  | jle r1 imm16 => exact decode_encodeJump r1 ⟨true, true, false⟩ imm16 rest
  | jg r1 imm16 => exact decode_encodeJump r1 ⟨false, false, true⟩ imm16 rest
  | jge r1 imm16 => exact decode_encodeJump r1 ⟨true, false, true⟩ imm16 rest
  | reservedJmpOneWord w1 =>
    obtain ⟨hop, hteeny⟩ := (wellFormed_reservedJmpOneWord_iff w1).mp h
    rw [encode, List.singleton_append, decode_cons_of_teenyBit hteeny 0, decodeWords_of_opcode_jmp_oneWord hop hteeny]
  | reservedJmpBit3 w1 w2 =>
    obtain ⟨⟨hop, hteeny⟩, hbit3⟩ := (wellFormed_reservedJmpBit3_iff w1 w2).mp h
    rw [encode, List.cons_append, List.singleton_append, decode_cons_cons_of_not_teenyBit hteeny,
      decodeWords_of_opcode_jmp_bit3 hop hteeny hbit3]
  | undefinedOpcode w1 =>
    have hop := (wellFormed_undefinedOpcode_iff w1).mp h
    cases hteeny : teenyBit w1 with
    | true => simp [encode, hteeny, decode_cons_of_teenyBit hteeny 0, decodeWords_of_opcode_undefined hop]
    | false => simp [encode, hteeny, decode_cons_cons_of_not_teenyBit hteeny, decodeWords_of_opcode_undefined hop]

/-! ### The opcode map -/

/-- Only opcode 21 and those above 23 decode to a reserved class (R91 to R93). -/
theorem isReserved_decodeReal {w1 : Word} (hop : opcodeField w1 ≤ 23) (hjmp : opcodeField w1 ≠ 21) (w2 : Word) :
    (decodeReal w1 w2).isReserved = false := by
  interval_cases hk : opcodeField w1
  on_goal 22 => exact absurd rfl hjmp
  all_goals simp only [decodeReal, hk]; rfl

/-- Decoding gives the one spelling of every word: of the reserved classes by what their words are, of the others by
`respell`. -/
theorem wellFormed_decodeWords (w1 w2 : Word) : WellFormed (decodeWords w1 w2) = true := by
  by_cases hundef : 23 < opcodeField w1
  · rw [decodeWords_of_opcode_undefined hundef, wellFormed_undefinedOpcode_iff]
    exact hundef
  by_cases hjmp : opcodeField w1 = 21
  · cases hteeny : teenyBit w1 with
    | true =>
      rw [decodeWords_of_opcode_jmp_oneWord hjmp hteeny, wellFormed_reservedJmpOneWord_iff]
      exact ⟨hjmp, hteeny⟩
    | false =>
      cases hbit3 : reservedBit w1 with
      | true =>
        rw [decodeWords_of_opcode_jmp_bit3 hjmp hteeny hbit3, wellFormed_reservedJmpBit3_iff]
        exact ⟨⟨hjmp, hteeny⟩, hbit3⟩
      | false =>
        rw [decodeWords_of_opcode_jmp hjmp hteeny hbit3]
        exact wellFormed_respell rfl
  · exact wellFormed_respell (isReserved_decodeReal (Nat.not_lt.mp hundef) hjmp w2)

theorem immedOf_eq_teeny_iff (w1 w2 : Word) (f : BitVec 4) :
    immedOf w1 w2 = .teeny f ↔ teenyBit w1 = true ∧ imm4Field w1 = f := by
  cases h : teenyBit w1 <;> simp [immedOf, h]

theorem formatOf_eq_w1_iff (w1 : Word) : formatOf w1 = .w1 ↔ teenyBit w1 = true := by
  cases h : teenyBit w1 <;> simp [formatOf, h]

/-- A 4-bit field of 8 or more has its bit 3 set. -/
theorem getLsbD_three_of_le {f : BitVec 4} (h : 8 ≤ f.toNat) : f.getLsbD 3 = true := by
  revert f; decide

/-- The instruction of opcode 21 with T = 0, from its 4-bit field (R92, R184). -/
theorem decodeWords_of_imm4Field {w1 : Word} (h : opcodeField w1 = 21) (hteeny : teenyBit w1 = false) {f : BitVec 4}
    (hf : imm4Field w1 = f) (w2 : Word) : decodeWords w1 w2 =
      if f.getLsbD 3 = true then .reservedJmpBit3 w1 w2
      else respell (.jmp (reg1Field w1) ⟨f.getLsbD 2, f.getLsbD 1, f.getLsbD 0⟩ w2) := by
  subst hf
  cases hbit3 : reservedBit w1 with
  | true =>
    rw [decodeWords_of_opcode_jmp_bit3 h hteeny hbit3, if_pos]
    rwa [← reservedBit_eq_imm4Field]
  | false =>
    rw [decodeWords_of_opcode_jmp h hteeny hbit3, maskField_eq_imm4Field, if_neg]
    rw [← reservedBit_eq_imm4Field, hbit3]
    exact Bool.false_ne_true

/-- Settles O3: every opcode has its row; the names among ADD, SUB and POP stand where the fields say so, and those of
the jumps by the 4-bit field. -/
theorem decodedInstructionIsWellFormed : Obligations.DecodedInstructionIsWellFormed := by
  intro w1 w2
  refine ⟨wellFormed_decodeWords w1 w2, (decodeWords_of_opcode_set · w2), (decodeWords_of_opcode_lod · w2),
    (decodeWords_of_opcode_str · w2), (decodeWords_of_opcode_psh · w2), ?pop, (decodeWords_of_opcode_bts · w2),
    (decodeWords_of_opcode_btc · w2), (decodeWords_of_opcode_btf · w2), (decodeWords_of_opcode_cal · w2), ?add, ?sub,
    (decodeWords_of_opcode_mpy · w2), (decodeWords_of_opcode_div · w2), (decodeWords_of_opcode_mod · w2),
    (decodeWords_of_opcode_and · w2), (decodeWords_of_opcode_or · w2), (decodeWords_of_opcode_xor · w2),
    (decodeWords_of_opcode_shf · w2), (decodeWords_of_opcode_rot · w2), (decodeWords_of_opcode_neg · w2),
    (decodeWords_of_opcode_cmp · w2), (decodeWords_of_opcode_jmp_oneWord · · w2), ?jump,
    (decodeWords_of_opcode_dly · w2), (decodeWords_of_opcode_lup · w2), (decodeWords_of_opcode_undefined · w2)⟩
  case pop =>
    intro hop
    simp only [decodeWords_of_opcode_pop hop, respell, formatOf_eq_w1_iff]
  case add =>
    intro hop
    simp only [decodeWords_of_opcode_add hop, respell, immedOf_eq_teeny_iff]
  case sub =>
    intro hop
    simp only [decodeWords_of_opcode_sub hop, respell, immedOf_eq_teeny_iff]
  case jump =>
    intro hop hteeny
    refine ⟨?_, ?_, ?_, ?_, ?_, ?_, ?_, ?_, fun hbit3 => ?reserved⟩
    case reserved => rw [decodeWords_of_imm4Field hop hteeny rfl, if_pos (getLsbD_three_of_le hbit3)]
    all_goals exact fun hf => decodeWords_of_imm4Field hop hteeny hf w2

/-! ### What decoding does not depend on -/

theorem opcodeField_congr {w v : Word} {start len : Nat} (h : w.extractLsb' start len = v.extractLsb' start len)
    (hlo : start ≤ 11) (hhi : 16 ≤ start + len) : opcodeField w = opcodeField v :=
  congrArg BitVec.toNat (extractLsb'_congr_of_le h hlo hhi)

theorem teenyBit_congr {w v : Word} {start len : Nat} (h : w.extractLsb' start len = v.extractLsb' start len)
    (hlo : start ≤ 10) (hhi : 10 < start + len) : teenyBit w = teenyBit v :=
  getLsbD_congr_of_extractLsb' h hlo hhi

theorem formatOf_congr {w v : Word} (h : teenyBit w = teenyBit v) : formatOf w = formatOf v := by
  rw [formatOf, formatOf, h]

theorem reg1Field_congr {w v : Word} {start len : Nat} (h : w.extractLsb' start len = v.extractLsb' start len)
    (hlo : start ≤ 7) (hhi : 10 ≤ start + len) : reg1Field w = reg1Field v :=
  congrArg Reg.ofField (extractLsb'_congr_of_le h hlo hhi)

theorem reg2Field_congr {w v : Word} {start len : Nat} (h : w.extractLsb' start len = v.extractLsb' start len)
    (hlo : start ≤ 4) (hhi : 7 ≤ start + len) : reg2Field w = reg2Field v :=
  congrArg Reg.ofField (extractLsb'_congr_of_le h hlo hhi)

theorem imm4Field_congr {w v : Word} {len : Nat} (h : w.extractLsb' 0 len = v.extractLsb' 0 len) (hhi : 4 ≤ len) :
    imm4Field w = imm4Field v :=
  extractLsb'_congr_of_le h (Nat.le_refl 0) (by omega)

theorem immedOf_congr {w v : Word} (hteeny : teenyBit w = teenyBit v) (himm4 : imm4Field w = imm4Field v) (w2 : Word) :
    immedOf w w2 = immedOf v w2 := by
  rw [immedOf, immedOf, hteeny, himm4]

/-- Outside opcode 21 and the undefined ones, decoding depends on the opcode, the two registers, the format and the
immediate only (R84). -/
theorem decodeWords_congr_of_fields {w1 v1 w2 : Word} (hrow : opcodeField w1 ≤ 23) (hjmp : opcodeField w1 ≠ 21)
    (hop : opcodeField w1 = opcodeField v1) (hr1 : reg1Field w1 = reg1Field v1) (hr2 : reg2Field w1 = reg2Field v1)
    (hfmt : formatOf w1 = formatOf v1) (himm : immedOf w1 w2 = immedOf v1 w2) :
    decodeWords w1 w2 = decodeWords v1 w2 := by
  have hreal : decodeReal w1 w2 = decodeReal v1 w2 := by
    rw [decodeReal, decodeReal, ← hop, ← hr1, ← hr2, ← hfmt, ← himm]
    interval_cases hk : opcodeField w1
    on_goal 22 => exact absurd rfl hjmp
    all_goals rfl
  rw [decodeWords, decodeWords, hreal]

/-- Settles O4: in each row the fields that the instruction is made of lie in the bits that agree. -/
theorem unusedFieldsAreIgnored : Obligations.UnusedFieldsAreIgnored := by
  intro w1 v1 w2 v2
  refine ⟨fun hteeny => decodeWords_congr_of_teenyBit hteeny w2 v2, fun hrow h => ?bare, fun hrow hhigh hlow => ?reg2,
    fun hop hbit3 hteeny hhigh hlow => ?jump, fun hrow hjmp hteeny h => ?twoWords⟩
  case bare =>
    have hop := opcodeField_congr h (by decide) (by decide)
    have hr1 := reg1Field_congr h (by decide) (by decide)
    have hfmt := formatOf_congr (teenyBit_congr h (by decide) (by decide))
    rcases hrow with hpop | hneg
    · rw [decodeWords_of_opcode_pop hpop, decodeWords_of_opcode_pop (hop ▸ hpop), hr1, hfmt]
    · rw [decodeWords_of_opcode_neg hneg, decodeWords_of_opcode_neg (hop ▸ hneg), hr1, hfmt]
  case reg2 =>
    have hop := opcodeField_congr hhigh (by decide) (by decide)
    have hr2 := reg2Field_congr hlow (by decide) (by decide)
    have himm := immedOf_congr (teenyBit_congr hhigh (by decide) (by decide)) (imm4Field_congr hlow (by decide)) w2
    rcases hrow with hpsh | hcal | hdly
    · rw [decodeWords_of_opcode_psh hpsh, decodeWords_of_opcode_psh (hop ▸ hpsh), hr2, himm]
    · rw [decodeWords_of_opcode_cal hcal, decodeWords_of_opcode_cal (hop ▸ hcal), hr2, himm]
    · rw [decodeWords_of_opcode_dly hdly, decodeWords_of_opcode_dly (hop ▸ hdly), hr2, himm]
  case jump =>
    have hop' := opcodeField_congr hhigh (by decide) (by decide)
    have hteeny' := teenyBit_congr hhigh (by decide) (by decide)
    have hr1 := reg1Field_congr hhigh (by decide) (by decide)
    have himm4 := imm4Field_congr hlow (by decide)
    rw [decodeWords_of_imm4Field hop hteeny rfl, decodeWords_of_imm4Field (hop' ▸ hop) (hteeny' ▸ hteeny) rfl, himm4,
      hr1, if_neg, if_neg]
    all_goals
      rw [← himm4, ← reservedBit_eq_imm4Field, hbit3]
      exact Bool.false_ne_true
  case twoWords =>
    have hteeny' := teenyBit_congr h (by decide) (by decide)
    refine decodeWords_congr_of_fields hrow hjmp (opcodeField_congr h (by decide) (by decide))
      (reg1Field_congr h (by decide) (by decide)) (reg2Field_congr h (by decide) (by decide))
      (formatOf_congr hteeny') ?_
    rw [immedOf_of_not_teenyBit hteeny, immedOf_of_not_teenyBit (hteeny' ▸ hteeny)]

/-- Settles O5, on fixed words. -/
theorem decodeOfWordsWrittenOut : Obligations.DecodeOfWordsWrittenOut := by
  unfold Obligations.DecodeOfWordsWrittenOut
  decide

end Sys2Proof
end

section
/-! PROOFS. What each instruction does, said once in terms of the shared operations (R88, last line). -/

namespace Sys2Proof.Machine

theorem exec_lod (r1 r2 : Reg) (imm : Immed) (s : State) : exec (.lod r1 r2 imm) s =
    .next ((s.memRead (s.operand r2 imm)).2.setReg r1 (s.memRead (s.operand r2 imm)).1) := rfl

theorem exec_psh (r2 : Reg) (imm : Immed) (s : State) :
    exec (.psh r2 imm) s = outcomeOf (s.push (s.operand r2 imm) (s.beforeFetch (Immed.format imm))) := rfl

theorem exec_pop (r1 : Reg) (fmt : Format) (s : State) :
    exec (.pop r1 fmt) s = outcomeOf (s.popInto r1 (s.beforeFetch fmt)) := rfl

theorem exec_ret (s : State) : exec .ret s = exec (.pop .pc .w1) s := rfl

theorem exec_bts (r1 r2 : Reg) (imm : Immed) (s : State) :
    exec (.bts r1 r2 imm) s = bitOp (fun v bit => v ||| bit) r1 r2 imm s := rfl

theorem exec_btc (r1 r2 : Reg) (imm : Immed) (s : State) :
    exec (.btc r1 r2 imm) s = bitOp (fun v bit => v &&& ~~~bit) r1 r2 imm s := rfl

theorem exec_btf (r1 r2 : Reg) (imm : Immed) (s : State) :
    exec (.btf r1 r2 imm) s = bitOp (fun v bit => v ^^^ bit) r1 r2 imm s := rfl

theorem exec_cal_of_push_ok {s t : State} {r2 : Reg} {imm : Immed}
    (h : s.push s.pc (s.beforeFetch (Immed.format imm)) = .ok t) :
    exec (.cal r2 imm) s = .next (t.setReg .pc (t.operand r2 imm)) := by
  rw [exec, execCal, h]

theorem exec_cal_of_push_error {s : State} {r2 : Reg} {imm : Immed} {f : Fault}
    (h : s.push s.pc (s.beforeFetch (Immed.format imm)) = .error f) : exec (.cal r2 imm) s = .fault f := by
  rw [exec, execCal, h]

theorem exec_add (r1 r2 : Reg) (imm : Immed) (s : State) :
    exec (.add r1 r2 imm) s = aluOp (fun a b => a + b) r1 r2 imm s := rfl

theorem exec_sub (r1 r2 : Reg) (imm : Immed) (s : State) :
    exec (.sub r1 r2 imm) s = aluOp (fun a b => a - b) r1 r2 imm s := rfl

theorem exec_mpy (r1 r2 : Reg) (imm : Immed) (s : State) :
    exec (.mpy r1 r2 imm) s = aluOp (fun a b => a * b) r1 r2 imm s := rfl

theorem exec_div (r1 r2 : Reg) (imm : Immed) (s : State) :
    exec (.div r1 r2 imm) s = divOp (quotient s.config.divRule) r1 r2 imm s := rfl

theorem exec_mod (r1 r2 : Reg) (imm : Immed) (s : State) :
    exec (.mod r1 r2 imm) s = divOp (remainder s.config.divRule) r1 r2 imm s := rfl

theorem exec_and (r1 r2 : Reg) (imm : Immed) (s : State) :
    exec (.and r1 r2 imm) s = aluOp (fun a b => a &&& b) r1 r2 imm s := rfl

theorem exec_or (r1 r2 : Reg) (imm : Immed) (s : State) :
    exec (.or r1 r2 imm) s = aluOp (fun a b => a ||| b) r1 r2 imm s := rfl

theorem exec_xor (r1 r2 : Reg) (imm : Immed) (s : State) :
    exec (.xor r1 r2 imm) s = aluOp (fun a b => a ^^^ b) r1 r2 imm s := rfl

theorem exec_shf (r1 r2 : Reg) (imm : Immed) (s : State) : exec (.shf r1 r2 imm) s = execShf r1 r2 imm s := rfl

theorem exec_rot (r1 r2 : Reg) (imm : Immed) (s : State) : exec (.rot r1 r2 imm) s = execRot r1 r2 imm s := rfl

theorem exec_neg (r1 : Reg) (fmt : Format) (s : State) :
    exec (.neg r1 fmt) s = s.unlessRefused r1 fmt (.next (s.writeResult r1 (0 - s.reg r1))) := rfl

theorem exec_cmp (r1 r2 : Reg) (imm : Immed) (s : State) : exec (.cmp r1 r2 imm) s =
    .next (s.setFlags (Flags.ofCompare s.config.cmpRule s.config.aluFlagRule (s.reg r1) (s.operand r2 imm))) := rfl

theorem exec_jmp (r1 : Reg) (mask : Mask) (imm16 : Word) (s : State) :
    exec (.jmp r1 mask imm16) s = .next (s.jumpOn mask r1 imm16) := rfl

theorem exec_dly (r2 : Reg) (imm : Immed) (s : State) : exec (.dly r2 imm) s = .next s := rfl

theorem exec_lup_of_zero {s : State} {r1 : Reg} (h : (s.countDown r1).reg r1 = 0) (r2 : Reg) (imm : Immed) :
    exec (.lup r1 r2 imm) s = .next (s.countDown r1) := if_pos h

theorem exec_lup_of_ne_zero {s : State} {r1 : Reg} (h : (s.countDown r1).reg r1 ≠ 0) (r2 : Reg) (imm : Immed) :
    exec (.lup r1 r2 imm) s = .next ((s.countDown r1).setReg .pc ((s.countDown r1).operand r2 imm)) := if_neg h

/-! ### Reserved encodings (R91 to R93) -/

/-- A jump whose bit 3 is clear or ignored (R92). -/
theorem reservedJump_of_ignored {w1 : Word} {s : State} (h : reservedBit w1 = false ∨ s.config.jmpBit3 = .ignore)
    (fmt : Format) (immed : Word) :
    reservedJump w1 fmt immed s = .next (s.jumpOn (maskField w1) (reg1Field w1) immed) := by
  refine if_neg fun hc => ?_
  obtain ⟨hbit3, hrefuse⟩ := hc
  rcases h with h | h
  · exact Bool.false_ne_true (h.symm.trans hbit3)
  · exact absurd (h.symm.trans hrefuse) (by decide)

theorem reservedJump_cases (w1 : Word) (fmt : Format) (immed : Word) (s : State) :
    reservedJump w1 fmt immed s = .fault (.reservedEncoding (s.instrAddress fmt) w1 (s.beforeFetch fmt)) ∨
      reservedJump w1 fmt immed s = .next (s.jumpOn (maskField w1) (reg1Field w1) immed) := by
  unfold reservedJump
  split
  · exact .inl rfl
  · exact .inr rfl

theorem exec_reservedJmpOneWord_refuse {s : State} (h : s.config.jmpTeeny = .refuse) (w1 : Word) :
    exec (.reservedJmpOneWord w1) s = .fault (.reservedEncoding (s.instrAddress .w1) w1 (s.beforeFetch .w1)) := by
  rw [exec, execReservedJmpOneWord, h]

theorem exec_reservedJmpOneWord_immed0 {s : State} (h : s.config.jmpTeeny = .immed0) (w1 : Word) :
    exec (.reservedJmpOneWord w1) s = reservedJump w1 .w1 0 s := by
  rw [exec, execReservedJmpOneWord, h]

theorem exec_reservedJmpOneWord_immed4 {s : State} (h : s.config.jmpTeeny = .immed4) (w1 : Word) :
    exec (.reservedJmpOneWord w1) s = reservedJump w1 .w1 (s.immed (.teeny (imm4Field w1))) s := by
  rw [exec, execReservedJmpOneWord, h]

theorem exec_reservedJmpBit3_refuse {s : State} (h : s.config.jmpBit3 = .refuse) (w1 w2 : Word) :
    exec (.reservedJmpBit3 w1 w2) s = .fault (.reservedEncoding (s.instrAddress .w2) w1 (s.beforeFetch .w2)) := by
  rw [exec, execReservedJmpBit3, h]

theorem exec_reservedJmpBit3_ignore {s : State} (h : s.config.jmpBit3 = .ignore) (w1 w2 : Word) :
    exec (.reservedJmpBit3 w1 w2) s = .next (s.jumpOn (maskField w1) (reg1Field w1) w2) := by
  rw [exec, execReservedJmpBit3, h]

theorem exec_undefinedOpcode_refuse {s : State} (h : s.config.illegalOpcode = .refuse) (w1 : Word) :
    exec (.undefinedOpcode w1) s =
      .fault (.illegalOpcode (s.instrAddress (formatOf w1)) w1 (s.beforeFetch (formatOf w1))) := by
  rw [exec, execUndefinedOpcode, h]

theorem exec_undefinedOpcode_nop {s : State} (h : s.config.illegalOpcode = .nop) (w1 : Word) :
    exec (.undefinedOpcode w1) s = .next s := by
  rw [exec, execUndefinedOpcode, h]

/-! ### The pseudo-instructions (R200 to R208) -/

/-- Settles O47: each pseudo-instruction's meaning is written as the real one's. -/
theorem pseudoInstructionsAreTheRealOnes : Obligations.PseudoInstructionsAreTheRealOnes := by
  intro r1 imm16 s
  exact ⟨rfl, rfl, rfl, rfl, rfl, rfl, rfl, rfl, rfl⟩

/-- Settles O48: `respell` acts on four mnemonics, and what it answers is the pseudo-instruction that O47 equates. -/
theorem spellingKeepsTheMeaning : Obligations.SpellingKeepsTheMeaning := by
  intro i s
  cases i with
  | add r1 r2 imm =>
    rw [respell]
    split
    case isTrue hname =>
      obtain ⟨rfl, rfl⟩ := hname
      exact (pseudoInstructionsAreTheRealOnes r1 0 s).1
    case isFalse => rfl
  | sub r1 r2 imm =>
    rw [respell]
    split
    case isTrue hname =>
      obtain ⟨rfl, rfl⟩ := hname
      exact (pseudoInstructionsAreTheRealOnes r1 0 s).2.1
    case isFalse => rfl
  | pop r1 fmt =>
    rw [respell]
    split
    case isTrue hname =>
      obtain ⟨rfl, rfl⟩ := hname
      exact exec_ret s
    case isFalse => rfl
  | jmp r1 mask imm16 => obtain ⟨_ | _, _ | _, _ | _⟩ := mask <;> rfl
  | _ => rfl

/-- Settles O44: time is not part of the state (R188). -/
theorem dlyChangesNothing : Obligations.DlyChangesNothing := exec_dly

/-- Settles O16: rZ has no storage (R22). -/
theorem zeroRegisterReadsZeroAndIgnoresWrites : Obligations.ZeroRegisterReadsZeroAndIgnoresWrites :=
  fun s v => ⟨reg_rZ s, setReg_rZ s v⟩

end Sys2Proof.Machine
end

section
/-! PROOFS. What an instruction that completes can have done, said once; every fact about completed instructions and
steps (invariants, frames) is read off it. -/

namespace Sys2Proof.Machine

/-! ### The shared operations, when they complete -/

theorem outcomeOf_eq_next_iff {e : Except Fault State} {t : State} : outcomeOf e = .next t ↔ e = .ok t := by
  cases e <;> simp [outcomeOf]

theorem aluOp_next {f : Word → Word → Word} {r1 r2 : Reg} {imm : Immed} {s t : State}
    (h : aluOp f r1 r2 imm s = .next t) : t = s.writeResult r1 (f (s.reg r1) (s.operand r2 imm)) := by
  obtain ⟨-, h⟩ := unlessRefused_next h
  cases h
  rfl

theorem bitOp_next {f : Word → Word → Word} {r1 r2 : Reg} {imm : Immed} {s t : State}
    (h : bitOp f r1 r2 imm s = .next t) :
    ((s.operand r2 imm).toNat ≤ 15 ∧ t = s.writeResult r1 (f (s.reg r1) (1#16 <<< (s.operand r2 imm).toNat))) ∨
      (15 < (s.operand r2 imm).toNat ∧ t = s) := by
  obtain ⟨haccepts, -⟩ := unlessRefused_next h
  rcases bitOp_cases haccepts f r2 imm with ⟨hb, heq⟩ | ⟨hb, heq⟩
  · rw [heq] at h
    cases h
    exact .inl ⟨hb, rfl⟩
  · rw [heq] at h
    cases h
    exact .inr ⟨hb, rfl⟩

theorem divOp_accepts {f : Word → Word → Word} {r1 r2 : Reg} {imm : Immed} {s t : State}
    (h : divOp f r1 r2 imm s = .next t) : s.accepts r1 := by
  unfold divOp at h
  split at h
  · exact (unlessRefused_next h).1
  · exact (unlessRefused_next h).1

theorem divOp_next {f : Word → Word → Word} {r1 r2 : Reg} {imm : Immed} {s t : State}
    (h : divOp f r1 r2 imm s = .next t) :
    t = s.writeResult r1 (f (s.reg r1) (s.operand r2 imm)) ∨ (s.config.divZero = .nop ∧ t = s) := by
  rcases divOp_cases (divOp_accepts h) f r2 imm with ⟨-, heq⟩ | ⟨-, -, heq⟩ | ⟨-, hnop, heq⟩
  · rw [heq] at h
    cases h
    exact .inl rfl
  · rw [heq] at h
    cases h
  · rw [heq] at h
    cases h
    exact .inr ⟨hnop, rfl⟩

/-! ### The effect of a completed instruction -/

/-- What the instruction `i` can have done to `s` when it completes. A flag writer writes a result or a comparison, or
nothing (BTS, BTC, BTF out of range, R130; DIV, MOD by 0 where that is no fault, R149). Any other makes at most one
access of RAM or the bus, by its class, and writes registers. -/
inductive Effect (i : Instr) (s : State) : State → Prop where
  | unchanged (h : Instr.writesFlags i = true → Instr.isBitOp i = true ∨ s.config.divZero = .nop) : Effect i s s
  | result (h : Instr.writesFlags i = true) (r1 : Reg) (v : Word) : Effect i s (s.writeResult r1 v)
  | compare (h : Instr.writesFlags i = true) (a b : Word) :
    Effect i s (s.setFlags (Flags.ofCompare s.config.cmpRule s.config.aluFlagRule a b))
  | ramWrite (h : Instr.writesFlags i = false) (hi : Instr.writesRam i = true) {a : Word} (ha : InRam a) (v : Word) :
    Effect i s (s.setRamWord a v)
  | busRead (h : Instr.writesFlags i = false) (hi : Instr.reachesBus i = true ∨ s.config.stackOutsideRam = .bus)
    {a : Word} (ha : ¬InRam a) : Effect i s (s.afterBusRead a)
  | busWrite (h : Instr.writesFlags i = false) (hi : Instr.reachesBus i = true ∨ s.config.stackOutsideRam = .bus)
    {a : Word} (ha : ¬InRam a) (v : Word) : Effect i s (s.busWrite a v)
  | register (h : Instr.writesFlags i = false) {t : State} (ht : Effect i s t) (r : Reg) (v : Word) :
    Effect i s (t.setReg r v)

section Operations

variable {i : Instr} {s t : State} (hi : Instr.writesFlags i = false)
include hi

theorem Effect.refl : Effect i s s := .unchanged fun h => absurd (hi.symm.trans h) Bool.false_ne_true

theorem effect_setReg (r : Reg) (v : Word) : Effect i s (s.setReg r v) := .register hi (.refl hi) r v

theorem effect_jumpOn (mask : Mask) (r1 : Reg) (immed : Word) : Effect i s (s.jumpOn mask r1 immed) := by
  rcases jumpOn_cases s mask r1 immed with ⟨-, h⟩ | ⟨-, h⟩
  · rw [h]
    exact effect_setReg hi _ _
  · rw [h]
    exact .refl hi

theorem effect_memRead (hbus : Instr.reachesBus i = true) (a : Word) : Effect i s (s.memRead a).2 := by
  by_cases ha : InRam a
  · rw [memRead_ram s a ha]
    exact .refl hi
  · rw [memRead_bus s a ha]
    exact .busRead hi (.inl hbus) ha

theorem effect_memWrite (hbus : Instr.reachesBus i = true) (hram : Instr.writesRam i = true) (a v : Word) :
    Effect i s (s.memWrite a v) := by
  by_cases ha : InRam a
  · rw [memWrite_ram s a v ha]
    exact .ramWrite hi hram ha v
  · rw [memWrite_bus s a v ha]
    exact .busWrite hi (.inl hbus) ha v

theorem effect_push (hram : Instr.writesRam i = true) {v : Word} {b : State} (h : s.push v b = .ok t) :
    Effect i s t := by
  rcases push_cases s v b with ⟨ha, heq⟩ | ⟨-, -, heq⟩ | ⟨ha, hbus, heq⟩
  · rw [heq] at h
    cases h
    exact .register hi (.ramWrite hi hram ha v) _ _
  · rw [heq] at h
    cases h
  · rw [heq] at h
    cases h
    exact .register hi (.busWrite hi (.inr hbus) ha v) _ _

theorem effect_popInto {r1 : Reg} {b : State} (h : s.popInto r1 b = .ok t) : Effect i s t := by
  rcases popInto_cases s r1 b with ⟨-, heq⟩ | ⟨-, -, heq⟩ | ⟨ha, hbus, heq⟩
  · rw [heq] at h
    cases h
    exact .register hi (effect_setReg hi _ _) _ _
  · rw [heq] at h
    cases h
  · rw [heq] at h
    cases h
    have hread : Effect i s (s.afterBusRead (s.sp + 1)) := .busRead hi (.inr hbus) ha
    exact .register hi (.register hi hread .sp (s.sp + 1)) _ _

end Operations

section FlagWriters

variable {i : Instr} {s t : State} (hi : Instr.writesFlags i = true)
include hi

theorem effect_aluOp {f : Word → Word → Word} {r1 r2 : Reg} {imm : Immed} (h : aluOp f r1 r2 imm s = .next t) :
    Effect i s t := by
  rw [aluOp_next h]
  exact .result hi _ _

theorem effect_bitOp (hbit : Instr.isBitOp i = true) {f : Word → Word → Word} {r1 r2 : Reg} {imm : Immed}
    (h : bitOp f r1 r2 imm s = .next t) : Effect i s t := by
  rcases bitOp_next h with ⟨-, rfl⟩ | ⟨-, rfl⟩
  · exact .result hi _ _
  · exact .unchanged fun _ => .inl hbit

theorem effect_divOp {f : Word → Word → Word} {r1 r2 : Reg} {imm : Immed} (h : divOp f r1 r2 imm s = .next t) :
    Effect i s t := by
  rcases divOp_next h with rfl | ⟨hnop, rfl⟩
  · exact .result hi _ _
  · exact .unchanged fun _ => .inr hnop

end FlagWriters

theorem effect_cal {r2 : Reg} {imm : Immed} {s t : State} (h : exec (.cal r2 imm) s = .next t) :
    Effect (.cal r2 imm) s t := by
  cases hpush : s.push s.pc (s.beforeFetch (Immed.format imm)) with
  | error f =>
    rw [exec_cal_of_push_error hpush] at h
    cases h
  | ok u =>
    rw [exec_cal_of_push_ok hpush] at h
    cases h
    exact .register rfl (effect_push rfl rfl hpush) _ _

theorem effect_lup {r1 r2 : Reg} {imm : Immed} {s t : State} (h : exec (.lup r1 r2 imm) s = .next t) :
    Effect (.lup r1 r2 imm) s t := by
  have hdown : Effect (.lup r1 r2 imm) s (s.countDown r1) := effect_setReg rfl _ _
  by_cases hzero : (s.countDown r1).reg r1 = 0
  · rw [exec_lup_of_zero hzero] at h
    cases h
    exact hdown
  · rw [exec_lup_of_ne_zero hzero] at h
    cases h
    exact .register rfl hdown _ _

theorem effect_reservedJump {i : Instr} (hi : Instr.writesFlags i = false) {w1 : Word} {fmt : Format} {immed : Word}
    {s t : State} (h : reservedJump w1 fmt immed s = .next t) : Effect i s t := by
  rcases reservedJump_cases w1 fmt immed s with heq | heq
  · rw [heq] at h
    cases h
  · rw [heq] at h
    cases h
    exact effect_jumpOn hi _ _ _

theorem effect_reservedJmpOneWord {w1 : Word} {s t : State} (h : exec (.reservedJmpOneWord w1) s = .next t) :
    Effect (.reservedJmpOneWord w1) s t := by
  cases hc : s.config.jmpTeeny with
  | refuse =>
    rw [exec_reservedJmpOneWord_refuse hc] at h
    cases h
  | immed0 =>
    rw [exec_reservedJmpOneWord_immed0 hc] at h
    exact effect_reservedJump rfl h
  | immed4 =>
    rw [exec_reservedJmpOneWord_immed4 hc] at h
    exact effect_reservedJump rfl h

theorem effect_reservedJmpBit3 {w1 w2 : Word} {s t : State} (h : exec (.reservedJmpBit3 w1 w2) s = .next t) :
    Effect (.reservedJmpBit3 w1 w2) s t := by
  cases hc : s.config.jmpBit3 with
  | refuse =>
    rw [exec_reservedJmpBit3_refuse hc] at h
    cases h
  | ignore =>
    rw [exec_reservedJmpBit3_ignore hc] at h
    cases h
    exact effect_jumpOn rfl _ _ _

theorem effect_undefinedOpcode {w1 : Word} {s t : State} (h : exec (.undefinedOpcode w1) s = .next t) :
    Effect (.undefinedOpcode w1) s t := by
  cases hc : s.config.illegalOpcode with
  | refuse =>
    rw [exec_undefinedOpcode_refuse hc] at h
    cases h
  | nop =>
    rw [exec_undefinedOpcode_nop hc] at h
    cases h
    exact .refl rfl

theorem effect_shf {r1 r2 : Reg} {imm : Immed} {s t : State} (h : exec (.shf r1 r2 imm) s = .next t) :
    Effect (.shf r1 r2 imm) s t := by
  rw [exec_shf] at h
  rcases shf_cases r1 r2 imm s with ⟨-, -, heq⟩ | ⟨-, heq⟩
  · rw [heq] at h
    cases h
  · exact effect_aluOp rfl (heq ▸ h)

theorem effect_rot {r1 r2 : Reg} {imm : Immed} {s t : State} (h : exec (.rot r1 r2 imm) s = .next t) :
    Effect (.rot r1 r2 imm) s t := by
  rw [exec_rot] at h
  rcases rot_cases r1 r2 imm s with ⟨-, -, heq⟩ | ⟨-, heq⟩
  · rw [heq] at h
    cases h
  · exact effect_aluOp rfl (heq ▸ h)

/-- The one walk over the instructions that complete. -/
theorem effect_of_exec_next {i : Instr} {s t : State} (h : exec i s = .next t) : Effect i s t := by
  cases i with
  | set => cases h; exact effect_setReg rfl _ _
  | lod => cases h; exact .register rfl (effect_memRead rfl rfl _) _ _
  | str => cases h; exact effect_memWrite rfl rfl rfl _ _
  | psh => exact effect_push rfl rfl (outcomeOf_eq_next_iff.mp h)
  | pop => exact effect_popInto rfl (outcomeOf_eq_next_iff.mp h)
  | ret => exact effect_popInto rfl (outcomeOf_eq_next_iff.mp h)
  | bts => exact effect_bitOp rfl rfl (exec_bts .. ▸ h)
  | btc => exact effect_bitOp rfl rfl (exec_btc .. ▸ h)
  | btf => exact effect_bitOp rfl rfl (exec_btf .. ▸ h)
  | add => exact effect_aluOp rfl h
  | sub => exact effect_aluOp rfl h
  | mpy => exact effect_aluOp rfl h
  | and => exact effect_aluOp rfl h
  | or => exact effect_aluOp rfl h
  | xor => exact effect_aluOp rfl h
  | inc => exact effect_aluOp rfl h
  | dec => exact effect_aluOp rfl h
  | div => exact effect_divOp rfl h
  | mod => exact effect_divOp rfl h
  | shf => exact effect_shf h
  | rot => exact effect_rot h
  | neg =>
    cases (unlessRefused_next h).2
    exact .result rfl _ _
  | cmp => cases h; exact .compare rfl _ _
  | cal => exact effect_cal h
  | lup => exact effect_lup h
  | dly => cases h; exact .refl rfl
  | jmp => cases h; exact effect_jumpOn rfl _ _ _
  | je => cases h; exact effect_jumpOn rfl _ _ _
  | jne => cases h; exact effect_jumpOn rfl _ _ _
  | jl => cases h; exact effect_jumpOn rfl _ _ _
  | jle => cases h; exact effect_jumpOn rfl _ _ _
  | jg => cases h; exact effect_jumpOn rfl _ _ _
  | jge => cases h; exact effect_jumpOn rfl _ _ _
  | reservedJmpOneWord => exact effect_reservedJmpOneWord h
  | reservedJmpBit3 => exact effect_reservedJmpBit3 h
  | undefinedOpcode => exact effect_undefinedOpcode h

end Sys2Proof.Machine
end

section
/-! PROOFS. What every completed instruction and every step keep, by induction on the effect. -/

namespace Sys2Proof.Machine

/-! ### Flags -/

/-- A comparison of two integers sets exactly one flag: the order is total. -/
theorem exactlyOne_of_flagsCompare {a b : Int} {f : Flags} (h : FlagsCompare a b f) : f.exactlyOne = true := by
  obtain ⟨hequal, hless, hgreater⟩ := h
  have he : f.e = decide (a = b) := Bool.eq_iff_iff.mpr (hequal.trans decide_eq_true_iff.symm)
  have hl : f.l = decide (a < b) := Bool.eq_iff_iff.mpr (hless.trans decide_eq_true_iff.symm)
  have hg : f.g = decide (b < a) := Bool.eq_iff_iff.mpr (hgreater.trans decide_eq_true_iff.symm)
  rcases lt_trichotomy a b with hlt | rfl | hgt
  · simp [Flags.exactlyOne, Flags.atMostOne, he, hl, hg, hlt, hlt.ne, hlt.not_gt]
  · simp [Flags.exactlyOne, Flags.atMostOne, he, hl, hg]
  · simp [Flags.exactlyOne, Flags.atMostOne, he, hl, hg, hgt, hgt.ne', hgt.not_gt]

theorem atMostOne_of_exactlyOne {f : Flags} (h : f.exactlyOne = true) : f.atMostOne = true :=
  (Bool.and_eq_true_iff.mp h).1

/-- CMP_RULE = signed_exact: the exact signed comparison (R147). -/
theorem ofCompare_signedExact (rule : AluFlagRule) (a b : Word) :
    FlagsCompare a.toInt b.toInt (Flags.ofCompare .signedExact rule a b) := by
  simp [FlagsCompare, Flags.ofCompare, BitVec.toInt_inj]

/-- CMP_RULE = unsigned. -/
theorem ofCompare_unsigned (rule : AluFlagRule) (a b : Word) :
    FlagsCompare a.toNat b.toNat (Flags.ofCompare .unsigned rule a b) := by
  simp [FlagsCompare, Flags.ofCompare, BitVec.toNat_inj]

/-- CMP_RULE = signed_wrapped_diff: SetFlags of the difference narrowed to 16 bits. -/
theorem ofCompare_signedWrappedDiff (rule : AluFlagRule) (a b : Word) :
    FlagsCompare (a - b).toInt 0 (Flags.ofCompare .signedWrappedDiff rule a b) := ofResult_flagsCompare rule (a - b)

theorem ofCompare_exactlyOne (rule : CmpRule) (alu : AluFlagRule) (a b : Word) :
    (Flags.ofCompare rule alu a b).exactlyOne = true := by
  cases rule with
  | signedExact => exact exactlyOne_of_flagsCompare (ofCompare_signedExact alu a b)
  | signedWrappedDiff => exact exactlyOne_of_flagsCompare (ofCompare_signedWrappedDiff alu a b)
  | unsigned => exact exactlyOne_of_flagsCompare (ofCompare_unsigned alu a b)

theorem writeResult_exactlyOne (s : State) (r1 : Reg) (v : Word) : (s.writeResult r1 v).flags.exactlyOne = true := by
  obtain ⟨-, hflags, -, -⟩ := writeResult_effect s r1 v
  exact exactlyOne_of_flagsCompare hflags

theorem Effect.flags_of_not_writesFlags {i : Instr} {s t : State} (h : Effect i s t)
    (hi : Instr.writesFlags i = false) : t.flags = s.flags := by
  induction h with
  | result hw => exact absurd (hi.symm.trans hw) Bool.false_ne_true
  | compare hw => exact absurd (hi.symm.trans hw) Bool.false_ne_true
  | register _ _ r v ih => rw [setReg_flags, ih]
  | _ => rfl

theorem Effect.exactlyOne_of_writesFlags {i : Instr} {s t : State} (h : Effect i s t)
    (hzero : s.config.divZero = .refuse) (hi : Instr.writesFlags i = true) (hbit : Instr.isBitOp i = false) :
    t.flags.exactlyOne = true := by
  cases h with
  | unchanged hw =>
    rcases hw hi with hb | hnop
    · exact absurd (hbit.symm.trans hb) Bool.false_ne_true
    · exact absurd (hzero.symm.trans hnop) (by decide)
  | result => exact writeResult_exactlyOne _ _ _
  | compare => exact ofCompare_exactlyOne _ _ _ _
  | ramWrite hw => exact absurd (hw.symm.trans hi) Bool.false_ne_true
  | busRead hw => exact absurd (hw.symm.trans hi) Bool.false_ne_true
  | busWrite hw => exact absurd (hw.symm.trans hi) Bool.false_ne_true
  | register hw => exact absurd (hw.symm.trans hi) Bool.false_ne_true

/-- What BTS, BTC, BTF leave in the flags and, out of range, in the whole state (R130). -/
theorem bitOp_next_flags {f : Word → Word → Word} {r1 r2 : Reg} {imm : Immed} {s t : State}
    (h : bitOp f r1 r2 imm s = .next t) : ((s.reg r2 + s.immed imm).toNat ≤ 15 → t.flags.exactlyOne = true) ∧
      (15 < (s.reg r2 + s.immed imm).toNat → t = s) := by
  rw [← operand_eq]
  rcases bitOp_next h with ⟨hin, rfl⟩ | ⟨hout, rfl⟩
  · exact ⟨fun _ => writeResult_exactlyOne _ _ _, fun hout => absurd hin (Nat.not_le.mpr hout)⟩
  · exact ⟨fun hin => absurd hin (Nat.not_le.mpr hout), fun _ => rfl⟩

/-- Settles O49: the effect of a non-writer keeps the flags, that of a writer is a result or a comparison; the third
part is the common rule of BTS, BTC, BTF. -/
theorem onlyFlagWritersChangeTheFlags : Obligations.OnlyFlagWritersChangeTheFlags := by
  intro i s t hzero h
  have heffect := effect_of_exec_next h
  refine ⟨heffect.flags_of_not_writesFlags, heffect.exactlyOne_of_writesFlags hzero, fun r1 r2 imm hi => ?bits⟩
  case bits =>
    rcases hi with rfl | rfl | rfl
    · exact bitOp_next_flags (exec_bts .. ▸ h)
    · exact bitOp_next_flags (exec_btc .. ▸ h)
    · exact bitOp_next_flags (exec_btf .. ▸ h)

/-! ### The parameters -/

theorem Effect.config {i : Instr} {s t : State} (h : Effect i s t) : t.config = s.config := by
  induction h with
  | result => exact writeResult_config _ _ _
  | register _ _ r v ih => rw [setReg_config, ih]
  | _ => rfl

/-- Where a straddling fetch does not stop the step, it only resets PC (R90, FETCH_STRADDLE). -/
theorem straddleOutcome_next {s t : State} (h : s.straddleOutcome = .next t) : t = s.setReg .pc 0x0000 := by
  unfold State.straddleOutcome at h
  split at h
  · cases h
  · cases h
    rfl

/-- A step that completes resets PC after a straddling fetch, or has the effect of the instruction it fetched. -/
theorem effect_of_step_next {s t : State} (h : step s = .next t) :
    t = s.setReg .pc 0x0000 ∨ Effect s.fetched s.afterFetch t := by
  rcases step_next h with ⟨-, h⟩ | ⟨-, h⟩
  · exact .inl (straddleOutcome_next h)
  · exact .inr (effect_of_exec_next h)

/-- Settles O55: neither a PC reset nor an effect writes the parameters. -/
theorem stepKeepsTheParameters : Obligations.StepKeepsTheParameters := by
  intro s t h
  rcases effect_of_step_next h with rfl | heffect
  · exact setReg_config s _ _
  · rw [heffect.config, afterFetch_config]

/-! ### The invariant -/

theorem Inv.setReg {s : State} (h : s.Inv) (r : Reg) (v : Word) : (s.setReg r v).Inv := by
  simpa [State.Inv] using h

theorem Inv.setFlags {s : State} (h : s.Inv) {f : Flags} (hf : f.exactlyOne = true) : (s.setFlags f).Inv := by
  obtain ⟨hram, -, hlog⟩ := h
  exact ⟨hram, atMostOne_of_exactlyOne hf, hlog⟩

theorem Inv.writeResult {s : State} (h : s.Inv) (r1 : Reg) (v : Word) : (s.writeResult r1 v).Inv := by
  obtain ⟨hram, -, hlog⟩ := h
  refine ⟨?_, atMostOne_of_exactlyOne (writeResult_exactlyOne s r1 v), ?_⟩
  · rwa [writeResult_ram]
  · rwa [writeResult_busLog]

theorem Inv.setRamWord {s : State} (h : s.Inv) {a : Word} (ha : InRam a) (v : Word) : (s.setRamWord a v).Inv := by
  obtain ⟨hram, hflags, hlog⟩ := h
  exact ⟨Memory.write_wf _ v hram (Nat.lt_succ_of_le ha), hflags, hlog⟩

theorem Inv.afterBusRead {s : State} (h : s.Inv) {a : Word} (ha : ¬InRam a) : (s.afterBusRead a).Inv := by
  obtain ⟨hram, hflags, hlog⟩ := h
  exact ⟨hram, hflags, List.forall_mem_append.mpr ⟨hlog, List.forall_mem_singleton.mpr ha⟩⟩

theorem Inv.busWrite {s : State} (h : s.Inv) {a : Word} (ha : ¬InRam a) (v : Word) : (s.busWrite a v).Inv := by
  obtain ⟨hram, hflags, hlog⟩ := h
  exact ⟨hram, hflags, List.forall_mem_append.mpr ⟨hlog, List.forall_mem_singleton.mpr ha⟩⟩

theorem Effect.inv {i : Instr} {s t : State} (h : Effect i s t) (hs : s.Inv) : t.Inv := by
  induction h with
  | unchanged => exact hs
  | result _ r1 v => exact Inv.writeResult hs r1 v
  | compare _ a b => exact Inv.setFlags hs (ofCompare_exactlyOne _ _ a b)
  | ramWrite _ _ ha v => exact Inv.setRamWord hs ha v
  | busRead _ _ ha => exact Inv.afterBusRead hs ha
  | busWrite _ _ ha v => exact Inv.busWrite hs ha v
  | register _ _ r v ih => exact Inv.setReg ih r v

/-- Settles O11: the fetch moves PC only, and each operation that an instruction is made of keeps the invariant. -/
theorem stepKeepsTheInvariant : Obligations.StepKeepsTheInvariant := by
  intro s t hs h
  rcases effect_of_step_next h with rfl | heffect
  · exact Inv.setReg hs _ _
  · exact heffect.inv (Inv.setReg hs _ _)

/-! ### RAM and the bus -/

theorem Effect.sameRam {i : Instr} {s t : State} (h : Effect i s t) (hi : Instr.writesRam i = false) :
    SameRam s t := by
  intro a
  induction h with
  | result => obtain ⟨-, -, hram, -⟩ := writeResult_effect s _ _; exact hram a
  | ramWrite _ hw => exact absurd (hi.symm.trans hw) Bool.false_ne_true
  | register _ _ r v ih => rw [setReg_ramWord, ih]
  | _ => rfl

/-- Settles O52: the only effect that writes RAM belongs to STR, PSH and CAL. -/
theorem onlyStrPshCalWriteRam : Obligations.OnlyStrPshCalWriteRam :=
  fun _ _ _ h => (effect_of_exec_next h).sameRam

theorem Effect.busLog {i : Instr} {s t : State} (h : Effect i s t) :
    ∃ es : List BusEvent, es.length ≤ 1 ∧ t.busLog = s.busLog ++ es := by
  induction h with
  | result => exact ⟨[], Nat.zero_le 1, by simp⟩
  | busRead => exact ⟨[_], Nat.le_refl 1, rfl⟩
  | busWrite => exact ⟨[_], Nat.le_refl 1, rfl⟩
  | register _ _ r v ih => simpa using ih
  | _ => exact ⟨[], Nat.zero_le 1, (List.append_nil _).symm⟩

theorem Effect.sameBus {i : Instr} {s t : State} (h : Effect i s t) (hc : s.config.stackOutsideRam = .refuse)
    (hi : Instr.reachesBus i = false) : SameBus s t := by
  have hnone : ¬(Instr.reachesBus i = true ∨ s.config.stackOutsideRam = .bus) := by simp [hi, hc]
  induction h with
  | result => exact ⟨writeResult_busLog _ _ _, writeResult_hostAnswers _ _ _⟩
  | busRead _ hb => exact absurd hb hnone
  | busWrite _ hb => exact absurd hb hnone
  | register _ _ r v ih => simpa [SameBus] using ih
  | _ => exact ⟨rfl, rfl⟩

/-- Settles O51: an effect holds at most one access, and it is of the bus for LOD and STR only, by default. -/
theorem onlyLodAndStrReachTheBus : Obligations.OnlyLodAndStrReachTheBus :=
  fun _ _ _ h => ⟨(effect_of_exec_next h).busLog, (effect_of_exec_next h).sameBus⟩

/-! ### What nothing has written -/

/-- Every write the model makes takes what it writes off the record of unwritten registers. -/
theorem Effect.unwritten {i : Instr} {s t : State} (h : Effect i s t) {r : Reg} (hr : r ∈ t.unwritten) :
    r ∈ s.unwritten ∧ (r ≠ .pc → r ≠ .sp → t.reg r = s.reg r) := by
  induction h with
  | result _ r1 v => simpa [State.writeResult] using mem_setReg_unwritten (by simpa [State.writeResult] using hr)
  | ramWrite => exact ⟨hr, fun _ _ => setRamWord_reg ..⟩
  | busRead => exact ⟨hr, fun _ _ => afterBusRead_reg ..⟩
  | busWrite => exact ⟨hr, fun _ _ => busWrite_reg ..⟩
  | compare => exact ⟨hr, fun _ _ => setFlags_reg ..⟩
  | unchanged => exact ⟨hr, fun _ _ => rfl⟩
  | register _ _ q v ih =>
    obtain ⟨hmem, hreg⟩ := mem_setReg_unwritten hr
    obtain ⟨hmem', hreg'⟩ := ih hmem
    exact ⟨hmem', fun hp hs => (hreg hp hs).trans (hreg' hp hs)⟩

theorem Effect.flagsUnwritten {i : Instr} {s t : State} (h : Effect i s t) (ht : t.flagsUnwritten = true) :
    s.flagsUnwritten = true ∧ t.flags = s.flags := by
  induction h with
  | result => exact absurd ht Bool.false_ne_true
  | compare => exact absurd ht Bool.false_ne_true
  | register _ _ r v ih =>
    rw [setReg_flagsUnwritten] at ht
    rw [setReg_flags]
    exact ih ht
  | _ => exact ⟨ht, rfl⟩

/-- Settles O56: an effect takes what it writes off the record and leaves the rest as it was. -/
theorem unwrittenStateStaysAsItWas : Obligations.UnwrittenStateStaysAsItWas :=
  fun _ _ _ h => ⟨fun _ => (effect_of_exec_next h).unwritten, (effect_of_exec_next h).flagsUnwritten⟩

end Sys2Proof.Machine
end

section
/-! PROOFS. The flag writers: the words they compute, bit by bit and as integers, and their whole effect. -/

namespace Sys2Proof.Machine

/-! ### The shared operations, when the destination is accepted -/

/-- A flag writer that computes `v` completes with the whole effect of writing it (R30, R140). -/
theorem aluOp_effect {s : State} {r1 : Reg} (ha : s.accepts r1) {f : Word → Word → Word} {r2 : Reg} {imm : Immed}
    {v : Word} (hv : f (s.reg r1) (s.reg r2 + s.immed imm) = v) :
    ∃ t, aluOp f r1 r2 imm s = .next t ∧ AluEffect r1 v s t :=
  ⟨_, aluOp_accepts ha f r2 imm, hv ▸ writeResult_effect s r1 _⟩

theorem bitOp_inRange {s : State} {r1 : Reg} (ha : s.accepts r1) (f : Word → Word → Word) {r2 : Reg} {imm : Immed}
    (hb : (s.reg r2 + s.immed imm).toNat ≤ 15) : ∃ t, bitOp f r1 r2 imm s = .next t ∧
      AluEffect r1 (f (s.reg r1) (1#16 <<< (s.reg r2 + s.immed imm).toNat)) s t := by
  rcases bitOp_cases ha f r2 imm with ⟨-, heq⟩ | ⟨hout, -⟩
  · exact ⟨_, heq, writeResult_effect s r1 _⟩
  · exact absurd hb (Nat.not_le.mpr hout)

theorem bitOp_outOfRange {s : State} {r1 : Reg} (ha : s.accepts r1) (f : Word → Word → Word) {r2 : Reg} {imm : Immed}
    (hb : 15 < (s.reg r2 + s.immed imm).toNat) : bitOp f r1 r2 imm s = .next s := by
  rcases bitOp_cases ha f r2 imm with ⟨hin, -⟩ | ⟨-, heq⟩
  · exact absurd hin (Nat.not_le.mpr hb)
  · exact heq

theorem divOp_effect {s : State} {r1 : Reg} (ha : s.accepts r1) {f : Word → Word → Word} {r2 : Reg} {imm : Immed}
    (hne : s.reg r2 + s.immed imm ≠ 0) {v : Word} (hv : f (s.reg r1) (s.reg r2 + s.immed imm) = v) :
    ∃ t, divOp f r1 r2 imm s = .next t ∧ AluEffect r1 v s t := by
  rw [divOp, if_neg (operand_eq s r2 imm ▸ hne)]
  exact aluOp_effect ha hv

theorem divOp_zero {s : State} {r1 : Reg} (ha : s.accepts r1) (f : Word → Word → Word) {r2 : Reg} {imm : Immed}
    (hzero : s.reg r2 + s.immed imm = 0) : (s.config.divZero = .refuse → divOp f r1 r2 imm s =
        .fault (.divideByZero (s.instrAddress (Immed.format imm)) (s.beforeFetch (Immed.format imm)))) ∧
      (s.config.divZero = .nop → divOp f r1 r2 imm s = .next s) := by
  rcases divOp_cases ha f r2 imm with ⟨hne, -⟩ | ⟨-, hrefuse, heq⟩ | ⟨-, hnop, heq⟩
  · exact absurd hzero hne
  · exact ⟨fun _ => heq, fun hnop => absurd (hrefuse.symm.trans hnop) (by decide)⟩
  · exact ⟨fun hrefuse => absurd (hrefuse.symm.trans hnop) (by decide), fun _ => heq⟩

/-! ### BTS, BTC, BTF (R130 to R133) -/

/-- The word with one bit. -/
theorem getLsbD_one_shiftLeft {k : Nat} (b : Nat) (hk : k < 16) : (1#16 <<< b).getLsbD k = decide (k = b) := by
  rw [BitVec.getLsbD_shiftLeft, BitVec.getLsbD_one, Bool.eq_iff_iff]
  simp only [Bool.and_eq_true, Bool.not_eq_true', decide_eq_true_eq, decide_eq_false_iff_not]
  omega

theorem getLsbD_setBit (v : Word) (b : Nat) {k : Nat} (hk : k < 16) :
    (v ||| 1#16 <<< b).getLsbD k = if k = b then true else v.getLsbD k := by
  rw [BitVec.getLsbD_or, getLsbD_one_shiftLeft b hk]
  by_cases h : k = b <;> simp [h]

theorem getLsbD_clearBit (v : Word) (b : Nat) {k : Nat} (hk : k < 16) :
    (v &&& ~~~(1#16 <<< b)).getLsbD k = if k = b then false else v.getLsbD k := by
  rw [BitVec.getLsbD_and, BitVec.getLsbD_not, getLsbD_one_shiftLeft b hk, decide_eq_true hk]
  by_cases h : k = b <;> simp [h]

theorem getLsbD_flipBit (v : Word) (b : Nat) {k : Nat} (hk : k < 16) :
    (v ^^^ 1#16 <<< b).getLsbD k = if k = b then !v.getLsbD b else v.getLsbD k := by
  rw [BitVec.getLsbD_xor, getLsbD_one_shiftLeft b hk]
  by_cases h : k = b <;> simp [h]

/-- Settles O26: the mask 1 << b meets one bit, and `or` sets it. -/
theorem btsSetsOneBitInRange : Obligations.BtsSetsOneBitInRange := by
  rintro r1 r2 imm s b ha rfl
  refine ⟨fun hin => ?inRange, fun hout => (exec_bts ..).trans (bitOp_outOfRange ha _ hout)⟩
  case inRange =>
    obtain ⟨t, hnext, heffect⟩ := bitOp_inRange ha (fun v bit => v ||| bit) hin
    refine ⟨t, _, (exec_bts ..).trans hnext, heffect, fun k hk => getLsbD_setBit _ _ hk⟩

/-- Settles O27: the mask 1 << b meets one bit, and `and` with its complement clears it. -/
theorem btcClearsOneBitInRange : Obligations.BtcClearsOneBitInRange := by
  rintro r1 r2 imm s b ha rfl
  refine ⟨fun hin => ?inRange, fun hout => (exec_btc ..).trans (bitOp_outOfRange ha _ hout)⟩
  case inRange =>
    obtain ⟨t, hnext, heffect⟩ := bitOp_inRange ha (fun v bit => v &&& ~~~bit) hin
    refine ⟨t, _, (exec_btc ..).trans hnext, heffect, fun k hk => getLsbD_clearBit _ _ hk⟩

/-- Settles O28: the mask 1 << b meets one bit, and `xor` inverts it. -/
theorem btfFlipsOneBitInRange : Obligations.BtfFlipsOneBitInRange := by
  rintro r1 r2 imm s b ha rfl
  refine ⟨fun hin => ?inRange, fun hout => (exec_btf ..).trans (bitOp_outOfRange ha _ hout)⟩
  case inRange =>
    obtain ⟨t, hnext, heffect⟩ := bitOp_inRange ha (fun v bit => v ^^^ bit) hin
    refine ⟨t, _, (exec_btf ..).trans hnext, heffect, fun k hk => getLsbD_flipBit _ _ hk⟩

/-! ### ADD, SUB, MPY, NEG (R140 to R146): the exact integer, narrowed -/

theorem ofInt_toInt_add (a b : Word) : BitVec.ofInt 16 (a.toInt + b.toInt) = a + b := by
  rw [BitVec.ofInt_add, BitVec.ofInt_toInt, BitVec.ofInt_toInt]

theorem ofInt_toInt_sub (a b : Word) : BitVec.ofInt 16 (a.toInt - b.toInt) = a - b := by
  rw [Int.sub_eq_add_neg, BitVec.ofInt_add, BitVec.ofInt_neg, BitVec.ofInt_toInt, BitVec.ofInt_toInt,
    BitVec.sub_eq_add_neg]

theorem ofInt_toInt_mul (a b : Word) : BitVec.ofInt 16 (a.toInt * b.toInt) = a * b := by
  rw [BitVec.ofInt_mul, BitVec.ofInt_toInt, BitVec.ofInt_toInt]

/-- The 4-bit immediate 1 is 1 under either TEENY_IMM_EXT (R85). -/
@[simp] theorem immed_teeny_one (s : State) : s.immed (.teeny 1) = 1 := by
  cases h : s.config.teenyImmExt <;> simp only [State.immed, widenImm4, h] <;> rfl

/-- The operand of INC and DEC is 1 (R200, R201). -/
theorem rZ_add_teeny_one (s : State) : s.reg .rZ + s.immed (.teeny 1) = 1 := by
  rw [reg_rZ, immed_teeny_one]
  rfl

/-- Settles O29: narrowing to 16 bits commutes with the sum; INC has the operand rZ + 1, which is 1. -/
theorem addWrapsTheExactSum : Obligations.AddWrapsTheExactSum := by
  refine ⟨fun r1 r2 imm s ha => ?add, fun r1 s ha => ?inc⟩
  case add =>
    rw [exec_add]
    exact aluOp_effect ha (ofInt_toInt_add _ _).symm
  case inc =>
    refine aluOp_effect (r2 := .rZ) (imm := .teeny 1) ha ?_
    rw [rZ_add_teeny_one]
    exact (ofInt_toInt_add _ 1).symm

/-- Settles O30: narrowing to 16 bits commutes with the difference; DEC has the operand rZ + 1, which is 1. -/
theorem subWrapsTheExactDifference : Obligations.SubWrapsTheExactDifference := by
  refine ⟨fun r1 r2 imm s ha => ?sub, fun r1 s ha => ?dec⟩
  case sub =>
    rw [exec_sub]
    exact aluOp_effect ha (ofInt_toInt_sub _ _).symm
  case dec =>
    refine aluOp_effect (r2 := .rZ) (imm := .teeny 1) ha ?_
    rw [rZ_add_teeny_one]
    exact (ofInt_toInt_sub _ 1).symm

/-- Settles O31: narrowing to 16 bits commutes with the product, whichever way the operands are read. -/
theorem mpyKeepsTheLowSixteenBits : Obligations.MpyKeepsTheLowSixteenBits := by
  intro r1 r2 imm s ha
  obtain ⟨t, hnext, heffect⟩ := aluOp_effect ha (f := fun a b => a * b) (r2 := r2) (imm := imm) rfl
  refine ⟨t, _, (exec_mpy ..).trans hnext, heffect, ?unsigned, (ofInt_toInt_mul _ _).symm⟩
  case unsigned => rw [BitVec.ofNat_mul, BitVec.ofNat_toNat, BitVec.ofNat_toNat, BitVec.setWidth_eq, BitVec.setWidth_eq]

/-- Settles O32: narrowing to 16 bits commutes with the negation, and the format plays no part. -/
theorem negNegatesInBothFormats : Obligations.NegNegatesInBothFormats := by
  intro r1 fmt s ha
  have hneg : BitVec.ofInt 16 (-(s.reg r1).toInt) = 0 - s.reg r1 := by
    rw [BitVec.ofInt_neg, BitVec.ofInt_toInt]
    exact (BitVec.zero_sub _).symm
  refine ⟨_, (exec_neg r1 fmt s).trans (unlessRefused_accepts ha _ _), ?_⟩
  rw [hneg]
  exact writeResult_effect s r1 _

/-! ### DIV, MOD (R144, R145, R149) -/

/-- A remainder is smaller than the divisor. -/
theorem abs_tmod_lt (a : Int) {b : Int} (hb : b ≠ 0) : |a.tmod b| < |b| := by
  rw [Int.abs_eq_natAbs, Int.abs_eq_natAbs, Int.natAbs_tmod]
  exact_mod_cast Nat.mod_lt _ (Int.natAbs_pos.mpr hb)

/-- A remainder is 0 or has the sign of the dividend. -/
theorem tmod_mul_nonneg (a b : Int) : 0 ≤ a.tmod b * a := by
  rcases Int.le_total 0 a with ha | ha
  · exact Int.mul_nonneg (Int.tmod_nonneg b ha) ha
  · have hneg := Int.tmod_nonneg b (Int.neg_nonneg_of_nonpos ha)
    rw [Int.neg_tmod] at hneg
    exact Int.mul_nonneg_of_nonpos_of_nonpos (Int.neg_nonneg.mp hneg) ha

/-- Settles O33: the quotient is the integer one that truncates toward zero, the remainder what it leaves. -/
theorem divAndModTruncateTowardZero : Obligations.DivAndModTruncateTowardZero := by
  intro r1 r2 imm s ha hrule hne
  generalize ha' : (s.reg r1).toInt = a
  generalize hb' : (s.reg r2 + s.immed imm).toInt = b
  have hb0 : b ≠ 0 := fun h => hne (BitVec.eq_of_toInt_eq (by rw [hb', h]; rfl))
  have hquot : quotient s.config.divRule (s.reg r1) (s.reg r2 + s.immed imm) = BitVec.ofInt 16 (a.tdiv b) := by
    rw [hrule, quotient, ha', hb']
  have hrem : remainder s.config.divRule (s.reg r1) (s.reg r2 + s.immed imm) = BitVec.ofInt 16 (a.tmod b) := by
    rw [hrule, remainder, ha', hb', Int.mul_comm, ← Int.tmod_def]
  obtain ⟨t, hdiv, hdivEffect⟩ := divOp_effect ha hne hquot
  obtain ⟨u, hmod, hmodEffect⟩ := divOp_effect ha hne hrem
  refine ⟨a.tdiv b, a.tmod b, t, u, (Int.tdiv_mul_add_tmod a b).symm, ?smaller, ?sign, (exec_div ..).trans hdiv,
    hdivEffect, (exec_mod ..).trans hmod, hmodEffect⟩
  case smaller => exact abs_tmod_lt a hb0
  case sign => exact tmod_mul_nonneg a b

/-- Settles O34: the common rule of DIV and MOD with the divisor 0. -/
theorem divAndModByZeroFault : Obligations.DivAndModByZeroFault := by
  rintro r1 r2 imm s a ha hrefuse hzero rfl
  obtain ⟨hdiv, -⟩ := divOp_zero ha (quotient s.config.divRule) hzero
  obtain ⟨hmod, -⟩ := divOp_zero ha (remainder s.config.divRule) hzero
  exact ⟨(exec_div ..).trans (hdiv hrefuse), (exec_mod ..).trans (hmod hrefuse)⟩

/-! ### CMP (R147) -/

/-- CMP writes the flags and nothing else. -/
theorem cmp_frame (r1 r2 : Reg) (imm : Immed) (s : State) : ∃ t, exec (.cmp r1 r2 imm) s = .next t ∧
    t.flags = Flags.ofCompare s.config.cmpRule s.config.aluFlagRule (s.reg r1) (s.reg r2 + s.immed imm) ∧
    SameRegs s t ∧ SameRam s t ∧ SameBus s t :=
  ⟨_, exec_cmp r1 r2 imm s, rfl, setFlags_reg s _, setFlags_ramWord s _, rfl, rfl⟩

/-- Settles O35: CMP writes the flags of the comparison that CMP_RULE selects, and no register. -/
theorem cmpComparesSignedAndExact : Obligations.CmpComparesSignedAndExact := by
  intro r1 r2 imm s hrule
  obtain ⟨t, hnext, hflags, hframe⟩ := cmp_frame r1 r2 imm s
  refine ⟨t, hnext, ?_, hframe⟩
  rw [hflags, hrule]
  exact ofCompare_signedExact _ _ _

/-! ### AND, OR, XOR (R160 to R162) -/

/-- Settles O36: each of the three words is formed bit by bit. -/
theorem logicActsBitByBit : Obligations.LogicActsBitByBit := by
  intro r1 r2 imm s i f ha hi
  rcases hi with ⟨rfl, rfl⟩ | ⟨rfl, rfl⟩ | ⟨rfl, rfl⟩
  · obtain ⟨t, hnext, heffect⟩ := aluOp_effect ha (f := fun a b => a &&& b) (r2 := r2) (imm := imm) rfl
    exact ⟨t, _, (exec_and ..).trans hnext, heffect, fun k _ => BitVec.getLsbD_and⟩
  · obtain ⟨t, hnext, heffect⟩ := aluOp_effect ha (f := fun a b => a ||| b) (r2 := r2) (imm := imm) rfl
    exact ⟨t, _, (exec_or ..).trans hnext, heffect, fun k _ => BitVec.getLsbD_or⟩
  · obtain ⟨t, hnext, heffect⟩ := aluOp_effect ha (f := fun a b => a ^^^ b) (r2 := r2) (imm := imm) rfl
    exact ⟨t, _, (exec_xor ..).trans hnext, heffect, fun k _ => BitVec.getLsbD_xor⟩

/-! ### SHF, ROT (R166, R168) -/

theorem shf_effect {s : State} {r1 : Reg} (ha : s.accepts r1) {r2 : Reg} {imm : Immed}
    (hcount : ¬(s.config.shfBig = .refuse ∧ 16 ≤ magnitude (s.reg r2 + s.immed imm))) :
    ∃ t, exec (.shf r1 r2 imm) s = .next t ∧
      AluEffect r1 (shifted s.config.shfFill s.config.shfBig (s.reg r1) (s.reg r2 + s.immed imm)) s t := by
  rcases shf_cases r1 r2 imm s with ⟨hrefuse, hbig, -⟩ | ⟨-, heq⟩
  · exact absurd ⟨hrefuse, hbig⟩ hcount
  · rw [exec_shf, heq]
    exact aluOp_effect ha rfl

theorem rot_effect {s : State} {r1 : Reg} (ha : s.accepts r1) {r2 : Reg} {imm : Immed}
    (hcount : ¬(s.config.rotBig = .refuse ∧ 16 ≤ magnitude (s.reg r2 + s.immed imm))) :
    ∃ t, exec (.rot r1 r2 imm) s = .next t ∧
      AluEffect r1 (rotated s.config.rotBig (s.reg r1) (s.reg r2 + s.immed imm)) s t := by
  rcases rot_cases r1 r2 imm s with ⟨hrefuse, hbig, -⟩ | ⟨-, heq⟩
  · exact absurd ⟨hrefuse, hbig⟩ hcount
  · rw [exec_rot, heq]
    exact aluOp_effect ha rfl

/-- With the default SHF_FILL and SHF_BIG a shift moves every bit by the signed count, and zeros enter. -/
theorem shifted_default_getLsbD (v count : Word) {k : Nat} (hk : k < 16) :
    (shifted .logical .zero v count).getLsbD k =
      (decide (0 ≤ (k : Int) + count.toInt) && v.getLsbD ((k : Int) + count.toInt).toNat) := by
  rw [shifted_getLsbD _ _ _ _ hk]
  simp only [true_and, shiftDistance, magnitude, reduceCtorEq, decide_false, Bool.false_and]
  obtain ⟨c, hc⟩ : ∃ c, count.toInt = c := ⟨_, rfl⟩
  simp only [hc]
  by_cases hneg : c < 0
  · have hindex : ((k : Int) + c).toNat = k - c.natAbs := by omega
    have hin : (0 ≤ (k : Int) + c) ↔ c.natAbs ≤ k := by omega
    simp only [hneg, hindex, hin, if_true]
    split
    · rw [decide_eq_false (by omega), Bool.false_and]
    · rfl
  · have hindex : ((k : Int) + c).toNat = k + c.natAbs := by omega
    have hin : 0 ≤ (k : Int) + c := by omega
    rw [hindex, decide_eq_true hin, Bool.true_and, if_neg hneg]
    by_cases hsmall : k + c.natAbs < 16
    · rw [if_neg (by omega), if_pos hsmall]
    · rw [if_neg hsmall, ite_self, BitVec.getLsbD_of_ge _ _ (by omega)]

/-- A rotation moves every bit by the signed count modulo 16. -/
theorem rotated_getLsbD (v count : Word) {k : Nat} (hk : k < 16) :
    (rotated .mod16 v count).getLsbD k = v.getLsbD (((k : Int) + count.toInt) % 16).toNat := by
  obtain ⟨d, hd⟩ : ∃ d, d = (count.toInt % 16).toNat := ⟨_, rfl⟩
  have hindex : (((k : Int) + count.toInt) % 16).toNat = if k + d < 16 then k + d else k + d - 16 := by
    split <;> omega
  rw [rotated, rotateDistance, ← hd, BitVec.getLsbD_or, BitVec.getLsbD_ushiftRight, BitVec.getLsbD_shiftLeft, hindex]
  by_cases hwrap : k + d < 16
  · rw [if_pos hwrap, decide_eq_true (show k < 16 - d by omega), Nat.add_comm d k]
    simp
  · rw [if_neg hwrap, BitVec.getLsbD_of_ge v (d + k) (by omega), decide_eq_false (show ¬k < 16 - d by omega),
      decide_eq_true hk, show k - (16 - d) = k + d - 16 by omega]
    simp

/-- Settles O37: the common rule with `shifted`, whose bits are counted from the signed count. -/
theorem shfMovesBitsByTheSignedCount : Obligations.ShfMovesBitsByTheSignedCount := by
  intro r1 r2 imm s ha hfill hbig
  obtain ⟨t, hnext, heffect⟩ := shf_effect ha (r2 := r2) (imm := imm) (by simp [hbig])
  refine ⟨t, _, hnext, heffect, fun k hk => ?_⟩
  rw [hfill, hbig]
  exact shifted_default_getLsbD _ _ hk

/-- Settles O38: the common rule with `rotated`, whose bits are counted from the signed count modulo 16. -/
theorem rotTurnsBitsByTheSignedCount : Obligations.RotTurnsBitsByTheSignedCount := by
  intro r1 r2 imm s ha hbig
  obtain ⟨t, hnext, heffect⟩ := rot_effect ha (r2 := r2) (imm := imm) (by simp [hbig])
  refine ⟨t, _, hnext, heffect, fun k hk => ?_⟩
  rw [hbig]
  exact rotated_getLsbD _ _ hk

/-! ### The other readings of the parameters (O60) -/

theorem aluOp_refuses {s : State} (h : s.config.aluRzFlags = .refuse) (f : Word → Word → Word) (r2 : Reg)
    (imm : Immed) : aluOp f .rZ r2 imm s = .refused (.zeroDestination (s.beforeFetch (Immed.format imm))) :=
  unlessRefused_refuses h _ _

theorem bitOp_refuses {s : State} (h : s.config.aluRzFlags = .refuse) (f : Word → Word → Word) (r2 : Reg)
    (imm : Immed) : bitOp f .rZ r2 imm s = .refused (.zeroDestination (s.beforeFetch (Immed.format imm))) :=
  unlessRefused_refuses h _ _

/-- The refusal of rZ comes before DivideByZero. -/
theorem divOp_refuses {s : State} (h : s.config.aluRzFlags = .refuse) (f : Word → Word → Word) (r2 : Reg)
    (imm : Immed) : divOp f .rZ r2 imm s = .refused (.zeroDestination (s.beforeFetch (Immed.format imm))) := by
  unfold divOp
  split
  · exact unlessRefused_refuses h _ _
  · exact aluOp_refuses h f r2 imm

/-- The refusal of a count comes before that of rZ. -/
theorem shf_refuses {s : State} (h : s.config.aluRzFlags = .refuse) {r2 : Reg} {imm : Immed}
    (hcount : ¬(s.config.shfBig = .refuse ∧ 16 ≤ magnitude (s.reg r2 + s.immed imm))) :
    exec (.shf .rZ r2 imm) s = .refused (.zeroDestination (s.beforeFetch (Immed.format imm))) := by
  rcases shf_cases .rZ r2 imm s with ⟨hrefuse, hbig, -⟩ | ⟨-, heq⟩
  · exact absurd ⟨hrefuse, hbig⟩ hcount
  · rw [exec_shf, heq, aluOp_refuses h]

theorem rot_refuses {s : State} (h : s.config.aluRzFlags = .refuse) {r2 : Reg} {imm : Immed}
    (hcount : ¬(s.config.rotBig = .refuse ∧ 16 ≤ magnitude (s.reg r2 + s.immed imm))) :
    exec (.rot .rZ r2 imm) s = .refused (.zeroDestination (s.beforeFetch (Immed.format imm))) := by
  rcases rot_cases .rZ r2 imm s with ⟨hrefuse, hbig, -⟩ | ⟨-, heq⟩
  · exact absurd ⟨hrefuse, hbig⟩ hcount
  · rw [exec_rot, heq, aluOp_refuses h]

theorem shf_refuses_count {s : State} {r1 r2 : Reg} {imm : Immed} (hrefuse : s.config.shfBig = .refuse)
    (hbig : 16 ≤ magnitude (s.reg r2 + s.immed imm)) :
    exec (.shf r1 r2 imm) s = .refused (.shiftCount (s.beforeFetch (Immed.format imm))) := by
  rcases shf_cases r1 r2 imm s with ⟨-, -, heq⟩ | ⟨hcount, -⟩
  · exact heq
  · exact absurd ⟨hrefuse, hbig⟩ hcount

theorem rot_refuses_count {s : State} {r1 r2 : Reg} {imm : Immed} (hrefuse : s.config.rotBig = .refuse)
    (hbig : 16 ≤ magnitude (s.reg r2 + s.immed imm)) :
    exec (.rot r1 r2 imm) s = .refused (.rotateCount (s.beforeFetch (Immed.format imm))) := by
  rcases rot_cases r1 r2 imm s with ⟨-, -, heq⟩ | ⟨hcount, -⟩
  · exact heq
  · exact absurd ⟨hrefuse, hbig⟩ hcount

theorem shiftDistance_eq (big : ShfBig) (count : Word) :
    shiftDistance big count = if big = .mod16 then magnitude count % 16 else magnitude count := by
  cases big <;> rfl

/-- With ALU_RZ_FLAGS = stored, what is written back to rZ sets the flags from 0 (R32). -/
theorem writeResult_rZ_stored {s : State} (h : s.config.aluRzFlags = .stored) (v : Word) :
    FlagsCompare 0 0 (s.writeResult .rZ v).flags := by
  have hvalue : s.flagValue .rZ v = 0 := if_pos ⟨h, rfl⟩
  obtain ⟨-, hflags, -, -⟩ := writeResult_effect s .rZ v
  rwa [hvalue] at hflags

theorem aluOp_rZ_stored {s : State} (h : s.config.aluRzFlags = .stored) (f : Word → Word → Word) (r2 : Reg)
    (imm : Immed) : ∃ t, aluOp f .rZ r2 imm s = .next t ∧ FlagsCompare 0 0 t.flags :=
  ⟨_, aluOp_accepts (fun _ => by simp [h]) f r2 imm, writeResult_rZ_stored h _⟩

theorem neg_rZ_stored {s : State} (h : s.config.aluRzFlags = .stored) (fmt : Format) :
    ∃ t, exec (.neg .rZ fmt) s = .next t ∧ FlagsCompare 0 0 t.flags :=
  ⟨_, unlessRefused_accepts (fun _ => by simp [h]) _ _, writeResult_rZ_stored h _⟩

/-- Settles O60, a clause for each value: those of CMP and DIV choose another computation, those of SHF and ROT the
distance and the refusal of a count, those of ALU_RZ_FLAGS what a destination rZ does. -/
theorem valueParametersSelectTheirReadings : Obligations.ValueParametersSelectTheirReadings := by
  rintro r1 r2 imm s a b pre n d rfl rfl rfl rfl rfl
  obtain ⟨t, hcmp, hflags, -⟩ := cmp_frame r1 r2 imm s
  refine ⟨fun hrule => ⟨t, hcmp, ?unsigned⟩, fun hrule => ⟨t, hcmp, ?wrapped⟩, ?divUnsigned, ?shift, shf_refuses_count,
    rot_refuses_count, ?stored, fun h => ⟨?refused, shf_refuses h, rot_refuses h,
      fun fmt => unlessRefused_refuses h _ _, aluOp_refuses h _ _ _, aluOp_refuses h _ _ _⟩⟩
  case unsigned =>
    rw [hflags, hrule]
    exact ofCompare_unsigned _ _ _
  case wrapped =>
    rw [hflags, hrule]
    exact ofCompare_signedWrappedDiff _ _ _
  case divUnsigned =>
    intro hrule ha hne
    obtain ⟨t, hdiv, hdivEffect⟩ := divOp_effect ha (f := quotient s.config.divRule) hne (by rw [hrule, quotient])
    obtain ⟨u, hmod, hmodEffect⟩ := divOp_effect ha (f := remainder s.config.divRule) hne (by rw [hrule, remainder])
    exact ⟨t, u, hdiv, hdivEffect, hmod, hmodEffect⟩
  case shift =>
    intro hcount ha
    obtain ⟨t, hnext, heffect⟩ := shf_effect ha hcount
    refine ⟨t, _, hnext, heffect, fun k hk => ?_⟩
    rw [shifted_getLsbD _ _ _ _ hk, shiftDistance_eq]
    rfl
  case stored =>
    intro h fmt
    simp only [List.forall_mem_cons, List.not_mem_nil, false_imp_iff, implies_true, and_true]
    exact ⟨aluOp_rZ_stored h _ _ _, aluOp_rZ_stored h _ _ _, aluOp_rZ_stored h _ _ _, aluOp_rZ_stored h _ _ _,
      aluOp_rZ_stored h _ _ _, aluOp_rZ_stored h _ _ _, neg_rZ_stored h fmt, aluOp_rZ_stored h _ _ _,
      aluOp_rZ_stored h _ _ _⟩
  case refused =>
    simp only [List.forall_mem_cons, List.not_mem_nil, false_imp_iff, implies_true, and_true]
    exact ⟨aluOp_refuses h _ _ _, aluOp_refuses h _ _ _, aluOp_refuses h _ _ _, divOp_refuses h _ _ _,
      divOp_refuses h _ _ _, aluOp_refuses h _ _ _, aluOp_refuses h _ _ _, aluOp_refuses h _ _ _,
      bitOp_refuses h (fun v bit => v ||| bit) _ _, bitOp_refuses h (fun v bit => v &&& ~~~bit) _ _,
      bitOp_refuses h (fun v bit => v ^^^ bit) _ _⟩

end Sys2Proof.Machine
end

section
/-! PROOFS. Data movement: the immediate, the data read, LOD, and the stack (R56, R58, R85, R112 to R119). -/

namespace Sys2Proof.Machine

/-! ### The immediate (R85) -/

/-- Settles O19: a wider word of the same sign has the same signed value, one extended by zeros the same unsigned
one. -/
theorem oneWordImmediateIsSignExtended : Obligations.OneWordImmediateIsSignExtended := by
  intro s
  refine ⟨fun hsext i => ?sext, fun hzext i => ?zext, immed_wide_value s⟩
  case sext => rw [immed_teeny_sext s i hsext, BitVec.toInt_signExtend_of_le (by decide)]
  case zext =>
    rw [State.immed, hzext, widenImm4, BitVec.toNat_setWidth, Nat.mod_eq_of_lt (i.isLt.trans (by decide))]

/-! ### The data read (R56) -/

/-- A bus read takes the answer the host holds ready, if it holds one, and uses it up. -/
theorem afterBusRead_answers (s : State) (addr : Word) :
    (s.hostAnswers = [] → (s.afterBusRead addr).hostAnswers = []) ∧
      ∀ (h : Word) (rest : List Word), s.hostAnswers = h :: rest →
        s.busAnswer addr = h ∧ (s.afterBusRead addr).hostAnswers = rest := by
  rw [afterBusRead_hostAnswers]
  refine ⟨fun hnone => by rw [hnone, List.tail_nil], fun h rest hready => ?_⟩
  exact ⟨busAnswer_ready s addr h rest hready, by rw [hready, List.tail_cons]⟩

/-- Settles O17: below 0x8000 the read is the RAM word, above it one callback with its answer. -/
theorem dataReadTakesRamOrOneBusAnswer : Obligations.DataReadTakesRamOrOneBusAnswer := by
  intro s addr
  refine ⟨memRead_ram s addr, fun habove => ?_⟩
  exact ⟨_, _, memRead_bus s addr (Nat.not_le.mpr habove), afterBusRead_busLog s addr, afterBusRead_reg s addr,
    afterBusRead_flags s addr, afterBusRead_ramWord s addr, afterBusRead_answers s addr⟩

/-- Settles O21: LOD is one data read, then one register write. -/
theorem lodLoadsFromRamOrTheBus : Obligations.LodLoadsFromRamOrTheBus := by
  refine ⟨fun _ w2 hop => decodeWords_of_opcode_lod hop w2, ?loads⟩
  case loads =>
    rintro r1 r2 imm s addr rfl
    refine ⟨_, exec_lod r1 r2 imm s, by rw [setReg_flags, memRead_flags], fun a => ?ram, fun hlow => ?inRam,
      fun habove => ?onBus⟩
    case ram => rw [setReg_ramWord, memRead_ramWord]
    case inRam =>
      rw [operand_eq, memRead_ram s _ hlow]
      exact ⟨fun r => reg_setReg s r1 r _, setReg_sameBus s r1 _⟩
    case onBus =>
      rw [operand_eq, memRead_bus s _ (Nat.not_le.mpr habove), setReg_hostAnswers, setReg_busLog]
      exact ⟨_, fun r => by rw [reg_setReg, afterBusRead_reg], afterBusRead_busLog s _, afterBusRead_answers s _⟩

/-! ### The stack (R58, R116, R118) -/

/-- A write to SP, without the guard that only rZ needs. -/
theorem WritesReg.of_sp {v : Word} {s t : State} (h : WritesReg .sp v s t) (r : Reg) :
    t.reg r = if r = .sp then v else s.reg r := by
  rw [h r]
  by_cases hr : r = .sp
  · simp [hr]
  · simp [hr]

theorem push_of_inRam {s : State} (h : InRam s.sp) (v : Word) (b : State) :
    s.push v b = .ok ((s.setRamWord s.sp v).setReg .sp (s.sp - 1)) := by
  rcases push_cases s v b with ⟨-, heq⟩ | ⟨hout, -⟩ | ⟨hout, -⟩
  · exact heq
  · exact absurd h hout
  · exact absurd h hout

theorem push_of_refuse {s : State} (h : ¬InRam s.sp) (hc : s.config.stackOutsideRam = .refuse) (v : Word) (b : State) :
    s.push v b = .error (.stackOutOfRam s.sp b) := by
  rcases push_cases s v b with ⟨hin, -⟩ | ⟨-, -, heq⟩ | ⟨-, hbus, -⟩
  · exact absurd hin h
  · exact heq
  · exact absurd (hc.symm.trans hbus) (by decide)

theorem push_of_bus {s : State} (h : ¬InRam s.sp) (hc : s.config.stackOutsideRam = .bus) (v : Word) (b : State) :
    s.push v b = .ok ((s.busWrite s.sp v).setReg .sp (s.sp - 1)) := by
  rcases push_cases s v b with ⟨hin, -⟩ | ⟨-, hrefuse, -⟩ | ⟨-, -, heq⟩
  · exact absurd hin h
  · exact absurd (hc.symm.trans hrefuse) (by decide)
  · exact heq

theorem popInto_of_inRam {s : State} (h : InRam (s.sp + 1)) (r1 : Reg) (b : State) :
    s.popInto r1 b = .ok ((s.setReg .sp (s.sp + 1)).setReg r1 (s.ramWord (s.sp + 1))) := by
  rcases popInto_cases s r1 b with ⟨-, heq⟩ | ⟨hout, -⟩ | ⟨hout, -⟩
  · exact heq
  · exact absurd h hout
  · exact absurd h hout

theorem popInto_of_refuse {s : State} (h : ¬InRam (s.sp + 1)) (hc : s.config.stackOutsideRam = .refuse) (r1 : Reg)
    (b : State) : s.popInto r1 b = .error (.stackOutOfRam (s.sp + 1) b) := by
  rcases popInto_cases s r1 b with ⟨hin, -⟩ | ⟨-, -, heq⟩ | ⟨-, hbus, -⟩
  · exact absurd hin h
  · exact heq
  · exact absurd (hc.symm.trans hbus) (by decide)

theorem popInto_of_bus {s : State} (h : ¬InRam (s.sp + 1)) (hc : s.config.stackOutsideRam = .bus) (r1 : Reg)
    (b : State) : s.popInto r1 b =
      .ok (((s.setReg .sp (s.sp + 1)).afterBusRead (s.sp + 1)).setReg r1 (s.busAnswer (s.sp + 1))) := by
  rcases popInto_cases s r1 b with ⟨hin, -⟩ | ⟨-, hrefuse, -⟩ | ⟨-, -, heq⟩
  · exact absurd hin h
  · exact absurd (hc.symm.trans hrefuse) (by decide)
  · exact heq

/-- The whole effect of a push in RAM. -/
theorem push_inRam_effect {s : State} (h : InRam s.sp) (v : Word) (b : State) : ∃ t, s.push v b = .ok t ∧
    WritesRam s.sp v s t ∧ WritesReg .sp (s.sp - 1) s t ∧ t.flags = s.flags ∧ SameBus s t := by
  refine ⟨_, push_of_inRam h v b, fun a => ?_, fun r => ?_, setReg_flags _ _ _, setReg_sameBus _ _ _⟩
  · rw [setReg_ramWord, ramWord_setRamWord]
  · rw [reg_setReg, setRamWord_reg]

/-- The whole effect of a push on the bus. -/
theorem push_bus_effect {s : State} (h : ¬InRam s.sp) (hc : s.config.stackOutsideRam = .bus) (v : Word) (b : State) :
    ∃ t, s.push v b = .ok t ∧ WritesReg .sp (s.sp - 1) s t ∧ SameRam s t ∧ t.flags = s.flags ∧
      t.busLog = s.busLog ++ [.write s.sp v] := by
  refine ⟨_, push_of_bus h hc v b, fun r => ?_, fun a => ?_, setReg_flags _ _ _, setReg_busLog _ _ _⟩
  · rw [reg_setReg, busWrite_reg]
  · rw [setReg_ramWord, busWrite_ramWord]

/-- The whole effect of a pop in RAM; a destination SP is written after SP is incremented (R119). -/
theorem popInto_inRam_effect {s : State} (h : InRam (s.sp + 1)) (r1 : Reg) (b : State) : ∃ t, s.popInto r1 b = .ok t ∧
    (∀ r, t.reg r = if r = r1 ∧ r ≠ .rZ then s.ramWord (s.sp + 1) else if r = .sp then s.sp + 1 else s.reg r) ∧
    t.flags = s.flags ∧ SameRam s t ∧ SameBus s t := by
  refine ⟨_, popInto_of_inRam h r1 b, fun r => ?_, ?_, fun a => ?_, ?_, ?_⟩
  · rw [reg_setReg, reg_setReg_sp]
  · rw [setReg_flags, setReg_flags]
  · rw [setReg_ramWord, setReg_ramWord]
  · rw [setReg_busLog, setReg_busLog]
  · rw [setReg_hostAnswers, setReg_hostAnswers]

/-- The whole effect of a pop on the bus. -/
theorem popInto_bus_effect {s : State} (h : ¬InRam (s.sp + 1)) (hc : s.config.stackOutsideRam = .bus) (r1 : Reg)
    (b : State) : ∃ t v, s.popInto r1 b = .ok t ∧ SameRam s t ∧ t.flags = s.flags ∧
      t.busLog = s.busLog ++ [.read (s.sp + 1) v] ∧
      ∀ r, t.reg r = if r = r1 ∧ r ≠ .rZ then v else if r = .sp then s.sp + 1 else s.reg r := by
  refine ⟨_, s.busAnswer (s.sp + 1), popInto_of_bus h hc r1 b, fun a => ?_, ?_, ?_, fun r => ?_⟩
  · rw [setReg_ramWord, afterBusRead_ramWord, setReg_ramWord]
  · rw [setReg_flags, afterBusRead_flags, setReg_flags]
  · rw [setReg_busLog]
    rfl
  · rw [reg_setReg, afterBusRead_reg, reg_setReg_sp]

theorem exec_psh_of_push_ok {s t : State} {r2 : Reg} {imm : Immed}
    (h : s.push (s.reg r2 + s.immed imm) (s.beforeFetch (Immed.format imm)) = .ok t) :
    exec (.psh r2 imm) s = .next t := (exec_psh r2 imm s).trans (congrArg outcomeOf h)

theorem exec_pop_of_popInto_ok {s t : State} {r1 : Reg} {fmt : Format} (h : s.popInto r1 (s.beforeFetch fmt) = .ok t) :
    exec (.pop r1 fmt) s = .next t := (exec_pop r1 fmt s).trans (congrArg outcomeOf h)

/-- Settles O23: PSH is a push of the operand, formed before SP moves. -/
theorem pshWritesAtSpThenDecrements : Obligations.PshWritesAtSpThenDecrements := by
  intro r2 imm s
  refine ⟨fun hin => ?inRam, fun hout hrefuse => ?refused⟩
  case inRam =>
    obtain ⟨t, hpush, heffect⟩ := push_inRam_effect hin (s.reg r2 + s.immed imm) (s.beforeFetch (Immed.format imm))
    exact ⟨t, exec_psh_of_push_ok hpush, heffect⟩
  case refused => exact (exec_psh r2 imm s).trans (congrArg outcomeOf (push_of_refuse hout hrefuse _ _))

/-- Settles O24: RET is POP PC in one word. -/
theorem popIncrementsSpThenReads : Obligations.PopIncrementsSpThenReads := by
  intro r1 fmt i s hi
  have hexec : exec i s = exec (.pop r1 fmt) s := by
    rcases hi with rfl | ⟨rfl, rfl, rfl⟩
    · rfl
    · exact exec_ret s
  rw [hexec]
  refine ⟨fun hin => ?inRam, fun hout hrefuse => ?refused⟩
  case inRam =>
    obtain ⟨t, hpop, heffect⟩ := popInto_inRam_effect hin r1 (s.beforeFetch fmt)
    exact ⟨t, exec_pop_of_popInto_ok hpop, heffect⟩
  case refused => exact (exec_pop r1 fmt s).trans (congrArg outcomeOf (popInto_of_refuse hout hrefuse _ _))

/-- A pop at the SP a push has left reads what it pushed and puts SP back (R117). -/
theorem sp_of_writesReg_sub_one {s t : State} (h : WritesReg .sp (s.sp - 1) s t) : t.sp + 1 = s.sp := by
  have hsp : t.sp = s.sp - 1 := h .sp
  rw [hsp, BitVec.sub_add_cancel]

/-- Settles O25: the pop finds SP one below, so it reads the address that the push wrote. -/
theorem popAfterPshRestores : Obligations.PopAfterPshRestores := by
  intro r1 r2 imm fmt s hin hr1
  obtain ⟨t, hpush, hram, hregs, hflags, -⟩ :=
    push_inRam_effect hin (s.reg r2 + s.immed imm) (s.beforeFetch (Immed.format imm))
  have hsp := sp_of_writesReg_sub_one hregs
  obtain ⟨u, hpop, hregs', hflags', hram', -⟩ := popInto_inRam_effect (hsp.symm ▸ hin) r1 (t.beforeFetch fmt)
  refine ⟨t, u, exec_psh_of_push_ok hpush, exec_pop_of_popInto_ok hpop, fun r => ?regs, hflags'.trans hflags,
    fun a => (hram' a).trans (hram a)⟩
  case regs =>
    rw [hregs', hsp, hram, if_pos rfl, hregs.of_sp]
    by_cases hr : r = .sp
    · simp [hr, hr1.symm]
    · simp [hr]

end Sys2Proof.Machine
end

section
/-! PROOFS. Control: CAL and RET, the jumps, LUP, and the reserved encodings (R91 to R93, R180 to R191). -/

namespace Sys2Proof.Machine

/-! ### CAL and RET -/

/-- What CAL does once its push has left `t`: it moves PC to the target, read after the push (R181). -/
theorem exec_cal_of_push {s t : State} {r2 : Reg} {imm : Immed}
    (hpush : s.push s.pc (s.beforeFetch (Immed.format imm)) = .ok t) (hregs : WritesReg .sp (s.sp - 1) s t) :
    ∃ u, exec (.cal r2 imm) s = .next u ∧
      (∀ r, u.reg r = if r = .pc then (if r2 = .sp then s.sp - 1 else s.reg r2) + s.immed imm
        else if r = .sp then s.sp - 1 else s.reg r) ∧ u.flags = t.flags ∧ SameRam t u ∧ SameBus t u := by
  have hconfig : t.config = s.config := (effect_push (i := .cal r2 imm) rfl rfl hpush).config
  refine ⟨_, exec_cal_of_push_ok hpush, fun r => ?_, setReg_flags _ _ _, setReg_sameRam _ _ _, setReg_sameBus _ _ _⟩
  rw [reg_setReg_pc, operand_eq, immed_congr imm hconfig, hregs.of_sp, hregs.of_sp]

/-- CAL with SP in RAM. -/
theorem cal_inRam {s : State} (hin : InRam s.sp) (r2 : Reg) (imm : Immed) : ∃ t, exec (.cal r2 imm) s = .next t ∧
    WritesRam s.sp s.pc s t ∧
    (∀ r, t.reg r = if r = .pc then (if r2 = .sp then s.sp - 1 else s.reg r2) + s.immed imm
      else if r = .sp then s.sp - 1 else s.reg r) ∧ t.flags = s.flags ∧ SameBus s t := by
  obtain ⟨t, hpush, hram, hregs, hflags, hlog, hanswers⟩ :=
    push_inRam_effect hin s.pc (s.beforeFetch (Immed.format imm))
  obtain ⟨u, hnext, hregs', hflags', hram', hlog', hanswers'⟩ := exec_cal_of_push (r2 := r2) hpush hregs
  exact ⟨u, hnext, fun a => (hram' a).trans (hram a), hregs', hflags'.trans hflags, hlog'.trans hlog,
    hanswers'.trans hanswers⟩

/-- Settles O39: CAL is a push of PC and then a write to PC. -/
theorem calPushesTheReturnAddressAndJumps : Obligations.CalPushesTheReturnAddressAndJumps :=
  fun r2 imm _ => ⟨fun hin => cal_inRam hin r2 imm,
    fun hout hrefuse => exec_cal_of_push_error (push_of_refuse hout hrefuse _ _)⟩

/-- Settles O40: the word at the SP that CAL has left is the address RET returns to. -/
theorem retAfterCalReturns : Obligations.RetAfterCalReturns := by
  intro r2 imm s hin
  obtain ⟨t, hcal, hram, hregs, -⟩ := cal_inRam hin r2 imm
  refine ⟨t, hcal, fun u husp huram => ?_⟩
  have htsp : t.sp = s.sp - 1 := hregs .sp
  have hsp : u.sp + 1 = s.sp := by rw [husp, htsp, BitVec.sub_add_cancel]
  obtain ⟨v, hpop, hregs', hflags', hram', hbus'⟩ := popInto_inRam_effect (hsp.symm ▸ hin) .pc (u.beforeFetch .w1)
  have hreturn (r : Reg) : v.reg r = if r = .pc then s.pc else if r = .sp then s.sp else u.reg r := by
    rw [hregs', hsp, huram, hram, if_pos rfl]
    by_cases hr : r = .pc
    · simp [hr]
    · simp [hr]
  refine ⟨v, exec_pop_of_popInto_ok hpop, hreturn, hflags', hram', hbus', ?_⟩
  rintro rfl r
  rw [hreturn, hregs]
  cases r <;> rfl

/-- Settles O59: the three operations of O23, O24 and O39, with the push and the pop on the bus. -/
theorem stackReachesTheBusWhenSoSet : Obligations.StackReachesTheBusWhenSoSet := by
  intro r1 r2 imm fmt s hbus
  refine ⟨fun hout => ?psh, fun hout => ?cal, fun hout i hi => ?pop⟩
  case psh =>
    obtain ⟨t, hpush, heffect⟩ := push_bus_effect hout hbus (s.reg r2 + s.immed imm) (s.beforeFetch (Immed.format imm))
    exact ⟨t, exec_psh_of_push_ok hpush, heffect⟩
  case cal =>
    obtain ⟨t, hpush, hregs, hram, hflags, hlog⟩ := push_bus_effect hout hbus s.pc (s.beforeFetch (Immed.format imm))
    obtain ⟨u, hnext, hregs', hflags', hram', hlog', -⟩ := exec_cal_of_push (r2 := r2) hpush hregs
    exact ⟨u, hnext, fun a => (hram' a).trans (hram a), hflags'.trans hflags, hlog'.trans hlog, hregs'⟩
  case pop =>
    rcases hi with rfl | ⟨rfl, rfl⟩
    · obtain ⟨t, v, hpop, heffect⟩ := popInto_bus_effect hout hbus r1 (s.beforeFetch fmt)
      exact ⟨t, v, exec_pop_of_popInto_ok hpop, heffect⟩
    · obtain ⟨t, v, hpop, heffect⟩ := popInto_bus_effect hout hbus .pc (s.beforeFetch .w1)
      exact ⟨t, v, exec_pop_of_popInto_ok hpop, heffect⟩

/-! ### Jumps (R184, R185) -/

theorem taken_iff (m : Mask) (f : Flags) : Mask.taken m f = true ↔
    (m.e = false ∧ m.l = false ∧ m.g = false) ∨ (m.e = true ∧ f.e = true) ∨ (m.l = true ∧ f.l = true) ∨
      (m.g = true ∧ f.g = true) := by
  simp [Mask.taken, and_assoc, or_assoc]

/-- A jump moves PC when its mask takes it, and does nothing else. -/
theorem jumpOn_effect (s : State) (mask : Mask) (r1 : Reg) (immed : Word) :
    (Mask.taken mask s.flags = true → MovesPc (s.reg r1 + immed) s (s.jumpOn mask r1 immed)) ∧
      (Mask.taken mask s.flags = false → s.jumpOn mask r1 immed = s) ∧ (s.jumpOn mask r1 immed).flags = s.flags ∧
      SameRam s (s.jumpOn mask r1 immed) ∧ SameBus s (s.jumpOn mask r1 immed) := by
  rcases jumpOn_cases s mask r1 immed with ⟨htaken, heq⟩ | ⟨hnot, heq⟩
  · rw [heq, htaken]
    exact ⟨fun _ r => reg_setReg_pc s r _, Bool.noConfusion, setReg_flags _ _ _, setReg_sameRam _ _ _,
      setReg_sameBus _ _ _⟩
  · rw [heq, hnot]
    exact ⟨Bool.noConfusion, fun _ => rfl, rfl, fun _ => rfl, rfl, rfl⟩

/-- Settles O41: a jump is taken as its mask says, and writes PC only. -/
theorem jmpTakesAnyMaskedFlag : Obligations.JmpTakesAnyMaskedFlag := by
  intro r1 m imm16 s
  obtain ⟨htaken, hnot, hframe⟩ := jumpOn_effect s m r1 imm16
  rw [← taken_iff]
  refine ⟨_, exec_jmp r1 m imm16 s, htaken, fun h r => ?_, hframe⟩
  rw [hnot (Bool.not_eq_true _ ▸ h)]

/-- Each conditional jump is a jump by its mask, and the flags its mask selects are those of its condition (R203 to
R208). -/
theorem exec_conditionalJump {r1 : Reg} {imm16 : Word} {s : State} {i : Instr} {c : Bool}
    (h : (i = .je r1 imm16 ∧ c = s.flags.e) ∨ (i = .jne r1 imm16 ∧ c = (s.flags.l || s.flags.g)) ∨
      (i = .jl r1 imm16 ∧ c = s.flags.l) ∨ (i = .jle r1 imm16 ∧ c = (s.flags.e || s.flags.l)) ∨
      (i = .jg r1 imm16 ∧ c = s.flags.g) ∨ (i = .jge r1 imm16 ∧ c = (s.flags.e || s.flags.g))) :
    ∃ mask, exec i s = .next (s.jumpOn mask r1 imm16) ∧ Mask.taken mask s.flags = c := by
  rcases h with ⟨rfl, rfl⟩ | ⟨rfl, rfl⟩ | ⟨rfl, rfl⟩ | ⟨rfl, rfl⟩ | ⟨rfl, rfl⟩ | ⟨rfl, rfl⟩
  all_goals exact ⟨_, rfl, by simp [Mask.taken]⟩

/-- Settles O42: each of the six is the jump of O41 with its own mask. -/
theorem conditionalJumpsFollowTheirFlags : Obligations.ConditionalJumpsFollowTheirFlags := by
  intro r1 imm16 s i c hi
  obtain ⟨mask, hexec, rfl⟩ := exec_conditionalJump hi
  obtain ⟨htaken, hnot, hframe⟩ := jumpOn_effect s mask r1 imm16
  refine ⟨_, hexec, htaken, fun h r => ?_, hframe⟩
  rw [hnot h]

/-- Settles O43: CMP leaves the flags of the comparison, and each condition is the flag, or one of two flags, that its
comparison sets. -/
theorem conditionsAfterCmpAreSignedComparisons : Obligations.ConditionsAfterCmpAreSignedComparisons := by
  rintro r1 r2 r3 imm imm16 s t u a b i p hrule hcmp hflags rfl rfl hi
  obtain ⟨t', hnext, hcompare, -⟩ := cmpComparesSignedAndExact r1 r2 imm s hrule
  cases hcmp.symm.trans hnext
  rw [← hflags] at hcompare
  obtain ⟨hequal, hless, hgreater⟩ := hcompare
  have hcondition : ∃ c, (p ↔ c = true) ∧ ∃ mask, exec i u = .next (u.jumpOn mask r3 imm16) ∧
      Mask.taken mask u.flags = c := by
    rcases hi with ⟨rfl, rfl⟩ | ⟨rfl, rfl⟩ | ⟨rfl, rfl⟩ | ⟨rfl, rfl⟩ | ⟨rfl, rfl⟩ | ⟨rfl, rfl⟩
    · exact ⟨_, hequal.symm, exec_conditionalJump (.inl ⟨rfl, rfl⟩)⟩
    · refine ⟨_, ?_, exec_conditionalJump (.inr (.inl ⟨rfl, rfl⟩))⟩
      rw [Bool.or_eq_true, hless, hgreater, ← ne_iff_lt_or_gt]
    · exact ⟨_, hless.symm, exec_conditionalJump (.inr (.inr (.inl ⟨rfl, rfl⟩)))⟩
    · refine ⟨_, ?_, exec_conditionalJump (.inr (.inr (.inr (.inl ⟨rfl, rfl⟩))))⟩
      rw [Bool.or_eq_true, hequal, hless, le_iff_eq_or_lt]
    · exact ⟨_, hgreater.symm, exec_conditionalJump (.inr (.inr (.inr (.inr (.inl ⟨rfl, rfl⟩)))))⟩
    · refine ⟨_, ?_, exec_conditionalJump (.inr (.inr (.inr (.inr (.inr ⟨rfl, rfl⟩)))))⟩
      rw [Bool.or_eq_true, hequal, hgreater, le_iff_eq_or_lt, eq_comm]
  obtain ⟨c, hp, mask, hexec, rfl⟩ := hcondition
  obtain ⟨htaken, hnot, -⟩ := jumpOn_effect u mask r3 imm16
  refine ⟨fun h => ⟨_, hexec, htaken (hp.mp h)⟩, fun h => ?_⟩
  rw [hexec, hnot (Bool.not_eq_true _ ▸ fun h' => h (hp.mpr h'))]

/-! ### LUP (R190) -/

/-- Settles O45: the decrement is one register write, and the test and the target read the state it leaves. -/
theorem lupCountsDownAndJumpsWhileNonZero : Obligations.LupCountsDownAndJumpsWhileNonZero := by
  intro r1 r2 imm s
  have hdown : WritesReg r1 (s.reg r1 - 1) s (s.countDown r1) := fun r => reg_setReg s r1 r _
  by_cases hzero : (s.countDown r1).reg r1 = 0
  · exact ⟨s.countDown r1, _, exec_lup_of_zero hzero r2 imm, hdown, fun h => absurd hzero h, fun _ _ => rfl,
      setReg_flags _ _ _, setReg_sameRam _ _ _, setReg_sameBus _ _ _⟩
  · refine ⟨s.countDown r1, _, exec_lup_of_ne_zero hzero r2 imm, hdown, fun _ r => ?_, fun h => absurd h hzero, ?_,
      fun a => ?_, ?_, ?_⟩
    · rw [reg_setReg_pc, operand_eq, State.countDown, setReg_immed]
    · rw [setReg_flags, State.countDown, setReg_flags]
    · rw [setReg_ramWord, State.countDown, setReg_ramWord]
    · rw [setReg_busLog, State.countDown, setReg_busLog]
    · rw [setReg_hostAnswers, State.countDown, setReg_hostAnswers]

/-! ### Reserved encodings (R91 to R93) -/

theorem words_formatOf (w : Word) : Format.words (formatOf w) = if teenyBit w then 1 else 2 := by
  cases hteeny : teenyBit w <;> simp [formatOf, hteeny, Format.words]

/-- Settles O46: by default each class answers its fault with the address its format gives. -/
theorem reservedWordsFault : Obligations.ReservedWordsFault := by
  rintro w1 w2 s n rfl
  refine ⟨fun h => exec_reservedJmpOneWord_refuse h w1, fun h => exec_reservedJmpBit3_refuse h w1 w2, fun h => ?_⟩
  rw [exec_undefinedOpcode_refuse h, State.beforeFetch, State.instrAddress, words_formatOf]

theorem straddleOutcome_resetPc {s : State} (h : s.config.fetchStraddle = .resetPc) :
    s.straddleOutcome = .next (s.setReg .pc 0x0000) := by
  rw [State.straddleOutcome, h]

/-- Settles O58: each parameter selects the other arm of the class it governs. -/
theorem faultParametersReplaceTheirFaults : Obligations.FaultParametersReplaceTheirFaults := by
  intro r1 r2 imm w1 w2 s
  refine ⟨fun hnop ha hzero => ⟨(divOp_zero ha _ hzero).2 hnop, (divOp_zero ha _ hzero).2 hnop⟩,
    fun h => exec_undefinedOpcode_nop h w1, fun h => exec_reservedJmpBit3_ignore h w1 w2,
    fun hbit3 => ⟨fun h => ?immed0, fun h => ?immed4⟩, fun hreset hconfig hstraddles => ?straddle⟩
  case immed0 => rw [exec_reservedJmpOneWord_immed0 h, reservedJump_of_ignored hbit3, exec_jmp]
  case immed4 => rw [exec_reservedJmpOneWord_immed4 h, reservedJump_of_ignored hbit3, exec_jmp]
  case straddle =>
    rcases step_cases hconfig with ⟨-, hstep⟩ | ⟨hnot, -⟩
    · rw [hstep, straddleOutcome_resetPc hreset]
    · exact absurd (hnot.symm.trans hstraddles) Bool.false_ne_true

end Sys2Proof.Machine
end

section
/-! PROOFS. The fetch and the step: a step runs the words it finds at its fetch address (R25, R88). -/

namespace Sys2Proof.Machine

/-! ### PC only says where the step fetches -/

@[simp] theorem setReg_pc_setReg_pc (s : State) (a b : Word) : (s.setReg .pc a).setReg .pc b = s.setReg .pc b := rfl

@[simp] theorem setReg_pc_self (s : State) : s.setReg .pc s.pc = s := rfl

/-- What counts as unset does not depend on PC. -/
theorem unset_setReg_pc (s : State) (v : Word) : (s.setReg .pc v).unset = s.unset := by
  funext source
  cases source <;> rfl

theorem unlessUnset_setReg_pc (s : State) (v : Word) : (s.setReg .pc v).unlessUnset = s.unlessUnset := by
  funext l b o
  rw [State.unlessUnset, State.unlessUnset, unset_setReg_pc]

/-- Two states that differ in PC only and fetch at the same address have the same step. -/
theorem step_setReg_pc {s : State} {v : Word} (h : (s.setReg .pc v).fetchAddress = s.fetchAddress) :
    step (s.setReg .pc v) = step s := by
  have hfirst : (s.setReg .pc v).firstFetched = s.firstFetched := by
    rw [State.firstFetched, h, setReg_ramWord, State.firstFetched]
  have hsecond : (s.setReg .pc v).secondFetched = s.secondFetched := by
    rw [State.secondFetched, hfirst, h, setReg_ramWord, State.secondFetched]
  have hreads : (s.setReg .pc v).fetchReads = s.fetchReads := by
    rw [State.fetchReads, hfirst, h, State.fetchReads]
  have hat : (s.setReg .pc v).atFetch = s.atFetch := by rw [State.atFetch, h, setReg_pc_setReg_pc, State.atFetch]
  have hafter : (s.setReg .pc v).afterFetch = s.afterFetch := by
    rw [State.afterFetch, hfirst, h, setReg_pc_setReg_pc, State.afterFetch]
  have hfetched : (s.setReg .pc v).fetched = s.fetched := by rw [State.fetched, hfirst, hsecond, State.fetched]
  have hstraddles : (s.setReg .pc v).straddles = s.straddles := by rw [State.straddles, hfirst, h, State.straddles]
  have houtcome : (s.setReg .pc v).straddleOutcome = s.straddleOutcome := by
    rw [State.straddleOutcome, h, hat, setReg_config, setReg_pc_setReg_pc, State.straddleOutcome]
  rw [step, unlessUnset_setReg_pc, hreads, hat, hafter, hfetched, hstraddles, houtcome, step]

theorem fetchAddress_of_not_inRam {s : State} (h : ¬InRam s.pc) : s.fetchAddress = 0x0000 := if_neg h

@[simp] theorem fetchAddress_setReg_pc_zero (s : State) : (s.setReg .pc 0x0000).fetchAddress = 0x0000 :=
  fetchAddress_of_inRam (by decide : InRam 0x0000)

/-- Settles O9: PC enters a step through the fetch address only, which is 0x0000 on both sides. -/
theorem fetchOutsideRamRestartsAtZero : Obligations.FetchOutsideRamRestartsAtZero := by
  intro s h
  refine (step_setReg_pc ?_).symm
  rw [fetchAddress_setReg_pc_zero, fetchAddress_of_not_inRam h]

/-! ### A step runs the words at its fetch address -/

/-- With the words `w1` and, for T = 0, `w2` at the fetch address, the step executes the instruction they decode to. -/
theorem step_of_words {s : State} (hconfig : Config.noUnsetFault s.config) {a w1 w2 : Word} (ha : s.fetchAddress = a)
    (hfirst : s.ramWord a = w1) (hsecond : teenyBit w1 = false → a ≠ 0x7FFF ∧ s.ramWord (a + 1) = w2) :
    step s = exec (decodeWords w1 w2) (s.setReg .pc (a + if teenyBit w1 then 1 else 2)) := by
  have hfetched : s.firstFetched = w1 := by rw [State.firstFetched, ha, hfirst]
  rcases step_cases hconfig with ⟨hstraddles, -⟩ | ⟨-, hstep⟩
  · obtain ⟨hteeny, hend⟩ := (straddles_eq_true_iff s).mp hstraddles
    exact absurd (ha.symm.trans hend) (hsecond (hfetched ▸ hteeny)).1
  · rw [hstep, fetched_eq_decodeWords, State.afterFetch, hfetched, ha, words_formatOf]
    cases hteeny : teenyBit w1 with
    | true => rw [decodeWords_congr_of_teenyBit hteeny _ w2]
    | false => rw [(hsecond hteeny).2]

/-- The words that decode to one instruction with nothing left over are one word with T = 1 or two with T = 0. -/
theorem words_of_decode_eq {ws : List Word} {i : Instr} (h : decode ws = .ok (i, [])) :
    (∃ w1, ws = [w1] ∧ teenyBit w1 = true ∧ i = decodeWords w1 0) ∨
      ∃ w1 w2, ws = [w1, w2] ∧ teenyBit w1 = false ∧ i = decodeWords w1 w2 := by
  match ws with
  | [] => cases h
  | [w1] =>
    cases hteeny : teenyBit w1 with
    | true =>
      rw [decode_cons_of_teenyBit hteeny 0] at h
      cases h
      exact .inl ⟨w1, rfl, hteeny, rfl⟩
    | false => simp [decode, hteeny] at h
  | w1 :: w2 :: rest =>
    cases hteeny : teenyBit w1 with
    | true =>
      rw [decode_cons_of_teenyBit hteeny 0] at h
      cases h
    | false =>
      rw [decode_cons_cons_of_not_teenyBit hteeny] at h
      cases h
      exact .inr ⟨w1, w2, rfl, hteeny, rfl⟩

theorem inRam_of_add_length_le {a w : Word} {ws : List Word} (h : a.toNat + (w :: ws).length ≤ 0x8000) : InRam a := by
  rw [List.length_cons] at h
  omega

/-- Settles O8: the words are one with T = 1 or two with T = 0, and stand at the fetch address. -/
theorem stepRunsTheDecodedInstruction : Obligations.StepRunsTheDecodedInstruction := by
  intro s i ws hconfig _ hdecode hfits hwords
  rcases words_of_decode_eq hdecode with ⟨w1, rfl, hteeny, rfl⟩ | ⟨w1, w2, rfl, hteeny, rfl⟩
  · have haddr : s.fetchAddress = s.pc := fetchAddress_of_inRam (inRam_of_add_length_le hfits)
    have hfirst : s.ramWord s.pc = w1 := by simpa [eq_comm] using hwords 0
    rw [step_of_words (w2 := 0) hconfig haddr hfirst fun h => absurd (h.symm.trans hteeny) Bool.false_ne_true, hteeny]
    rfl
  · have haddr : s.fetchAddress = s.pc := fetchAddress_of_inRam (inRam_of_add_length_le hfits)
    have hfirst : s.ramWord s.pc = w1 := by simpa [eq_comm] using hwords 0
    have hsecond : s.ramWord (s.pc + 1) = w2 := by simpa [eq_comm] using hwords 1
    have hend : s.pc ≠ 0x7FFF := fun h => by simp [h] at hfits
    rw [step_of_words (w2 := w2) hconfig haddr hfirst fun _ => ⟨hend, hsecond⟩, hteeny]
    rfl

/-- The self-jump of the end of a run (R234): JMP with an empty mask to rZ + its own address. -/
theorem decodeWords_0xA800 (w2 : Word) : decodeWords 0xA800 w2 = .jmp .rZ ⟨false, false, false⟩ w2 :=
  decodeWords_of_imm4Field (w1 := 0xA800) (f := 0) (by decide) (by decide) (by decide) w2

/-- Settles O14: the fetch moves PC past the jump and the jump, whose mask is empty, moves it back. -/
theorem finishedRunStaysWhereItIs : Obligations.FinishedRunStaysWhereItIs := by
  intro s hconfig hfinished
  simp only [State.finished, Bool.and_eq_true, decide_eq_true_eq, beq_iff_eq] at hfinished
  obtain ⟨⟨hpc, hfirst⟩, hsecond⟩ := hfinished
  have hend : s.pc ≠ 0x7FFF := fun h => by simp [h] at hpc
  rw [step_of_words hconfig (fetchAddress_of_inRam (show InRam s.pc by omega)) hfirst fun _ => ⟨hend, hsecond⟩,
    decodeWords_0xA800, exec_jmp]
  rcases jumpOn_cases (s.setReg .pc (s.pc + if teenyBit 0xA800 then 1 else 2)) ⟨false, false, false⟩ .rZ s.pc with
    ⟨-, heq⟩ | ⟨hnot, -⟩
  · rw [heq, reg_rZ, setReg_pc_setReg_pc, zero_add, setReg_pc_self]
  · cases hnot

/-! ### Stores and the instruction stream (R62, R65) -/

/-- Settles O53: the store is RAM[a] <- v, and a read or fetch of `a` takes `v`; of any other address, what was there
before. -/
theorem latestStoreIsWhatIsReadAndFetched : Obligations.LatestStoreIsWhatIsReadAndFetched := by
  rintro r1 r2 imm s t a v hconfig rfl rfl hin hstr
  obtain ⟨t', hnext, -, -, -, hram, -⟩ := strStoresToRamOrTheBus.2 r1 r2 imm s _ rfl
  cases hstr.symm.trans hnext
  obtain ⟨hwrites, -⟩ := hram hin
  have hconfig' : Config.noUnsetFault t.config := (effect_of_exec_next hstr).config ▸ hconfig
  generalize s.reg r1 + s.immed imm = a at *
  have hstored : t.ramWord a = s.reg r2 := by rw [hwrites, if_pos rfl]
  refine ⟨fun q1 q2 imm' haddr => ?load, fun haddr hteeny => ?first, fun haddr hteeny hend => ?firstOfTwo,
    fun haddr hteeny => ?second⟩
  case load =>
    obtain ⟨u, hlod, -, -, hread, -⟩ := lodLoadsFromRamOrTheBus.2 q1 q2 imm' t a haddr.symm
    exact ⟨u, hlod, hstored ▸ (hread hin).1⟩
  case first =>
    rw [step_of_words (w2 := 0) hconfig' haddr hstored fun h => absurd (h.symm.trans hteeny) Bool.false_ne_true, hteeny]
    rfl
  case firstOfTwo =>
    have hnext : t.ramWord (a + 1) = s.ramWord (a + 1) := by rw [hwrites, if_neg (by simp)]
    rw [step_of_words hconfig' haddr hstored fun _ => ⟨hend, hnext⟩, hteeny]
    rfl
  case second =>
    have hfirst : t.ramWord t.fetchAddress = s.ramWord t.fetchAddress := by
      rw [hwrites, if_neg (by rw [← haddr]; simp)]
    have hend : t.fetchAddress ≠ 0x7FFF := by
      rintro h
      rw [h] at haddr
      subst haddr
      exact absurd hin (by decide)
    rw [step_of_words hconfig' rfl hfirst fun _ => ⟨hend, haddr ▸ hstored⟩, hteeny]
    rfl

end Sys2Proof.Machine
end

section
/-! PROOFS. Reset, the image, and placing an instruction (R34, R250, R251). -/

namespace Sys2Proof.Machine

/-! ### Words placed in RAM -/

/-- An address outside the words placed reads as before. -/
theorem ramWord_placeWords_outside (ws : List Word) (s : State) {a : Nat} (hfits : a + ws.length ≤ 0x8000) {x : Word}
    (hx : x.toNat < a ∨ a + ws.length ≤ x.toNat) : (s.placeWords a ws).ramWord x = s.ramWord x := by
  induction ws generalizing s a with
  | nil => rfl
  | cons w ws ih =>
    rw [List.length_cons] at hfits hx
    have hne : x ≠ BitVec.ofNat 16 a := by
      rintro rfl
      rw [BitVec.toNat_ofNat] at hx
      omega
    rw [State.placeWords, ih _ (by omega) (by omega), ramWord_setRamWord, if_neg hne]

/-- The address of each word placed reads that word. -/
theorem ramWord_placeWords_inside (ws : List Word) (s : State) {a : Nat} (hfits : a + ws.length ≤ 0x8000) {k : Nat}
    (hk : k < ws.length) : ws[k]? = some ((s.placeWords a ws).ramWord (BitVec.ofNat 16 (a + k))) := by
  induction ws generalizing s a k with
  | nil => cases hk
  | cons w ws ih =>
    rw [List.length_cons] at hfits hk
    rw [State.placeWords]
    cases k with
    | zero =>
      have hx : (BitVec.ofNat 16 a).toNat = a := by rw [BitVec.toNat_ofNat]; omega
      rw [Nat.add_zero a, ramWord_placeWords_outside ws _ (by omega) (by omega), ramWord_setRamWord, if_pos rfl,
        List.getElem?_cons_zero]
    | succ k => rw [List.getElem?_cons_succ, ih _ (a := a + 1) (by omega) (by omega), Nat.add_assoc, Nat.add_comm 1 k]

theorem loadImage_eq_some_iff {s t : State} {image : List Word} :
    s.loadImage image = some t ↔ image.length ≤ 0x8000 ∧ s.placeWords 0 image = t := by
  rw [State.loadImage]
  split <;> simp [*]

/-! ### Reset -/

theorem resetWord_of_ne_zero {rule : ResetGpr} (h : rule ≠ .zero) (v : Word) : resetWord rule v = v := by
  cases rule with
  | zero => exact absurd rfl h
  | _ => rfl

theorem resetFlags_of_ne_zero {rule : ResetFlags} (h : rule ≠ .zero) (f : Flags) : resetFlags rule f = f := by
  cases rule with
  | zero => exact absurd rfl h
  | _ => rfl

theorem resetFlags_atMostOne (rule : ResetFlags) {f : Flags} (h : f.atMostOne = true) :
    (resetFlags rule f).atMostOne = true := by
  cases rule with
  | zero => rfl
  | _ => exact h

theorem initial_inv (p : Config) (a b c d e : Word) {f : Flags} (h : f.atMostOne = true) :
    (State.initial p a b c d e f).Inv :=
  ⟨rfl, resetFlags_atMostOne p.resetFlags h, List.forall_mem_nil _⟩

theorem Inv.placeWords {s : State} (h : s.Inv) {a : Nat} {ws : List Word} (hfits : a + ws.length ≤ 0x8000) :
    (s.placeWords a ws).Inv := by
  obtain ⟨hram, hflags, hlog⟩ := h
  obtain ⟨-, hflags', hlog', -, -⟩ := placeWords_frame ws s a
  exact ⟨placeWords_wf ws s a hram hfits, hflags'.symm ▸ hflags, hlog'.symm ▸ hlog⟩

/-- Settles O12: reset holds no RAM word and no callback, and loading writes RAM addresses only. -/
theorem initialStatesMeetTheInvariant : Obligations.InitialStatesMeetTheInvariant := by
  refine ⟨initial_inv _ _ _ _ _ _ rfl, fun p a b c d e f image t hf hload => ?_⟩
  obtain ⟨hlength, rfl⟩ := loadImage_eq_some_iff.mp hload
  exact Inv.placeWords (initial_inv p a b c d e hf) (by omega)

/-- Settles O13: the load keeps every register and flag of the reset state and changes RAM in the image only. -/
theorem resetHoldsTheImageAndTheStatedValues : Obligations.ResetHoldsTheImageAndTheStatedValues := by
  intro p a b c d e f image hlength
  obtain ⟨hregs, hflags, hlog, -, hconfig⟩ := placeWords_frame image (State.initial p a b c d e f) 0
  have hfits : 0 + image.length ≤ 0x8000 := by omega
  have hpc : ((State.initial p a b c d e f).placeWords 0 image).pc = 0x0000 := hregs .pc
  have houtside {x : Word} (hx : image.length ≤ x.toNat) :
      ((State.initial p a b c d e f).placeWords 0 image).ramWord x = (State.initial p a b c d e f).ramWord x :=
    ramWord_placeWords_outside image _ hfits (.inr (by omega))
  refine ⟨_, loadImage_eq_some_iff.mpr ⟨hlength, rfl⟩, hpc, hregs .sp, hregs .rZ, fun hgpr => ?given, fun hgpr => ?zero,
    fun hrule => ?flags, fun hrule => ?clear, fun k hk => ?image, fun x hx => houtside hx, fun w hfill x hx => ?fixed,
    ?fetch, hlog, hconfig⟩
  case given =>
    have hreset := resetWord_of_ne_zero hgpr
    exact ⟨(hregs .rA).trans (hreset a), (hregs .rB).trans (hreset b), (hregs .rC).trans (hreset c),
      (hregs .rD).trans (hreset d), (hregs .rE).trans (hreset e)⟩
  case zero =>
    have hreset (v : Word) : resetWord p.resetGpr v = 0 := by rw [hgpr, resetWord]
    exact ⟨(hregs .rA).trans (hreset a), (hregs .rB).trans (hreset b), (hregs .rC).trans (hreset c),
      (hregs .rD).trans (hreset d), (hregs .rE).trans (hreset e)⟩
  case flags => exact hflags.trans (resetFlags_of_ne_zero hrule f)
  case clear => exact hflags.trans (by rw [State.initial, hrule, resetFlags])
  case image => simpa using ramWord_placeWords_inside image (State.initial p a b c d e f) hfits hk
  case fixed =>
    rw [houtside hx, State.ramWord, initial_config, hfill]
    rfl
  case fetch => rw [fetchAddress_of_inRam (hpc.symm ▸ (by decide : InRam 0x0000)), hpc]

/-! ### An instruction placed where the next step fetches -/

/-- What `withFetchWord` gives: the words stand at the fetch address `a`, only PC and RAM have changed, and PC only
where a two-word instruction has no room. -/
structure Placed (s t : State) (a w1 w2 : Word) : Prop where
  fetchAddress : t.fetchAddress = a
  first : t.ramWord a = w1
  second : teenyBit w1 = false → a ≠ 0x7FFF ∧ t.ramWord (a + 1) = w2
  atPc : s.pc.toNat ≤ 0x7FFE → a = s.pc
  regs : ∀ r, r ≠ .pc → t.reg r = s.reg r
  config : t.config = s.config
  inv : s.Inv → t.Inv

/-- A write to RAM does not move the fetch. -/
@[simp] theorem fetchAddress_setRamWord (s : State) (a v : Word) : (s.setRamWord a v).fetchAddress = s.fetchAddress :=
  rfl

theorem fetchAddress_of_pc_le {s : State} (h : s.pc.toNat ≤ 0x7FFE) : s.fetchAddress = s.pc :=
  fetchAddress_of_inRam (Nat.le_succ_of_le h)

theorem inRam_add_one {a : Word} (h : InRam a) (hend : a ≠ 0x7FFF) : InRam (a + 1) := by
  rw [InRam] at h ⊢
  bv_omega

theorem placed_withFetchWord (s : State) (nbits w : Nat) :
    ∃ a, Placed s (s.withFetchWord nbits w) a (tableWords nbits w).1 (tableWords nbits w).2 := by
  generalize hw1 : (tableWords nbits w).1 = w1
  generalize hw2 : (tableWords nbits w).2 = w2
  have hin := fetchAddress_inRam s
  rw [State.withFetchWord, hw1, hw2]
  split
  case isTrue hteeny =>
    exact ⟨s.fetchAddress, {
      fetchAddress := fetchAddress_setRamWord ..
      first := by rw [ramWord_setRamWord, if_pos rfl]
      second := fun h => absurd (h.symm.trans hteeny) Bool.false_ne_true
      atPc := fetchAddress_of_pc_le
      regs := fun r _ => setRamWord_reg ..
      config := setRamWord_config ..
      inv := fun h => Inv.setRamWord h hin w1 }⟩
  case isFalse =>
    split
    case isTrue hend =>
      exact ⟨0x0000, {
        fetchAddress := fetchAddress_setReg_pc_zero s
        first := by rw [ramWord_setRamWord, if_neg (by decide), ramWord_setRamWord, if_pos rfl]
        second := fun _ => ⟨by decide, by rw [ramWord_setRamWord]; rfl⟩
        atPc := fun hpc => by
          have hpc' := (fetchAddress_of_pc_le hpc).symm.trans hend
          rw [hpc'] at hpc
          exact absurd hpc (by decide)
        regs := fun r hr => by rw [setRamWord_reg, setRamWord_reg, reg_setReg_ne _ _ _ _ hr]
        config := setReg_config ..
        inv := fun h => Inv.setRamWord (Inv.setRamWord (Inv.setReg h _ _) (by decide) _) (by decide) _ }⟩
    case isFalse hend =>
      exact ⟨s.fetchAddress, {
        fetchAddress := rfl
        first := by rw [ramWord_setRamWord, if_neg (by simp), ramWord_setRamWord, if_pos rfl]
        second := fun _ => ⟨hend, by rw [ramWord_setRamWord, if_pos rfl]⟩
        atPc := fetchAddress_of_pc_le
        regs := fun r _ => by rw [setRamWord_reg, setRamWord_reg]
        config := rfl
        inv := fun h => Inv.setRamWord (Inv.setRamWord h hin _) (inRam_add_one hin hend) _ }⟩

/-- Settles O15: the words placed stand at the fetch address of the state they are placed in. -/
theorem placedInstructionIsTheOneThatRuns : Obligations.PlacedInstructionIsTheOneThatRuns := by
  rintro s t nbits w rfl
  obtain ⟨a, h⟩ := placed_withFetchWord s nbits w
  refine ⟨fun hconfig => ?runs, fun hpc => h.fetchAddress.trans (h.atPc hpc), h.regs, h.inv⟩
  case runs => rw [step_of_words (h.config.symm ▸ hconfig) h.fetchAddress h.first h.second, h.fetchAddress]

end Sys2Proof.Machine
end

section
/-! PROOFS. How an instruction or a step can stop (R222, R223). -/

namespace Sys2Proof.Machine

/-! ### The format of an instruction (R82) -/

/-- The format an instruction's words have, and so how far back from PC its first word stands (R25). -/
def Instr.format : Instr → Format
  | .set _ _ imm => Immed.format imm
  | .lod _ _ imm => Immed.format imm
  | .str _ _ imm => Immed.format imm
  | .psh _ imm => Immed.format imm
  | .pop _ fmt => fmt
  | .bts _ _ imm => Immed.format imm
  | .btc _ _ imm => Immed.format imm
  | .btf _ _ imm => Immed.format imm
  | .cal _ imm => Immed.format imm
  | .add _ _ imm => Immed.format imm
  | .sub _ _ imm => Immed.format imm
  | .mpy _ _ imm => Immed.format imm
  | .div _ _ imm => Immed.format imm
  | .mod _ _ imm => Immed.format imm
  | .and _ _ imm => Immed.format imm
  | .or _ _ imm => Immed.format imm
  | .xor _ _ imm => Immed.format imm
  | .shf _ _ imm => Immed.format imm
  | .rot _ _ imm => Immed.format imm
  | .neg _ fmt => fmt
  | .cmp _ _ imm => Immed.format imm
  | .jmp _ _ _ => .w2
  | .dly _ imm => Immed.format imm
  | .lup _ _ imm => Immed.format imm
  | .reservedJmpOneWord _ => .w1
  | .reservedJmpBit3 _ _ => .w2
  | .undefinedOpcode w1 => formatOf w1
  | .inc _ => .w1
  | .dec _ => .w1
  | .ret => .w1
  | .je _ _ => .w2
  | .jne _ _ => .w2
  | .jl _ _ => .w2
  | .jle _ _ => .w2
  | .jg _ _ => .w2
  | .jge _ _ => .w2

/-- The name chosen for an instruction does not change its words (R210). -/
theorem format_respell (i : Instr) : Instr.format (respell i) = Instr.format i := by
  cases i with
  | add r1 r2 imm =>
    rw [respell]
    split
    case isTrue hname => obtain ⟨rfl, rfl⟩ := hname; rfl
    case isFalse => rfl
  | sub r1 r2 imm =>
    rw [respell]
    split
    case isTrue hname => obtain ⟨rfl, rfl⟩ := hname; rfl
    case isFalse => rfl
  | pop r1 fmt =>
    rw [respell]
    split
    case isTrue hname => obtain ⟨rfl, rfl⟩ := hname; rfl
    case isFalse => rfl
  | jmp r1 mask imm16 => obtain ⟨_ | _, _ | _, _ | _⟩ := mask <;> rfl
  | _ => rfl

theorem format_immedOf (w1 w2 : Word) : Immed.format (immedOf w1 w2) = formatOf w1 := by
  cases h : teenyBit w1 <;> simp [immedOf, formatOf, Immed.format, h]

/-- A decoded instruction has the format that its first word says (R82). -/
theorem format_decodeWords (w1 w2 : Word) : Instr.format (decodeWords w1 w2) = formatOf w1 := by
  rw [decodeWords, format_respell, decodeReal]
  split
  case h_5 => rfl
  case h_20 => rfl
  case h_22 =>
    split
    case isTrue hteeny => exact (formatOf_of_teenyBit hteeny).symm
    case isFalse hteeny =>
      have hfmt := formatOf_of_not_teenyBit (Bool.not_eq_true _ ▸ hteeny)
      split <;> exact hfmt.symm
  case h_25 => rfl
  all_goals exact format_immedOf w1 w2

/-! ### What an instruction can answer -/

/-- The outcomes an instruction can have: a next state, one of four model faults with the instruction's address, or a
refusal; the state it leaves is `s` with PC at the instruction (R223). -/
inductive Answer (i : Instr) (s : State) : Host.Outcome State Fault Refusal → Prop where
  | next (t : State) : Answer i s (.next t)
  | illegalOpcode (w1 : Word) : Answer i s
    (.fault (.illegalOpcode (s.instrAddress (Instr.format i)) w1 (s.beforeFetch (Instr.format i))))
  | reservedEncoding (w1 : Word) : Answer i s
    (.fault (.reservedEncoding (s.instrAddress (Instr.format i)) w1 (s.beforeFetch (Instr.format i))))
  | stackOutOfRam (addr : Word) : Answer i s (.fault (.stackOutOfRam addr (s.beforeFetch (Instr.format i))))
  | divideByZero : Answer i s
    (.fault (.divideByZero (s.instrAddress (Instr.format i)) (s.beforeFetch (Instr.format i))))
  | refused {r : Refusal} (h : Refusal.before r = some (s.beforeFetch (Instr.format i))) : Answer i s (.refused r)

section Operations

variable {i : Instr} {s : State}

theorem answer_unlessRefused {o : Host.Outcome State Fault Refusal} (ho : Answer i s o) {fmt : Format}
    (hfmt : Instr.format i = fmt) (r1 : Reg) : Answer i s (s.unlessRefused r1 fmt o) := by
  unfold State.unlessRefused
  split
  · exact .refused (by rw [hfmt]; rfl)
  · exact ho

theorem answer_aluOp {imm : Immed} (hfmt : Instr.format i = Immed.format imm) (f : Word → Word → Word) (r1 r2 : Reg) :
    Answer i s (aluOp f r1 r2 imm s) := answer_unlessRefused (.next _) hfmt r1

theorem answer_bitOp {imm : Immed} (hfmt : Instr.format i = Immed.format imm) (f : Word → Word → Word) (r1 r2 : Reg) :
    Answer i s (bitOp f r1 r2 imm s) := by
  refine answer_unlessRefused ?_ hfmt r1
  split
  · exact .next _
  · exact .next _

theorem answer_divOp {imm : Immed} (hfmt : Instr.format i = Immed.format imm) (f : Word → Word → Word) (r1 r2 : Reg) :
    Answer i s (divOp f r1 r2 imm s) := by
  unfold divOp
  split
  · refine answer_unlessRefused ?_ hfmt r1
    split
    · rw [← hfmt]
      exact .divideByZero
    · exact .next _
  · exact answer_aluOp hfmt f r1 r2

theorem answer_psh (r2 : Reg) (imm : Immed) : Answer (.psh r2 imm) s (exec (.psh r2 imm) s) := by
  rw [exec_psh]
  rcases push_cases s (s.operand r2 imm) (s.beforeFetch (Immed.format imm)) with ⟨-, heq⟩ | ⟨-, -, heq⟩ | ⟨-, -, heq⟩
  · rw [heq]
    exact .next _
  · rw [heq]
    exact .stackOutOfRam _
  · rw [heq]
    exact .next _

theorem answer_cal (r2 : Reg) (imm : Immed) : Answer (.cal r2 imm) s (exec (.cal r2 imm) s) := by
  rcases push_cases s s.pc (s.beforeFetch (Immed.format imm)) with ⟨-, heq⟩ | ⟨-, -, heq⟩ | ⟨-, -, heq⟩
  · rw [exec_cal_of_push_ok heq]
    exact .next _
  · rw [exec_cal_of_push_error heq]
    exact .stackOutOfRam _
  · rw [exec_cal_of_push_ok heq]
    exact .next _

theorem answer_popInto (r1 : Reg) : Answer i s (outcomeOf (s.popInto r1 (s.beforeFetch (Instr.format i)))) := by
  rcases popInto_cases s r1 (s.beforeFetch (Instr.format i)) with ⟨-, heq⟩ | ⟨-, -, heq⟩ | ⟨-, -, heq⟩
  · rw [heq]
    exact .next _
  · rw [heq]
    exact .stackOutOfRam _
  · rw [heq]
    exact .next _

theorem answer_shf (r1 r2 : Reg) (imm : Immed) : Answer (.shf r1 r2 imm) s (exec (.shf r1 r2 imm) s) := by
  rw [exec_shf]
  rcases shf_cases r1 r2 imm s with ⟨-, -, heq⟩ | ⟨-, heq⟩
  · rw [heq]
    exact .refused rfl
  · rw [heq]
    exact answer_aluOp rfl _ r1 r2

theorem answer_rot (r1 r2 : Reg) (imm : Immed) : Answer (.rot r1 r2 imm) s (exec (.rot r1 r2 imm) s) := by
  rw [exec_rot]
  rcases rot_cases r1 r2 imm s with ⟨-, -, heq⟩ | ⟨-, heq⟩
  · rw [heq]
    exact .refused rfl
  · rw [heq]
    exact answer_aluOp rfl _ r1 r2

theorem answer_lup (r1 r2 : Reg) (imm : Immed) : Answer (.lup r1 r2 imm) s (exec (.lup r1 r2 imm) s) := by
  by_cases hzero : (s.countDown r1).reg r1 = 0
  · rw [exec_lup_of_zero hzero]
    exact .next _
  · rw [exec_lup_of_ne_zero hzero]
    exact .next _

theorem answer_reservedJump (w1 immed : Word) : Answer i s (reservedJump w1 (Instr.format i) immed s) := by
  rcases reservedJump_cases w1 (Instr.format i) immed s with heq | heq
  · rw [heq]
    exact .reservedEncoding w1
  · rw [heq]
    exact .next _

theorem answer_reservedJmpOneWord (w1 : Word) :
    Answer (.reservedJmpOneWord w1) s (exec (.reservedJmpOneWord w1) s) := by
  cases hc : s.config.jmpTeeny with
  | refuse =>
    rw [exec_reservedJmpOneWord_refuse hc]
    exact .reservedEncoding w1
  | immed0 =>
    rw [exec_reservedJmpOneWord_immed0 hc]
    exact answer_reservedJump w1 _
  | immed4 =>
    rw [exec_reservedJmpOneWord_immed4 hc]
    exact answer_reservedJump w1 _

theorem answer_reservedJmpBit3 (w1 w2 : Word) :
    Answer (.reservedJmpBit3 w1 w2) s (exec (.reservedJmpBit3 w1 w2) s) := by
  cases hc : s.config.jmpBit3 with
  | refuse =>
    rw [exec_reservedJmpBit3_refuse hc]
    exact .reservedEncoding w1
  | ignore =>
    rw [exec_reservedJmpBit3_ignore hc]
    exact .next _

theorem answer_undefinedOpcode (w1 : Word) : Answer (.undefinedOpcode w1) s (exec (.undefinedOpcode w1) s) := by
  cases hc : s.config.illegalOpcode with
  | refuse =>
    rw [exec_undefinedOpcode_refuse hc]
    exact .illegalOpcode w1
  | nop =>
    rw [exec_undefinedOpcode_nop hc]
    exact .next _

end Operations

/-- The one walk over the instructions for how they can stop. -/
theorem answer_exec (i : Instr) (s : State) : Answer i s (exec i s) := by
  cases i with
  | psh r2 imm => exact answer_psh r2 imm
  | cal r2 imm => exact answer_cal r2 imm
  | pop r1 fmt => exact answer_popInto r1
  | ret => exact answer_popInto .pc
  | bts r1 r2 imm => exact answer_bitOp rfl (fun v bit => v ||| bit) r1 r2
  | btc r1 r2 imm => exact answer_bitOp rfl (fun v bit => v &&& ~~~bit) r1 r2
  | btf r1 r2 imm => exact answer_bitOp rfl (fun v bit => v ^^^ bit) r1 r2
  | add r1 r2 imm => exact answer_aluOp rfl _ r1 r2
  | sub r1 r2 imm => exact answer_aluOp rfl _ r1 r2
  | mpy r1 r2 imm => exact answer_aluOp rfl _ r1 r2
  | and r1 r2 imm => exact answer_aluOp rfl _ r1 r2
  | or r1 r2 imm => exact answer_aluOp rfl _ r1 r2
  | xor r1 r2 imm => exact answer_aluOp rfl _ r1 r2
  | inc r1 => exact answer_aluOp rfl _ r1 .rZ
  | dec r1 => exact answer_aluOp rfl _ r1 .rZ
  | div r1 r2 imm => exact answer_divOp rfl _ r1 r2
  | mod r1 r2 imm => exact answer_divOp rfl _ r1 r2
  | shf r1 r2 imm => exact answer_shf r1 r2 imm
  | rot r1 r2 imm => exact answer_rot r1 r2 imm
  | neg r1 fmt => exact answer_unlessRefused (.next _) rfl r1
  | lup r1 r2 imm => exact answer_lup r1 r2 imm
  | reservedJmpOneWord w1 => exact answer_reservedJmpOneWord w1
  | reservedJmpBit3 w1 w2 => exact answer_reservedJmpBit3 w1 w2
  | undefinedOpcode w1 => exact answer_undefinedOpcode w1
  | _ => exact .next _

/-! ### Where a step stops -/

/-- The fetch's PC less the words fetched is the fetch address (R25). -/
theorem afterFetch_instrAddress (s : State) : s.afterFetch.instrAddress (Instr.format s.fetched) = s.fetchAddress := by
  rw [State.fetched, format_decodeWords, State.instrAddress, State.afterFetch, setReg_pc_pc, BitVec.add_sub_cancel]

/-- So what an executed instruction leaves when it stops is the state of the fetch (R223). -/
theorem afterFetch_beforeFetch (s : State) : s.afterFetch.beforeFetch (Instr.format s.fetched) = s.atFetch := by
  rw [State.beforeFetch, afterFetch_instrAddress, State.afterFetch, setReg_pc_setReg_pc, State.atFetch]

theorem unlessUnset_inv (s : State) (l : List ReadSource) (b : State) (o : Host.Outcome State Fault Refusal) :
    s.unlessUnset l b o = o ∨
      ∃ source, s.unset source = true ∧ s.unlessUnset l b o = .fault (.uninitialisedRead source b) := by
  unfold State.unlessUnset
  split
  case h_1 source hfind => exact .inr ⟨source, List.find?_some hfind, rfl⟩
  case h_2 => exact .inl rfl

/-- Where the outcome of a step comes from: an unset read, a straddling fetch, or the instruction. -/
theorem step_inv (s : State) :
    (∃ source, s.unset source = true ∧ step s = .fault (.uninitialisedRead source s.atFetch)) ∨
      step s = s.straddleOutcome ∨ step s = exec s.fetched s.afterFetch := by
  rw [step]
  rcases unlessUnset_inv s s.fetchReads s.atFetch _ with heq | hunset
  · rw [heq]
    cases s.straddles with
    | true => exact .inr (.inl rfl)
    | false =>
      rw [if_neg Bool.false_ne_true]
      rcases unlessUnset_inv s.afterFetch (s.afterFetch.instrReads s.fetched) s.atFetch (exec s.fetched s.afterFetch)
        with heq' | ⟨source, hunset, heq'⟩
      · exact .inr (.inr heq')
      · rw [State.afterFetch, unset_setReg_pc] at hunset
        exact .inl ⟨source, hunset, heq'⟩
  · exact .inl hunset

theorem straddleOutcome_cases (s : State) :
    s.straddleOutcome = .fault (.fetchStraddle s.fetchAddress s.atFetch) ∨
      s.straddleOutcome = .next (s.setReg .pc 0x0000) := by
  unfold State.straddleOutcome
  split
  · exact .inl rfl
  · exact .inr rfl

theorem Answer.fault_before {i : Instr} {s : State} {f : Fault} (h : Answer i s (.fault f)) :
    Fault.before f = s.beforeFetch (Instr.format i) := by
  cases h <;> rfl

theorem Answer.refused_before {i : Instr} {s : State} {r : Refusal} (h : Answer i s (.refused r)) :
    Refusal.before r = some (s.beforeFetch (Instr.format i)) := by
  cases h
  assumption

/-- Settles O54: a check of reads and a straddling fetch leave the state of the fetch, and an instruction counts back
to it from the PC it was given. -/
theorem faultLeavesTheStateBeforeTheStep : Obligations.FaultLeavesTheStateBeforeTheStep := by
  intro s
  have hanswer := answer_exec s.fetched s.afterFetch
  refine ⟨fun f hf => (?fault : Fault.before f = s.atFetch), fun r hr => (?refusal : Refusal.before r = some s.atFetch)⟩
  case fault =>
    rcases step_inv s with ⟨source, -, heq⟩ | heq | heq
    · cases heq.symm.trans hf
      rfl
    · rcases straddleOutcome_cases s with heq' | heq'
      · cases (heq'.symm.trans heq.symm).trans hf
        rfl
      · cases (heq'.symm.trans heq.symm).trans hf
    · rw [← heq, hf] at hanswer
      rw [hanswer.fault_before, afterFetch_beforeFetch]
  case refusal =>
    rcases step_inv s with ⟨source, -, heq⟩ | heq | heq
    · cases heq.symm.trans hr
    · rcases straddleOutcome_cases s with heq' | heq'
      · cases (heq'.symm.trans heq.symm).trans hr
      · cases (heq'.symm.trans heq.symm).trans hr
    · rw [← heq, hr] at hanswer
      rw [hanswer.refused_before, afterFetch_beforeFetch]

/-! ### UninitialisedRead -/

theorem unset_of_step_fault {s b : State} {source : ReadSource}
    (h : step s = .fault (.uninitialisedRead source b)) : s.unset source = true := by
  rcases step_inv s with ⟨source', hunset, heq⟩ | heq | heq
  · cases heq.symm.trans h
    exact hunset
  · rcases straddleOutcome_cases s with heq' | heq'
    · cases (heq'.symm.trans heq.symm).trans h
    · cases (heq'.symm.trans heq.symm).trans h
  · have hanswer := answer_exec s.fetched s.afterFetch
    rw [← heq, h] at hanswer
    cases hanswer

theorem unset_reg_iff (s : State) (r : Reg) :
    s.unset (.reg r) = true ↔ s.config.resetGpr = .fault ∧ r ∈ s.unwritten := by
  simp [State.unset]

theorem unset_flags_iff (s : State) :
    s.unset .flags = true ↔ s.config.resetFlags = .fault ∧ s.flagsUnwritten = true := by
  simp [State.unset]

theorem unset_ram_iff (s : State) (a : Word) :
    s.unset (.ram a) = true ↔ s.config.ramFill = .fault ∧ InRam a ∧ s.ram.read a.toNat = none := by
  simp [State.unset, and_assoc]

/-- A first read that is unset is the one that raises the fault. -/
theorem unlessUnset_of_unset {s : State} {source : ReadSource} (h : s.unset source = true) (l : List ReadSource)
    (b : State) (o : Host.Outcome State Fault Refusal) :
    s.unlessUnset (source :: l) b o = .fault (.uninitialisedRead source b) := by
  rw [State.unlessUnset, List.find?_cons_of_pos h]

/-- Settles O57: no instruction raises this fault, so it comes from a check of reads, and what a check stops on is
unset. -/
theorem uninitialisedReadOnlyOfUnwrittenState : Obligations.UninitialisedReadOnlyOfUnwrittenState := by
  intro s
  refine ⟨fun r b h => (unset_reg_iff s r).mp (unset_of_step_fault h),
    fun b h => (unset_flags_iff s).mp (unset_of_step_fault h),
    fun a b h => (unset_ram_iff s a).mp (unset_of_step_fault h), fun hfill hnone => ?fetch⟩
  case fetch =>
    have hunset := (unset_ram_iff s s.fetchAddress).mpr ⟨hfill, fetchAddress_inRam s, hnone⟩
    exact unlessUnset_of_unset hunset _ _ _

end Sys2Proof.Machine
end

section
/-! PROOFS. The flags as an input: outside the JMP family the outcome does not depend on them (R29). -/

namespace Sys2Proof.Machine

/-! ### The operations commute with a change of the flags -/

@[simp] theorem setFlags_setFlags (s : State) (f g : Flags) : (s.setFlags f).setFlags g = s.setFlags g := rfl

@[simp] theorem setFlags_setReg (s : State) (f : Flags) (r : Reg) (v : Word) :
    (s.setFlags f).setReg r v = (s.setReg r v).setFlags f := by cases r <;> rfl

@[simp] theorem setFlags_operand (s : State) (f : Flags) (r : Reg) (imm : Immed) :
    (s.setFlags f).operand r imm = s.operand r imm := by
  rw [operand_eq, operand_eq, setFlags_reg, setFlags_immed]

theorem setFlags_beforeFetch (s : State) (f : Flags) (fmt : Format) :
    (s.setFlags f).beforeFetch fmt = (s.beforeFetch fmt).setFlags f := rfl

theorem setFlags_countDown (s : State) (f : Flags) (r : Reg) :
    (s.setFlags f).countDown r = (s.countDown r).setFlags f := by
  rw [State.countDown, setFlags_reg, setFlags_setReg, State.countDown]

/-- A written result decides the flags by itself. -/
theorem setFlags_writeResult (s : State) (f : Flags) (r1 : Reg) (v : Word) :
    (s.setFlags f).writeResult r1 v = s.writeResult r1 v := by
  rw [State.writeResult, setFlags_setReg, setFlags_setFlags, setFlags_config, State.writeResult]

theorem setFlags_memRead (s : State) (f : Flags) (a : Word) :
    (s.setFlags f).memRead a = ((s.memRead a).1, (s.memRead a).2.setFlags f) := by
  by_cases ha : InRam a
  · rw [memRead_ram _ a ha, memRead_ram s a ha, setFlags_ramWord]
  · rw [memRead_bus _ a ha, memRead_bus s a ha]
    rfl

theorem setFlags_memWrite (s : State) (f : Flags) (a v : Word) :
    (s.setFlags f).memWrite a v = (s.memWrite a v).setFlags f := by
  by_cases ha : InRam a
  · rw [memWrite_ram _ a v ha, memWrite_ram s a v ha]
    rfl
  · rw [memWrite_bus _ a v ha, memWrite_bus s a v ha]
    rfl

/-- What an operation of the stack answers, with other flags in the state it leaves. -/
def withFlags (f : Flags) : Except Fault State → Except Fault State
  | .ok t => .ok (t.setFlags f)
  | .error x => .error (Fault.withBefore ((Fault.before x).setFlags f) x)

theorem setFlags_push (s : State) (f : Flags) (v : Word) (b : State) :
    (s.setFlags f).push v (b.setFlags f) = withFlags f (s.push v b) := by
  rcases push_cases s v b with ⟨hin, heq⟩ | ⟨hout, hrefuse, heq⟩ | ⟨hout, hbus, heq⟩
  · rw [heq, push_of_inRam (s := s.setFlags f) hin]
    rfl
  · rw [heq, push_of_refuse (s := s.setFlags f) hout hrefuse]
    rfl
  · rw [heq, push_of_bus (s := s.setFlags f) hout hbus]
    rfl

theorem setFlags_popInto (s : State) (f : Flags) (r1 : Reg) (b : State) :
    (s.setFlags f).popInto r1 (b.setFlags f) = withFlags f (s.popInto r1 b) := by
  rcases popInto_cases s r1 b with ⟨hin, heq⟩ | ⟨hout, hrefuse, heq⟩ | ⟨hout, hbus, heq⟩
  · rw [heq, popInto_of_inRam (s := s.setFlags f) hin, setFlags_setReg, setFlags_setReg]
    rfl
  · rw [heq, popInto_of_refuse (s := s.setFlags f) hout hrefuse]
    rfl
  · rw [heq, popInto_of_bus (s := s.setFlags f) hout hbus]
    exact congrArg Except.ok (setFlags_setReg ((s.setReg .sp (s.sp + 1)).afterBusRead (s.sp + 1)) f r1 _)

/-! ### Outcomes that differ in the flags only -/

/-- Two outcomes that are the same but for flags `f` in the state of the second: a next state (where the instruction has
written the flags itself, the very same), or a model fault. -/
inductive FlagsApart (f : Flags) : Host.Outcome State Fault Refusal → Host.Outcome State Fault Refusal → Prop where
  | same (t : State) : FlagsApart f (.next t) (.next t)
  | next (t : State) : FlagsApart f (.next t) (.next (t.setFlags f))
  | fault (x : Fault) : FlagsApart f (.fault x) (.fault (Fault.withBefore ((Fault.before x).setFlags f) x))
  | refused (r q : Refusal) : FlagsApart f (.refused r) (.refused q)

section Operations

variable (s : State) (f : Flags)

theorem flagsApart_unlessRefused {o o' : Host.Outcome State Fault Refusal} (h : FlagsApart f o o') (r1 : Reg)
    (fmt : Format) : FlagsApart f (s.unlessRefused r1 fmt o) ((s.setFlags f).unlessRefused r1 fmt o') := by
  unfold State.unlessRefused
  rw [setFlags_config]
  split
  · exact .refused _ _
  · exact h

theorem flagsApart_aluOp (op : Word → Word → Word) (r1 r2 : Reg) (imm : Immed) :
    FlagsApart f (aluOp op r1 r2 imm s) (aluOp op r1 r2 imm (s.setFlags f)) := by
  refine flagsApart_unlessRefused s f ?_ r1 _
  rw [setFlags_writeResult, setFlags_reg, setFlags_operand]
  exact .same _

theorem flagsApart_bitOp (op : Word → Word → Word) (r1 r2 : Reg) (imm : Immed) :
    FlagsApart f (bitOp op r1 r2 imm s) (bitOp op r1 r2 imm (s.setFlags f)) := by
  refine flagsApart_unlessRefused s f ?_ r1 _
  rw [setFlags_writeResult, setFlags_reg, setFlags_operand]
  split
  · exact .same _
  · exact .next _

theorem flagsApart_divOp (op : Word → Word → Word) (r1 r2 : Reg) (imm : Immed) :
    FlagsApart f (divOp op r1 r2 imm s) (divOp op r1 r2 imm (s.setFlags f)) := by
  unfold divOp
  rw [setFlags_operand, setFlags_config]
  split
  · refine flagsApart_unlessRefused s f ?_ r1 _
    split
    · exact .fault _
    · exact .next _
  · exact flagsApart_aluOp s f op r1 r2 imm

theorem flagsApart_outcomeOf (e : Except Fault State) : FlagsApart f (outcomeOf e) (outcomeOf (withFlags f e)) := by
  cases e with
  | ok t => exact .next t
  | error x => exact .fault x

theorem flagsApart_popInto (r1 : Reg) (fmt : Format) : FlagsApart f (outcomeOf (s.popInto r1 (s.beforeFetch fmt)))
    (outcomeOf ((s.setFlags f).popInto r1 ((s.setFlags f).beforeFetch fmt))) := by
  rw [setFlags_beforeFetch, setFlags_popInto]
  exact flagsApart_outcomeOf f _

theorem flagsApart_lod (r1 r2 : Reg) (imm : Immed) :
    FlagsApart f (exec (.lod r1 r2 imm) s) (exec (.lod r1 r2 imm) (s.setFlags f)) := by
  rw [exec_lod, exec_lod, setFlags_operand, setFlags_memRead, setFlags_setReg]
  exact .next _

theorem flagsApart_str (r1 r2 : Reg) (imm : Immed) :
    FlagsApart f (exec (.str r1 r2 imm) s) (exec (.str r1 r2 imm) (s.setFlags f)) := by
  rw [exec_str, exec_str, setFlags_operand, setFlags_reg, setFlags_memWrite]
  exact .next _

theorem flagsApart_psh (r2 : Reg) (imm : Immed) :
    FlagsApart f (exec (.psh r2 imm) s) (exec (.psh r2 imm) (s.setFlags f)) := by
  rw [exec_psh, exec_psh, setFlags_operand, setFlags_beforeFetch, setFlags_push]
  exact flagsApart_outcomeOf f _

theorem flagsApart_cal (r2 : Reg) (imm : Immed) :
    FlagsApart f (exec (.cal r2 imm) s) (exec (.cal r2 imm) (s.setFlags f)) := by
  have hpush := setFlags_push s f s.pc (s.beforeFetch (Immed.format imm))
  cases hs : s.push s.pc (s.beforeFetch (Immed.format imm)) with
  | ok t =>
    rw [hs] at hpush
    rw [exec_cal_of_push_ok hs, exec_cal_of_push_ok hpush, setFlags_operand, setFlags_setReg]
    exact .next _
  | error x =>
    rw [hs] at hpush
    rw [exec_cal_of_push_error hs, exec_cal_of_push_error hpush]
    exact .fault x

theorem flagsApart_shf (r1 r2 : Reg) (imm : Immed) :
    FlagsApart f (exec (.shf r1 r2 imm) s) (exec (.shf r1 r2 imm) (s.setFlags f)) := by
  rw [exec_shf, exec_shf]
  unfold execShf
  rw [setFlags_operand, setFlags_config]
  split
  · exact .refused _ _
  · exact flagsApart_aluOp s f _ r1 r2 imm

theorem flagsApart_rot (r1 r2 : Reg) (imm : Immed) :
    FlagsApart f (exec (.rot r1 r2 imm) s) (exec (.rot r1 r2 imm) (s.setFlags f)) := by
  rw [exec_rot, exec_rot]
  unfold execRot
  rw [setFlags_operand, setFlags_config]
  split
  · exact .refused _ _
  · exact flagsApart_aluOp s f _ r1 r2 imm

theorem flagsApart_neg (r1 : Reg) (fmt : Format) :
    FlagsApart f (exec (.neg r1 fmt) s) (exec (.neg r1 fmt) (s.setFlags f)) := by
  refine flagsApart_unlessRefused s f ?_ r1 fmt
  rw [setFlags_writeResult, setFlags_reg]
  exact .same _

theorem flagsApart_cmp (r1 r2 : Reg) (imm : Immed) :
    FlagsApart f (exec (.cmp r1 r2 imm) s) (exec (.cmp r1 r2 imm) (s.setFlags f)) := by
  rw [exec_cmp, exec_cmp, setFlags_setFlags, setFlags_config, setFlags_reg, setFlags_operand]
  exact .same _

theorem flagsApart_lup (r1 r2 : Reg) (imm : Immed) :
    FlagsApart f (exec (.lup r1 r2 imm) s) (exec (.lup r1 r2 imm) (s.setFlags f)) := by
  have hreg : ((s.setFlags f).countDown r1).reg r1 = (s.countDown r1).reg r1 := by
    rw [setFlags_countDown, setFlags_reg]
  by_cases hzero : (s.countDown r1).reg r1 = 0
  · rw [exec_lup_of_zero hzero, exec_lup_of_zero (hreg.trans hzero), setFlags_countDown]
    exact .next _
  · rw [exec_lup_of_ne_zero hzero, exec_lup_of_ne_zero (hreg ▸ hzero), setFlags_countDown, setFlags_operand,
      setFlags_setReg]
    exact .next _

theorem flagsApart_undefinedOpcode (w1 : Word) :
    FlagsApart f (exec (.undefinedOpcode w1) s) (exec (.undefinedOpcode w1) (s.setFlags f)) := by
  cases hc : s.config.illegalOpcode with
  | refuse =>
    rw [exec_undefinedOpcode_refuse hc, exec_undefinedOpcode_refuse (s := s.setFlags f) hc]
    exact .fault _
  | nop =>
    rw [exec_undefinedOpcode_nop hc, exec_undefinedOpcode_nop (s := s.setFlags f) hc]
    exact .next s

end Operations

/-- Outside the JMP family, other flags before an instruction are other flags after it and nothing else. -/
theorem flagsApart_exec {i : Instr} {s : State} (f : Flags) (hteeny : s.config.jmpTeeny = .refuse)
    (hbit3 : s.config.jmpBit3 = .refuse) (hi : Instr.readsFlags i = false) :
    FlagsApart f (exec i s) (exec i (s.setFlags f)) := by
  cases i with
  | set r1 r2 imm =>
    rw [exec_set, exec_set, setFlags_operand, setFlags_setReg]
    exact .next _
  | lod r1 r2 imm => exact flagsApart_lod s f r1 r2 imm
  | str r1 r2 imm => exact flagsApart_str s f r1 r2 imm
  | psh r2 imm => exact flagsApart_psh s f r2 imm
  | pop r1 fmt => exact flagsApart_popInto s f r1 fmt
  | ret => exact flagsApart_popInto s f .pc .w1
  | bts r1 r2 imm => exact flagsApart_bitOp s f (fun v bit => v ||| bit) r1 r2 imm
  | btc r1 r2 imm => exact flagsApart_bitOp s f (fun v bit => v &&& ~~~bit) r1 r2 imm
  | btf r1 r2 imm => exact flagsApart_bitOp s f (fun v bit => v ^^^ bit) r1 r2 imm
  | cal r2 imm => exact flagsApart_cal s f r2 imm
  | add r1 r2 imm => exact flagsApart_aluOp s f _ r1 r2 imm
  | sub r1 r2 imm => exact flagsApart_aluOp s f _ r1 r2 imm
  | mpy r1 r2 imm => exact flagsApart_aluOp s f _ r1 r2 imm
  | and r1 r2 imm => exact flagsApart_aluOp s f _ r1 r2 imm
  | or r1 r2 imm => exact flagsApart_aluOp s f _ r1 r2 imm
  | xor r1 r2 imm => exact flagsApart_aluOp s f _ r1 r2 imm
  | inc r1 => exact flagsApart_aluOp s f _ r1 .rZ (.teeny 1)
  | dec r1 => exact flagsApart_aluOp s f _ r1 .rZ (.teeny 1)
  | div r1 r2 imm => exact flagsApart_divOp s f _ r1 r2 imm
  | mod r1 r2 imm => exact flagsApart_divOp s f _ r1 r2 imm
  | shf r1 r2 imm => exact flagsApart_shf s f r1 r2 imm
  | rot r1 r2 imm => exact flagsApart_rot s f r1 r2 imm
  | neg r1 fmt => exact flagsApart_neg s f r1 fmt
  | cmp r1 r2 imm => exact flagsApart_cmp s f r1 r2 imm
  | lup r1 r2 imm => exact flagsApart_lup s f r1 r2 imm
  | dly r2 imm => exact .next s
  | reservedJmpOneWord w1 =>
    rw [exec_reservedJmpOneWord_refuse hteeny, exec_reservedJmpOneWord_refuse (s := s.setFlags f) hteeny]
    exact .fault _
  | reservedJmpBit3 w1 w2 =>
    rw [exec_reservedJmpBit3_refuse hbit3, exec_reservedJmpBit3_refuse (s := s.setFlags f) hbit3]
    exact .fault _
  | undefinedOpcode w1 => exact flagsApart_undefinedOpcode s f w1
  | jmp | je | jne | jl | jle | jg | jge => cases hi

/-- Settles O50: a stopped or completed instruction answers the same for other flags, but for the flags themselves. -/
theorem onlyJumpsReadTheFlags : Obligations.OnlyJumpsReadTheFlags := by
  intro i s t f hteeny hbit3 hi
  have hapart := flagsApart_exec f hteeny hbit3 hi
  generalize exec i s = o at hapart ⊢
  generalize exec i (s.setFlags f) = o' at hapart ⊢
  refine ⟨fun x hx => ?fault, fun ht => ?next⟩
  case fault =>
    subst hx
    cases hapart
    rfl
  case next =>
    subst ht
    cases hapart with
    | same => exact ⟨t, rfl, fun _ => rfl, fun _ => rfl, rfl, rfl⟩
    | next => exact ⟨_, rfl, setFlags_reg t f, setFlags_ramWord t f, rfl, rfl⟩

end Sys2Proof.Machine
end

section
/-! PROOFS. Under the default parameters a step stops exactly on the model faults (R222, R223). -/

namespace Sys2Proof.Machine

/-- The model fault that an instruction at `a` raises by default on the state after its fetch, leaving `before` (R222);
the fetch's own faults are not among them. -/
def State.instrFault (s : State) (a : Word) (before : State) : Instr → Option Fault
  | .undefinedOpcode w1 => some (.illegalOpcode a w1 before)
  | .reservedJmpOneWord w1 => some (.reservedEncoding a w1 before)
  | .reservedJmpBit3 w1 _ => some (.reservedEncoding a w1 before)
  | .psh _ _ => if ¬InRam s.sp then some (.stackOutOfRam s.sp before) else none
  | .cal _ _ => if ¬InRam s.sp then some (.stackOutOfRam s.sp before) else none
  | .pop _ _ => if ¬InRam (s.sp + 1) then some (.stackOutOfRam (s.sp + 1) before) else none
  | .ret => if ¬InRam (s.sp + 1) then some (.stackOutOfRam (s.sp + 1) before) else none
  | .div _ r2 imm => if s.operand r2 imm = 0 then some (.divideByZero a before) else none
  | .mod _ r2 imm => if s.operand r2 imm = 0 then some (.divideByZero a before) else none
  | _ => none

/-- The outcome is the model fault given, or a next state when none is. -/
def StopsExactlyOn (o : Host.Outcome State Fault Refusal) : Option Fault → Prop
  | some f => o = .fault f
  | none => ∃ t, o = .next t

section Operations

variable {s : State} (h : s.config = parameters)
include h

theorem accepts_of_parameters (r1 : Reg) : s.accepts r1 := fun _ => by simp [h]

theorem aluOp_stops (f : Word → Word → Word) (r1 r2 : Reg) (imm : Immed) : StopsExactlyOn (aluOp f r1 r2 imm s) none :=
  ⟨_, aluOp_accepts (accepts_of_parameters h r1) f r2 imm⟩

theorem bitOp_stops (f : Word → Word → Word) (r1 r2 : Reg) (imm : Immed) :
    StopsExactlyOn (bitOp f r1 r2 imm s) none := by
  rcases bitOp_cases (accepts_of_parameters h r1) f r2 imm with ⟨-, heq⟩ | ⟨-, heq⟩
  · exact ⟨_, heq⟩
  · exact ⟨_, heq⟩

theorem divOp_stops (f : Word → Word → Word) (r1 r2 : Reg) (imm : Immed) : StopsExactlyOn (divOp f r1 r2 imm s)
    (if s.operand r2 imm = 0 then
      some (.divideByZero (s.instrAddress (Immed.format imm)) (s.beforeFetch (Immed.format imm))) else none) := by
  have ha := accepts_of_parameters h r1
  split
  case isTrue hzero => exact (divOp_zero ha f hzero).1 (by rw [h]; rfl)
  case isFalse hne =>
    obtain ⟨t, hnext, -⟩ := divOp_effect ha (f := f) hne rfl
    exact ⟨t, hnext⟩

theorem psh_stops (r2 : Reg) (imm : Immed) : StopsExactlyOn (exec (.psh r2 imm) s)
    (if ¬InRam s.sp then some (.stackOutOfRam s.sp (s.beforeFetch (Immed.format imm))) else none) := by
  obtain ⟨hin, hout⟩ := pshWritesAtSpThenDecrements r2 imm s
  split
  case isTrue hsp => exact hout hsp (by rw [h]; rfl)
  case isFalse hsp =>
    obtain ⟨t, hnext, -⟩ := hin (not_not.mp hsp)
    exact ⟨t, hnext⟩

theorem cal_stops (r2 : Reg) (imm : Immed) : StopsExactlyOn (exec (.cal r2 imm) s)
    (if ¬InRam s.sp then some (.stackOutOfRam s.sp (s.beforeFetch (Immed.format imm))) else none) := by
  obtain ⟨hin, hout⟩ := calPushesTheReturnAddressAndJumps r2 imm s
  split
  case isTrue hsp => exact hout hsp (by rw [h]; rfl)
  case isFalse hsp =>
    obtain ⟨t, hnext, -⟩ := hin (not_not.mp hsp)
    exact ⟨t, hnext⟩

theorem pop_stops (r1 : Reg) (fmt : Format) : StopsExactlyOn (exec (.pop r1 fmt) s)
    (if ¬InRam (s.sp + 1) then some (.stackOutOfRam (s.sp + 1) (s.beforeFetch fmt)) else none) := by
  obtain ⟨hin, hout⟩ := popIncrementsSpThenReads r1 fmt _ s (.inl rfl)
  split
  case isTrue hsp => exact hout hsp (by rw [h]; rfl)
  case isFalse hsp =>
    obtain ⟨t, hnext, -⟩ := hin (not_not.mp hsp)
    exact ⟨t, hnext⟩

/-- By default an instruction stops on `instrFault` and completes otherwise. -/
theorem exec_stops (i : Instr) :
    StopsExactlyOn (exec i s) (s.instrFault (s.instrAddress (Instr.format i)) (s.beforeFetch (Instr.format i)) i) := by
  cases i with
  | undefinedOpcode w1 => exact exec_undefinedOpcode_refuse (by rw [h]; rfl) w1
  | reservedJmpOneWord w1 => exact exec_reservedJmpOneWord_refuse (by rw [h]; rfl) w1
  | reservedJmpBit3 w1 w2 => exact exec_reservedJmpBit3_refuse (by rw [h]; rfl) w1 w2
  | psh r2 imm => exact psh_stops h r2 imm
  | cal r2 imm => exact cal_stops h r2 imm
  | pop r1 fmt => exact pop_stops h r1 fmt
  | ret => exact pop_stops h .pc .w1
  | div r1 r2 imm => exact divOp_stops h _ r1 r2 imm
  | mod r1 r2 imm => exact divOp_stops h _ r1 r2 imm
  | bts r1 r2 imm => exact bitOp_stops h (fun v bit => v ||| bit) r1 r2 imm
  | btc r1 r2 imm => exact bitOp_stops h (fun v bit => v &&& ~~~bit) r1 r2 imm
  | btf r1 r2 imm => exact bitOp_stops h (fun v bit => v ^^^ bit) r1 r2 imm
  | add r1 r2 imm => exact aluOp_stops h _ r1 r2 imm
  | sub r1 r2 imm => exact aluOp_stops h _ r1 r2 imm
  | mpy r1 r2 imm => exact aluOp_stops h _ r1 r2 imm
  | and r1 r2 imm => exact aluOp_stops h _ r1 r2 imm
  | or r1 r2 imm => exact aluOp_stops h _ r1 r2 imm
  | xor r1 r2 imm => exact aluOp_stops h _ r1 r2 imm
  | inc r1 => exact aluOp_stops h _ r1 .rZ _
  | dec r1 => exact aluOp_stops h _ r1 .rZ _
  | shf r1 r2 imm =>
    obtain ⟨t, hnext, -⟩ := shf_effect (accepts_of_parameters h r1) (r2 := r2) (imm := imm) (by simp [h])
    exact ⟨t, hnext⟩
  | rot r1 r2 imm =>
    obtain ⟨t, hnext, -⟩ := rot_effect (accepts_of_parameters h r1) (r2 := r2) (imm := imm) (by simp [h])
    exact ⟨t, hnext⟩
  | neg r1 fmt =>
    obtain ⟨t, hnext, -⟩ := negNegatesInBothFormats r1 fmt s (accepts_of_parameters h r1)
    exact ⟨t, hnext⟩
  | lup r1 r2 imm =>
    obtain ⟨-, t, hnext, -⟩ := lupCountsDownAndJumpsWhileNonZero r1 r2 imm s
    exact ⟨t, hnext⟩
  | _ => exact ⟨_, rfl⟩

end Operations

/-! ### The checks of R222 on the fetched words -/

/-- The checks after that of the fetch, on the words of an instruction (R222). -/
def State.wordsFault (s : State) (a : Word) (before : State) (w1 w2 : Word) : Option Fault :=
  if 23 < opcodeField w1 then some (.illegalOpcode a w1 before)
  else if opcodeField w1 = 21 ∧ (teenyBit w1 = true ∨ reservedBit w1 = true) then some (.reservedEncoding a w1 before)
  else if (opcodeField w1 = 3 ∨ opcodeField w1 = 8) ∧ ¬InRam s.sp then some (.stackOutOfRam s.sp before)
  else if opcodeField w1 = 4 ∧ ¬InRam (s.sp + 1) then some (.stackOutOfRam (s.sp + 1) before)
  else if (opcodeField w1 = 12 ∨ opcodeField w1 = 13) ∧ s.operand (reg2Field w1) (immedOf w1 w2) = 0 then
    some (.divideByZero a before)
  else none

theorem instrFault_respell (s : State) (a : Word) (b : State) (i : Instr) :
    s.instrFault a b (respell i) = s.instrFault a b i := by
  cases i with
  | add r1 r2 imm =>
    rw [respell]
    split <;> rfl
  | sub r1 r2 imm =>
    rw [respell]
    split <;> rfl
  | pop r1 fmt =>
    rw [respell]
    split <;> rfl
  | jmp r1 mask imm16 => obtain ⟨_ | _, _ | _, _ | _⟩ := mask <;> rfl
  | _ => rfl

/-- The opcodes whose instructions can stop after the fetch (R222). -/
def canStop (op : Nat) : Bool := decide (23 < op) || [3, 4, 8, 12, 13, 21].contains op

theorem wordsFault_eq_none {w1 : Word} (h : canStop (opcodeField w1) = false) (s : State) (a : Word) (b : State)
    (w2 : Word) : s.wordsFault a b w1 w2 = none := by
  simp only [canStop, List.contains_cons, List.contains_nil, Bool.or_eq_false_iff, decide_eq_false_iff_not,
    beq_eq_false_iff_ne] at h
  obtain ⟨hundef, hpsh, hpop, hcal, hdiv, hmod, hjmp, -⟩ := h
  simp [State.wordsFault, hundef, hpsh, hpop, hcal, hdiv, hmod, hjmp]

theorem wordsFault_of_push {w1 : Word} (h : opcodeField w1 = 3 ∨ opcodeField w1 = 8) (s : State) (a : Word) (b : State)
    (w2 : Word) : s.wordsFault a b w1 w2 = if ¬InRam s.sp then some (.stackOutOfRam s.sp b) else none := by
  rcases h with h | h <;> simp [State.wordsFault, h]

theorem wordsFault_of_pop {w1 : Word} (h : opcodeField w1 = 4) (s : State) (a : Word) (b : State) (w2 : Word) :
    s.wordsFault a b w1 w2 = if ¬InRam (s.sp + 1) then some (.stackOutOfRam (s.sp + 1) b) else none := by
  simp [State.wordsFault, h]

theorem wordsFault_of_division {w1 : Word} (h : opcodeField w1 = 12 ∨ opcodeField w1 = 13) (s : State) (a : Word)
    (b : State) (w2 : Word) : s.wordsFault a b w1 w2 =
      if s.operand (reg2Field w1) (immedOf w1 w2) = 0 then some (.divideByZero a b) else none := by
  rcases h with h | h <;> simp [State.wordsFault, h]

theorem wordsFault_of_jump {w1 : Word} (h : opcodeField w1 = 21) (s : State) (a : Word) (b : State) (w2 : Word) :
    s.wordsFault a b w1 w2 =
      if teenyBit w1 = true ∨ reservedBit w1 = true then some (.reservedEncoding a w1 b) else none := by
  simp [State.wordsFault, h]

theorem instrFault_decodeReal_eq_none {w1 : Word} (h : canStop (opcodeField w1) = false) (s : State) (a : Word)
    (b : State) (w2 : Word) : s.instrFault a b (decodeReal w1 w2) = none := by
  have hop : opcodeField w1 ≤ 23 := by
    simp only [canStop, Bool.or_eq_false_iff, decide_eq_false_iff_not, not_lt] at h
    exact h.1
  unfold decodeReal
  interval_cases hk : opcodeField w1
  -- opcodes 21, 13, 12, 8, 4 and 3, each goal counted from opcode 0
  on_goal 22 => cases h
  on_goal 14 => cases h
  on_goal 13 => cases h
  on_goal 9 => cases h
  on_goal 5 => cases h
  on_goal 4 => cases h
  all_goals rfl

/-- The fault of the instruction that two words decode to is the one that the checks give those words. -/
theorem instrFault_decodeWords (s : State) (a : Word) (b : State) (w1 w2 : Word) :
    s.instrFault a b (decodeWords w1 w2) = s.wordsFault a b w1 w2 := by
  cases hstop : canStop (opcodeField w1) with
  | false => rw [decodeWords, instrFault_respell, instrFault_decodeReal_eq_none hstop, wordsFault_eq_none hstop]
  | true =>
    simp only [canStop, List.contains_cons, List.contains_nil, Bool.or_eq_true, decide_eq_true_eq, beq_iff_eq,
      Bool.false_eq_true, or_false] at hstop
    rcases hstop with hop | hop | hop | hop | hop | hop | hop
    · rw [decodeWords_of_opcode_undefined hop, State.wordsFault, if_pos hop]
      rfl
    · rw [decodeWords_of_opcode_psh hop, wordsFault_of_push (.inl hop)]
      rfl
    · rw [decodeWords_of_opcode_pop hop, instrFault_respell, wordsFault_of_pop hop]
      rfl
    · rw [decodeWords_of_opcode_cal hop, wordsFault_of_push (.inr hop)]
      rfl
    · rw [decodeWords_of_opcode_div hop, wordsFault_of_division (.inl hop)]
      rfl
    · rw [decodeWords_of_opcode_mod hop, wordsFault_of_division (.inr hop)]
      rfl
    · rw [wordsFault_of_jump hop]
      cases hteeny : teenyBit w1 with
      | true =>
        rw [decodeWords_of_opcode_jmp_oneWord hop hteeny, if_pos (.inl rfl)]
        rfl
      | false =>
        cases hbit3 : reservedBit w1 with
        | true =>
          rw [decodeWords_of_opcode_jmp_bit3 hop hteeny hbit3, if_pos (.inr rfl)]
          rfl
        | false =>
          rw [decodeWords_of_opcode_jmp hop hteeny hbit3, instrFault_respell, if_neg (by simp)]
          rfl

/-- The checks of the model are those of the fetch and then those of the fetched words. -/
theorem modelFault_eq (s : State) : s.modelFault =
    if s.straddles = true then some (.fetchStraddle s.fetchAddress s.atFetch)
    else s.afterFetch.instrFault s.fetchAddress s.atFetch s.fetched := by
  rw [State.fetched, instrFault_decodeWords]
  exact ite_congr (propext (straddles_eq_true_iff s).symm) (fun _ => rfl) fun _ => rfl

/-- By default nothing reads as unset. -/
theorem noUnsetFault_parameters : Config.noUnsetFault parameters := by
  simp [Config.noUnsetFault]

theorem step_stops {s : State} (h : s.config = parameters) : StopsExactlyOn (step s) s.modelFault := by
  rw [modelFault_eq]
  rcases step_cases (h ▸ noUnsetFault_parameters) with ⟨hstraddles, hstep⟩ | ⟨hnot, hstep⟩
  · rw [hstep, if_pos hstraddles, State.straddleOutcome, h]
    rfl
  · rw [hstep, if_neg (by simp [hnot])]
    have hexec := exec_stops ((afterFetch_config s).trans h) s.fetched
    rwa [afterFetch_instrAddress, afterFetch_beforeFetch] at hexec

/-- Settles O10: by default nothing is unset, the fetch stops where it straddles, and an instruction stops on the
check of its opcode. -/
theorem stepStopsExactlyOnTheModelFaults : Obligations.StepStopsExactlyOnTheModelFaults := by
  intro s h
  have hstops := step_stops h
  cases hfault : s.modelFault with
  | some f =>
    rw [hfault] at hstops
    have hstep : step s = .fault f := hstops
    simp [hstep, eq_comm]
  | none =>
    rw [hfault] at hstops
    obtain ⟨t, hstep⟩ := hstops
    simp [hstep]

end Sys2Proof.Machine
end
